-- ==== Sys2Proof/Word.lean ====
section
/-! DEFINITION. The word types of the audio codec datapath (00_scope.md rules R6, R7, R8, R10): bytes, the
32-bit ports, the 64-bit raw word container, and the bit patterns of the two IEEE-754 formats. -/

namespace Sys2Proof

/-- One byte of the BYTES buffer (rule R7: "a byte is 8 bits"). -/
abbrev Byte := BitVec 8

/-- A 32-bit port value: `CMD`, `BITS`, `WIDTH`, `OFFSET`, `LEN` (rule R25). -/
abbrev Word32 := BitVec 32

/-- The raw word container `u64`/`i64` (rules R6 and R8): one pattern, read signed or unsigned. -/
abbrev Word64 := BitVec 64

/-- A binary32 value, held as its 32-bit encoding (rule R10: reinterpretation is a bit copy). -/
abbrev F32 := BitVec 32

/-- A binary64 value, held as its 64-bit encoding (rule R10). -/
abbrev F64 := BitVec 64

/-- The capacity of a buffer, "per-request argument, 0 to 2^32" (rule R6). -/
abbrev Capacity := Fin (2 ^ 32 + 1)

end Sys2Proof
end

