-- ==== Sys2Proof/Syntax.lean ====
section
/-! DEFINITION. The operations of the block as syntax: one constructor per row of spec/opcode_table.json
(30_encoding.md rule R61). A command word decodes to `(op, enc, be)` for EVERY operation (rule R65), so each
constructor carries both fields, also where the operation ignores them (rules R62 and R63): no bit of a legal
command word is lost. -/

namespace Sys2Proof

/-- The source's EncodingKind (rule R62). -/
inductive Kind where
  | pcmSigned
  | pcmUnsigned
  | pcmFloat
  | muLaw
  | aLaw
  deriving DecidableEq, Repr

/-- What the 3-bit field `ENC` says (rule R62): an encoding kind, or one of the three reserved codes. A reserved
code is no error for an operation that ignores `ENC` (rule R69). -/
inductive Enc where
  | of (k : Kind)
  | reserved5
  | reserved6
  | reserved7
  deriving DecidableEq, Repr

/-- The encoding kind of a field, where it holds one. -/
def Enc.kind? : Enc → Option Kind
  | .of k => some k
  | .reserved5 => none
  | .reserved6 => none
  | .reserved7 => none

/-- The 21 operations (rule R61), in the order of their codes 0x00 to 0x14. `be` is the bit `BE` (rule R63):
`true` is big-endian. -/
inductive Instr where
  | bps (enc : Enc) (be : Bool)
  | fscale (enc : Enc) (be : Bool)
  | rdword (enc : Enc) (be : Bool)
  | wrword (enc : Enc) (be : Bool)
  | sext (enc : Enc) (be : Bool)
  | toob (enc : Enc) (be : Bool)
  | fromob (enc : Enc) (be : Bool)
  | pcmsDec (enc : Enc) (be : Bool)
  | pcmuDec (enc : Enc) (be : Bool)
  | pcmsEnc (enc : Enc) (be : Bool)
  | pcmuEnc (enc : Enc) (be : Bool)
  | fltDec (enc : Enc) (be : Bool)
  | fltEnc (enc : Enc) (be : Bool)
  | ulawDec (enc : Enc) (be : Bool)
  | ulawEnc (enc : Enc) (be : Bool)
  | alawDec (enc : Enc) (be : Bool)
  | alawEnc (enc : Enc) (be : Bool)
  | decode (enc : Enc) (be : Bool)
  | encode (enc : Enc) (be : Bool)
  | unpack (enc : Enc) (be : Bool)
  | pack (enc : Enc) (be : Bool)
  deriving DecidableEq, Repr

end Sys2Proof
end

