-- ==== Sys2Proof/WellFormed.lean ====
section
/-! DEFINITION. Which instructions a legal command word can stand for (30_encoding.md rules R62, R65, R69). -/

namespace Sys2Proof

/-- The operations that read `ENC` (rule R62: DECODE, ENCODE, UNPACK and PACK), with the field they read. -/
def Instr.readEnc : Instr → Option Enc
  | .decode enc _ => some enc
  | .encode enc _ => some enc
  | .unpack enc _ => some enc
  | .pack enc _ => some enc
  | .bps _ _ => none
  | .fscale _ _ => none
  | .rdword _ _ => none
  | .wrword _ _ => none
  | .sext _ _ => none
  | .toob _ _ => none
  | .fromob _ _ => none
  | .pcmsDec _ _ => none
  | .pcmuDec _ _ => none
  | .pcmsEnc _ _ => none
  | .pcmuEnc _ _ => none
  | .fltDec _ _ => none
  | .fltEnc _ _ => none
  | .ulawDec _ _ => none
  | .ulawEnc _ _ => none
  | .alawDec _ _ => none
  | .alawEnc _ _ => none

/-- An operation that reads `ENC` needs a value 0 to 4 there (rule R69); the others take any value. -/
def Instr.wellFormed (i : Instr) : Bool :=
  match i.readEnc with
  | some enc => enc.kind?.isSome
  | none => true

end Sys2Proof
end

