-- ==== Sys2Proof/Decode.lean ====
section
/-! DEFINITION. Decoding a command word, total over all 2^32 words (30_encoding.md rules R60 to R65 and R69),
and the encoder of rule R73, written from the same tables. -/

namespace Sys2Proof

/-- Why a command word is illegal (rule R69). Each reason completes the request with `IllegalCommand`. -/
inductive IllegalWord where
  /-- `CMD[31:9]` is not zero. -/
  | reservedBits
  /-- `OP` is 0x15 to 0x1F. -/
  | reservedOp
  /-- `ENC` is 5 to 7 for an operation that reads it. -/
  | reservedEnc
  deriving DecidableEq, Repr

/-- What decoding a word gives. -/
inductive Decoded where
  | legal (i : Instr)
  | illegal (why : IllegalWord)
  deriving DecidableEq, Repr

/-- The field `ENC` by its code (rule R62). -/
def Enc.ofBits (b : BitVec 3) : Enc :=
  match b.toNat with
  | 0 => .of .pcmSigned
  | 1 => .of .pcmUnsigned
  | 2 => .of .pcmFloat
  | 3 => .of .muLaw
  | 4 => .of .aLaw
  | 5 => .reserved5
  | 6 => .reserved6
  | _ => .reserved7

/-- The code of a field `ENC` (rule R62). -/
def Enc.toBits : Enc → BitVec 3
  | .of .pcmSigned => 0
  | .of .pcmUnsigned => 1
  | .of .pcmFloat => 2
  | .of .muLaw => 3
  | .of .aLaw => 4
  | .reserved5 => 5
  | .reserved6 => 6
  | .reserved7 => 7

/-- The operation of an `OP` code with its two fields (rule R61); none for the reserved codes. -/
def Instr.ofOp (op : Nat) (enc : Enc) (be : Bool) : Option Instr :=
  match op with
  | 0x00 => some (.bps enc be)
  | 0x01 => some (.fscale enc be)
  | 0x02 => some (.rdword enc be)
  | 0x03 => some (.wrword enc be)
  | 0x04 => some (.sext enc be)
  | 0x05 => some (.toob enc be)
  | 0x06 => some (.fromob enc be)
  | 0x07 => some (.pcmsDec enc be)
  | 0x08 => some (.pcmuDec enc be)
  | 0x09 => some (.pcmsEnc enc be)
  | 0x0A => some (.pcmuEnc enc be)
  | 0x0B => some (.fltDec enc be)
  | 0x0C => some (.fltEnc enc be)
  | 0x0D => some (.ulawDec enc be)
  | 0x0E => some (.ulawEnc enc be)
  | 0x0F => some (.alawDec enc be)
  | 0x10 => some (.alawEnc enc be)
  | 0x11 => some (.decode enc be)
  | 0x12 => some (.encode enc be)
  | 0x13 => some (.unpack enc be)
  | 0x14 => some (.pack enc be)
  | _ => none

/-- Decoding, in the order of rule R65. -/
def decode (cmd : Word32) : Decoded :=
  if cmd.extractLsb' 9 23 ≠ 0 then .illegal .reservedBits
  else
    match Instr.ofOp (cmd.extractLsb' 0 5).toNat (Enc.ofBits (cmd.extractLsb' 5 3)) (cmd.getLsbD 8) with
    | none => .illegal .reservedOp
    | some i => if i.wellFormed then .legal i else .illegal .reservedEnc

/-- The `OP` code and the two fields of an operation (rule R61). -/
def Instr.fields : Instr → BitVec 5 × Enc × Bool
  | .bps enc be => (0x00, enc, be)
  | .fscale enc be => (0x01, enc, be)
  | .rdword enc be => (0x02, enc, be)
  | .wrword enc be => (0x03, enc, be)
  | .sext enc be => (0x04, enc, be)
  | .toob enc be => (0x05, enc, be)
  | .fromob enc be => (0x06, enc, be)
  | .pcmsDec enc be => (0x07, enc, be)
  | .pcmuDec enc be => (0x08, enc, be)
  | .pcmsEnc enc be => (0x09, enc, be)
  | .pcmuEnc enc be => (0x0A, enc, be)
  | .fltDec enc be => (0x0B, enc, be)
  | .fltEnc enc be => (0x0C, enc, be)
  | .ulawDec enc be => (0x0D, enc, be)
  | .ulawEnc enc be => (0x0E, enc, be)
  | .alawDec enc be => (0x0F, enc, be)
  | .alawEnc enc be => (0x10, enc, be)
  | .decode enc be => (0x11, enc, be)
  | .encode enc be => (0x12, enc, be)
  | .unpack enc be => (0x13, enc, be)
  | .pack enc be => (0x14, enc, be)

/-- Encoding: `CMD = (be << 8) | (enc << 5) | op` (rule R73). -/
def encode (i : Instr) : Word32 :=
  let (op, enc, be) := i.fields
  (if be then 0x100 else 0) ||| (enc.toBits.setWidth 32 <<< 5) ||| op.setWidth 32

/-- The instruction the decoder reads from a word numbered as spec/opcode_table.json numbers it. A command word
is one 32-bit word (rule R60), delivered whole on a port, so it has no byte order; bits above `nbits` are zero,
and a longer word is no command word (log entry 15). -/
def decodeTableWord (nbits w : Nat) : Option Instr :=
  if nbits ≤ 32 then
    match decode (BitVec.ofNat 32 (w % 2 ^ nbits)) with
    | .legal i => some i
    | .illegal _ => none
  else none

end Sys2Proof
end

