-- ==== Sys2Proof/Config.lean ====
section
/-! DEFINITION. What one instance of the block fixes and the spec leaves open: the identity of the block and
the free values (opaque constants with no body; nothing in Lean can evaluate one). The laws the spec does give
for them (rules R12 and R15; log entry 4) are put on in Machine/Float.lean and Machine/Transcendental.lean. -/

namespace Sys2Proof

/-- The binary64 operations whose NaN results need a free value (log entry 3). -/
inductive ArithOp where
  | add
  | sub
  | mul
  | div
  deriving DecidableEq, Repr

namespace Config

/-- The identity of the block (rule R1, decision D1). -/
def identity : String := "audio_codec_datapath-sub008"

/-- FREE VALUE (rule R15, decision D13): the unknown part of `LN`; `Machine.LN` puts on the laws (c) and (d). -/
opaque lnValue : F64 → F64

/-- FREE VALUE (rule R15, decision D13): the unknown part of `EXP`; `Machine.EXP` puts on the law (d). -/
opaque expValue : F64 → F64

/-- FREE VALUE (rule R15, decision D13): the unknown part of `POW`; `Machine.POW` puts on the law (b). -/
opaque powValue : F64 → F64 → F64

/-- FREE VALUE (rule R12, decision D20): the unknown part of the draw `NAN_WIDEN`; `Machine.nanWiden` makes it a NaN. -/
opaque nanWidenValue : F32 → F64

/-- FREE VALUE (rule R12, decision D20): the unknown part of the draw `NAN_NARROW`; `Machine.nanNarrow` makes it a NaN. -/
opaque nanNarrowValue : F64 → F32

/-- FREE VALUE (log entry 3): the NaN that a binary64 operation gives on these two operands; the spec names the
IEEE-754 operation (rule R9) and states no payload. `Machine.nanResult` makes it a NaN. -/
opaque nanArithValue : ArithOp → F64 → F64 → F64

/-- FREE VALUE (rule R221): what reset number `draw`, arriving inside a request, leaves in element `i` of the
request's output region in BYTES. -/
opaque resetByte : (draw : Nat) → (i : Nat) → Byte

/-- FREE VALUE (rule R221): the same for an output region in SAMPLES. -/
opaque resetSample : (draw : Nat) → (i : Nat) → F32

end Config
end Sys2Proof
end

