-- ==== Sys2Proof/Machine/State.lean ====
section
/-! DEFINITION. The state of the machine as plain data: the request ports the host drives (10_state.md rule R25),
the two host-owned buffers (20_memory.md rules R40 and R41), the result ports (rule R26), the host's pending
actions (00_scope.md rule R19), and the two fields of the model's own (log entries 2 and 6). The block itself
holds nothing between requests (rule R20). -/

namespace Sys2Proof.Machine

open Sys2Proof

/-- Status codes (60_exceptions.md rule R200); code 7 is reserved and never produced. -/
inductive Status where
  | ok
  | invalidFormat
  | bufferTooShort
  | unsupportedFloatWidth
  | unsupportedCompandedWidth
  | invalidWidth
  | illegalCommand
  deriving DecidableEq, Repr

/-- A buffer of `size` elements of `w` bits. `cells` lists the elements that are not zero, by rising index; an
element that is not listed is zero (log entry 7). -/
structure Buffer (w : Nat) where
  size : Nat
  cells : List (Nat × BitVec w)
  deriving DecidableEq, Repr

/-- The two address spaces (rule R42). -/
inductive BufferName where
  | bytes
  | samples
  deriving DecidableEq, Repr

/-- The request ports that carry a value (rule R25); the capacities are stated on their own. -/
inductive InputPort where
  | cmd
  | bits
  | width
  | offset
  | len
  | a
  | s
  deriving DecidableEq, Repr

/-- The result ports (rule R26). -/
inductive ResultPort where
  | status
  | r
  | f
  | n
  deriving DecidableEq, Repr

/-- What the host does (rules R19, R22, R27, R220, R221, R223), one action a step. -/
inductive HostAction where
  /-- Drive a request port; a port narrower than 64 bits takes the low bits. -/
  | drive (port : InputPort) (value : Word64)
  /-- Copy a result port into a request port, as in `A := R` (95_test_vectors.md section 5). -/
  | copy (source : ResultPort) (target : InputPort)
  /-- Read a result port. -/
  | read (port : ResultPort)
  /-- Supply a BYTES buffer with these contents. -/
  | supplyBytes (contents : List Byte)
  /-- Supply a SAMPLES buffer with these contents. -/
  | supplySamples (contents : List F32)
  /-- State the capacity `BCAP`. -/
  | stateBcap (capacity : Capacity)
  /-- State the capacity `SCAP`. -/
  | stateScap (capacity : Capacity)
  /-- Issue the request that stands on the ports. -/
  | request
  /-- Reset the block between requests. -/
  | reset
  /-- Issue the request that stands on the ports and reset the block before it completes. -/
  | requestCutByReset
  deriving DecidableEq, Repr

/-- Why the machine stops with a fault. -/
inductive Fault where
  /-- The host reads a result port that carries no value: raised by the host actions `read` and `copy` (rule R27,
  93_implementation_defined.md I10: "fault"). Safe: the spec asks for the stop. -/
  | portWithoutValue (port : ResultPort)
  /-- The stated capacity of a buffer is larger than the buffer, and the request reaches that buffer: raised by
  RDWORD, WRWORD, UNPACK and PACK (rule R223, I12: "stuck"). Safe: the spec gives such a request no step. -/
  | falseCapacity (buffer : BufferName)
  deriving DecidableEq, Repr

/-- Why the model has no meaning for an instruction. -/
inductive Refusal where
  /-- Raised by an arm of `exec` whose instruction has no meaning yet; no arm does so now. Safe. -/
  | notModelled (mnemonic : String)
  deriving DecidableEq, Repr

/-- The machine. -/
structure State where
  /-- The command word port `CMD`. -/
  cmd : Word32
  /-- The port `BITS`, read as a two's-complement number. -/
  bits : Word32
  /-- The port `WIDTH`, in bytes. -/
  width : Word32
  /-- The port `OFFSET`, a byte index. -/
  offset : Word32
  /-- The port `LEN`: bytes for UNPACK, samples for PACK. -/
  len : Word32
  /-- The integer operand port `A`. -/
  a : Word64
  /-- The sample operand port `S`. -/
  s : F32
  /-- The stated capacity of BYTES. -/
  bcap : Capacity
  /-- The stated capacity of SAMPLES. -/
  scap : Capacity
  /-- The BYTES buffer. -/
  bytes : Buffer 8
  /-- The SAMPLES buffer, of binary32 patterns. -/
  samples : Buffer 32
  /-- The result port `STATUS`, where it carries a value. -/
  status : Option Status
  /-- The result port `R`, where it carries a value. -/
  r : Option Word64
  /-- The result port `F`, where it carries a value. -/
  f : Option F32
  /-- The result port `N`, where it carries a value. -/
  n : Option Word64
  /-- The parameter `LEGACY_FLOAT_ZERO` (rule R6), fixed for the instance: no step changes it (DESIGN CHOICE,
  log entry 5). -/
  legacyFloatZero : Bool
  /-- What the host has yet to do, the next action first. -/
  pending : List HostAction
  /-- MODEL'S OWN: how many free draws resets inside requests have used (log entry 6). -/
  draws : Nat
  deriving DecidableEq, Repr

/-- The machine right after reset (rules R30 and R31): no result port carries a value. The ports and buffers are
the host's and reset gives them no value: they stand at zero and empty here (log entry 1). -/
def State.reset : State where
  cmd := 0
  bits := 0
  width := 0
  offset := 0
  len := 0
  a := 0
  s := 0
  bcap := 0
  scap := 0
  bytes := { size := 0, cells := [] }
  samples := { size := 0, cells := [] }
  status := none
  r := none
  f := none
  n := none
  legacyFloatZero := false
  pending := []
  draws := 0

end Sys2Proof.Machine
end

