-- ==== Sys2Proof/Machine/Ops.lean ====
section
/-! DEFINITION. The operations over buffers and ports that the meanings share: reading and writing one element and
one word (20_memory.md rules R40 to R49, 41_word_codec.md rules R90 to R92), the completion of a request with a
result or with an error (00_scope.md rule R16, 60_exceptions.md rule R204), reset (70_reset_and_hazards.md rules
R220 and R221), and what the host does with the ports (10_state.md rules R25 to R27). -/

namespace Sys2Proof.Machine

open Sys2Proof

/-- What a step or a meaning answers. -/
abbrev Result := Host.Outcome State Fault Refusal

/-! ### Buffers -/

/-- What an element that is not listed reads as (log entry 7). -/
def unlisted (w : Nat) : BitVec w := 0

/-- Element `i` of a rising list of cells. -/
def cellsGet {w : Nat} (i : Nat) : List (Nat × BitVec w) → BitVec w
  | [] => unlisted w
  | (j, v) :: rest => if i = j then v else if i < j then unlisted w else cellsGet i rest

/-- A rising list of cells with element `i` set to `v`; a cell that reads as an unlisted one is left out. -/
def cellsSet {w : Nat} (i : Nat) (v : BitVec w) : List (Nat × BitVec w) → List (Nat × BitVec w)
  | [] => if v = unlisted w then [] else [(i, v)]
  | (j, u) :: rest =>
    if i < j then (if v = unlisted w then (j, u) :: rest else (i, v) :: (j, u) :: rest)
    else if i = j then (if v = unlisted w then rest else (i, v) :: rest)
    else (j, u) :: cellsSet i v rest

/-- The canonical form of a list of cells: indices rise from `low` and stay below `size`, no cell reads as an
unlisted one. -/
def cellsWf {w : Nat} (low size : Nat) : List (Nat × BitVec w) → Bool
  | [] => true
  | (j, v) :: rest => decide (low ≤ j) && decide (j < size) && v != unlisted w && cellsWf (j + 1) size rest

/-- The canonical form of a buffer: equal buffers are equal data. -/
def Buffer.wf {w : Nat} (b : Buffer w) : Bool := cellsWf 0 b.size b.cells

/-- `MemRead` of one element (rule R16): no side effect (rule R49), the bits unchanged (rule R41). -/
def Buffer.get {w : Nat} (b : Buffer w) (i : Nat) : BitVec w := cellsGet i b.cells

/-- `MemWrite` of one element (rule R16): it changes that element alone (rule R49). -/
def Buffer.set {w : Nat} (b : Buffer w) (i : Nat) (v : BitVec w) : Buffer w :=
  { b with cells := cellsSet i v b.cells }

/-- The elements from `start` on set to the members of a list. -/
def Buffer.setFrom {w : Nat} (b : Buffer w) (start : Nat) : List (BitVec w) → Buffer w
  | [] => b
  | v :: rest => (b.set start v).setFrom (start + 1) rest

/-- The buffer that holds these elements and no more. -/
def Buffer.ofList {w : Nat} (contents : List (BitVec w)) : Buffer w :=
  Buffer.setFrom { size := contents.length, cells := [] } 0 contents

/-- The first `count` elements from `start` on set to `value start`, `value (start + 1)`, … -/
def Buffer.fill {w : Nat} (b : Buffer w) (start : Nat) (value : Nat → BitVec w) : Nat → Buffer w
  | 0 => b
  | k + 1 => (b.fill start value k).set (start + k) (value (start + k))

/-! ### Words -/

/-- How far byte `b` of a word of `w` bytes is shifted up, by byte order (rule R44). -/
def byteShift (w : Nat) (be : Bool) (b : Nat) : Nat := if be then 8 * (w - 1 - b) else 8 * b

/-- What the first `k` bytes of the word at `off` contribute. -/
def readBytes (buf : Buffer 8) (off w : Nat) (be : Bool) : Nat → Word64
  | 0 => 0
  | k + 1 => readBytes buf off w be k ||| ((buf.get (off + k)).setWidth 64 <<< byteShift w be k)

/-- `readWord` (rule R90): the one word path of every width (rule R91). -/
def readWord (buf : Buffer 8) (off w : Nat) (be : Bool) : Word64 := readBytes buf off w be w

/-- The byte of a word that goes to index `off + b`. -/
def wordByte (value : Word64) (w : Nat) (be : Bool) (b : Nat) : Byte := (value >>> byteShift w be b).setWidth 8

/-- The buffer after the first `k` bytes of the word at `off` are written. -/
def writeBytes (buf : Buffer 8) (off : Nat) (value : Word64) (w : Nat) (be : Bool) : Nat → Buffer 8
  | 0 => buf
  | k + 1 => (writeBytes buf off value w be k).set (off + k) (wordByte value w be k)

/-- `writeWord` (rule R92): the low `8 * w` bits of the value, one byte at a time. -/
def writeWord (buf : Buffer 8) (off : Nat) (value : Word64) (w : Nat) (be : Bool) : Buffer 8 :=
  writeBytes buf off value w be w

/-! ### Completion -/

/-- The state with the four result ports as one completion leaves them: a port without a value holds none, and no
value stays from an earlier request (rule R27; until when a value stays: DEDUCED, log entry 17). -/
def State.finish (st : State) (status : Status) (r : Option Word64) (f : Option F32) (n : Option Word64) : State :=
  { st with status := some status, r := r, f := f, n := n }

/-- `raise E` (rules R16 and R204), the one way a request takes an error: `STATUS` has the code, no result port has
a value, no buffer is written, and no other state changes. -/
def raise (e : Status) (st : State) : Result := .next (st.finish e none none none)

/-- `complete(R)` (rule R16). -/
def completeR (v : Word64) (st : State) : Result := .next (st.finish .ok (some v) none none)

/-- `complete(F)` (rule R16). -/
def completeF (v : F32) (st : State) : Result := .next (st.finish .ok none (some v) none)

/-- `complete()` with BYTES written (rule R92). -/
def completeBytes (buf : Buffer 8) (st : State) : Result :=
  .next ({ st with bytes := buf }.finish .ok none none none)

/-- `complete(N)` with SAMPLES written (rule R184). -/
def completeSamplesN (buf : Buffer 32) (n : Nat) (st : State) : Result :=
  .next ({ st with samples := buf }.finish .ok none none (some (BitVec.ofNat 64 n)))

/-- `complete(N)` with BYTES written (rule R186). -/
def completeBytesN (buf : Buffer 8) (n : Nat) (st : State) : Result :=
  .next ({ st with bytes := buf }.finish .ok none none (some (BitVec.ofNat 64 n)))

/-! ### Reset and the host's side of the ports -/

/-- Reset (rule R220): no result port carries a value; nothing else changes, the buffers least of all. -/
def State.resetBlock (st : State) : State := { st with status := none, r := none, f := none, n := none }

/-- The numeric code on the 3-bit `STATUS` port (rule R200). -/
def Status.code : Status → BitVec 3
  | .ok => 0
  | .invalidFormat => 1
  | .bufferTooShort => 2
  | .unsupportedFloatWidth => 3
  | .unsupportedCompandedWidth => 4
  | .invalidWidth => 5
  | .illegalCommand => 6

/-- What a result port carries, its bits in the low bits of a 64-bit word. -/
def State.portValue (st : State) : ResultPort → Option Word64
  | .status => st.status.map fun c => c.code.setWidth 64
  | .r => st.r
  | .f => st.f.map fun v => v.setWidth 64
  | .n => st.n

/-- A request port driven to the low bits of a value (log entry 8). It carries that value, from request to request, until
it is driven again; a stated capacity and a supplied buffer stay in the same way (DESIGN CHOICE, log entry 20: the spec
says only that every request is supplied with its inputs). -/
def State.drivePort (st : State) (port : InputPort) (v : Word64) : State :=
  match port with
  | .cmd => { st with cmd := v.setWidth 32 }
  | .bits => { st with bits := v.setWidth 32 }
  | .width => { st with width := v.setWidth 32 }
  | .offset => { st with offset := v.setWidth 32 }
  | .len => { st with len := v.setWidth 32 }
  | .a => { st with a := v }
  | .s => { st with s := v.setWidth 32 }

/-- Reading a result port: without a value it is a fault, never a zero or an earlier value (rule R27). -/
def readPort (port : ResultPort) (st : State) (use : Word64 → State) : Result :=
  match st.portValue port with
  | some v => .next (use v)
  | none => .fault (.portWithoutValue port)

end Sys2Proof.Machine
end

