-- ==== Sys2Proof/Machine/Operands.lean ====
section
/-! DEFINITION. The operands of the operations: the checked `BITS` (30_encoding.md rule R67), the derived values of
the format (40_format_descriptor.md rule R80), the checked `WIDTH` (41_word_codec.md rule R90), the encoding kind
(30_encoding.md rule R62), the companded byte of `A` (rule R68), and the stated capacities (70_reset_and_hazards.md
rule R223). -/

namespace Sys2Proof.Machine

open Sys2Proof

/-- `1 <= BITS <= 64`, `BITS` read as two's complement (rule R67). -/
def bitsInRange (bits : Word32) : Bool := decide (1 ≤ bits.toInt) && decide (bits.toInt ≤ 64)

/-- The check of `BITS` that comes before everything else an operation does with it: outside 1 to 64 the request
completes with `InvalidFormat` (rule R67); inside, `use` has the checked number. -/
def withBits (st : State) (use : Nat → Result) : Result :=
  if bitsInRange st.bits then use st.bits.toNat else raise .invalidFormat st

/-- The least `q` with `q * b >= a`, for `b > 0` (rule R8). -/
def ceilDiv (a b : Nat) : Nat := (a + b - 1) / b

/-- `bps(bits)`, bytes per sample (rule R80). -/
def bytesPerSample (bits : Nat) : Nat := ceilDiv bits 8

/-- `fullScale(bits)` as its binary64 pattern `(1022 + bits) << 52` (rule R80), never a shifted integer. -/
def fullScale (bits : Nat) : F64 := BitVec.ofNat 64 (1022 + bits) <<< 52

/-- `1 <= WIDTH <= 8` (rule R90). -/
def widthInRange (width : Word32) : Bool := decide (1 ≤ width.toNat) && decide (width.toNat ≤ 8)

/-- The encoding kind that an operation reads from `ENC`: a reserved code is an illegal command (rule R69). The
decoder lets no such instruction through; the check stands for an instruction that comes from elsewhere (DESIGN
CHOICE, log entry 11). -/
def withKind (enc : Enc) (st : State) (use : Kind → Result) : Result :=
  match enc.kind? with
  | some k => use k
  | none => raise .illegalCommand st

/-- `A[7:0]`, the companded byte (rule R68). -/
def compandedByte (raw : Word64) : Byte := raw.setWidth 8

/-- A request that reaches BYTES while `BCAP` is stated larger than the buffer has no step (rule R223, I12;
DEDUCED, log entry 9). -/
def withBytes (st : State) (use : Nat → Result) : Result :=
  if st.bytes.size < st.bcap.val then .fault (.falseCapacity .bytes) else use st.bcap.val

/-- The same for SAMPLES and `SCAP`. -/
def withSamples (st : State) (use : Nat → Result) : Result :=
  if st.samples.size < st.scap.val then .fault (.falseCapacity .samples) else use st.scap.val

end Sys2Proof.Machine
end

