-- ==== Sys2Proof/Machine/Float.lean ====
section
/-! DEFINITION. IEEE-754 binary32 and binary64 on their bit patterns (00_scope.md rules R9 to R14): rounding to
nearest with ties to even, the four operations and the comparisons of binary64, and the conversions. A finite
value is kept exactly, as a natural number times a power of two, until the one rounding of the operation. What rule R9
names without spelling out is taken from IEEE-754 (PRESUMED, log entry 18). -/

namespace Sys2Proof.Machine

open Sys2Proof

/-- A binary interchange format: its width, its number of fraction bits, and the exponent of its least subnormal. -/
structure FloatFormat where
  width : Nat
  fracBits : Nat
  minExp : Int
  deriving DecidableEq, Repr

/-- IEEE-754 single precision. -/
def binary32 : FloatFormat := { width := 32, fracBits := 23, minExp := -149 }

/-- IEEE-754 double precision. -/
def binary64 : FloatFormat := { width := 64, fracBits := 52, minExp := -1074 }

namespace FloatFormat

/-- The sign bit of an encoding. -/
def signOf (fmt : FloatFormat) (n : Nat) : Bool := n / 2 ^ (fmt.width - 1) % 2 = 1

/-- The encoding without its sign bit. -/
def magOf (fmt : FloatFormat) (n : Nat) : Nat := n % 2 ^ (fmt.width - 1)

/-- The magnitude encoding of an infinity: exponent field all ones, fraction zero. -/
def infMag (fmt : FloatFormat) : Nat := 2 ^ (fmt.width - 1) - 2 ^ fmt.fracBits

/-- A NaN has the exponent field all ones and a fraction that is not zero. -/
def isNaN (fmt : FloatFormat) (n : Nat) : Bool := fmt.infMag < fmt.magOf n

/-- An infinity of either sign. -/
def isInf (fmt : FloatFormat) (n : Nat) : Bool := fmt.magOf n = fmt.infMag

/-- A zero of either sign. -/
def isZero (fmt : FloatFormat) (n : Nat) : Bool := fmt.magOf n = 0

/-- The integer significand of a finite magnitude, with the hidden bit of a normal one. -/
def sigOf (fmt : FloatFormat) (mag : Nat) : Nat :=
  if mag / 2 ^ fmt.fracBits = 0 then mag else 2 ^ fmt.fracBits + mag % 2 ^ fmt.fracBits

/-- The exponent of the significand's unit: the magnitude is `sigOf mag * 2 ^ expOf mag`. -/
def expOf (fmt : FloatFormat) (mag : Nat) : Int :=
  fmt.minExp + ((mag / 2 ^ fmt.fracBits - 1 : Nat) : Int)

/-- A finite magnitude as a whole number of the format's least subnormal. -/
def magUnits (fmt : FloatFormat) (mag : Nat) : Nat := fmt.sigOf mag * 2 ^ (mag / 2 ^ fmt.fracBits - 1)

/-- A finite value as a whole number of the format's least subnormal: the value is `units * 2 ^ minExp`. -/
def units (fmt : FloatFormat) (n : Nat) : Int :=
  if fmt.signOf n then -(fmt.magUnits (fmt.magOf n) : Int) else fmt.magUnits (fmt.magOf n)

/-- `m / 2 ^ k` rounded to the nearest natural number, ties to even. -/
def roundShift (m k : Nat) : Nat :=
  let q := m / 2 ^ k
  let rest := 2 * (m % 2 ^ k)
  if 2 ^ k < rest ∨ (rest = 2 ^ k ∧ q % 2 = 1) then q + 1 else q

/-- The magnitude encoding nearest to `m * 2 ^ e`, ties to even (rule R9). The unit of the result is the format's
precision below the leading bit, or the least subnormal where that is larger; a carry out of the significand moves
into the exponent field, and past the largest finite value the result is an infinity. -/
def roundMag (fmt : FloatFormat) (m : Nat) (e : Int) : Nat :=
  if m = 0 then 0
  else
    let unit := max fmt.minExp (e + (m.log2 : Int) - fmt.fracBits)
    let sig := if unit ≤ e then m * 2 ^ (e - unit).toNat else roundShift m (unit - e).toNat
    min ((unit - fmt.minExp).toNat * 2 ^ fmt.fracBits + sig) fmt.infMag

/-- A sign and a magnitude as an encoding. -/
def pack (fmt : FloatFormat) (sign : Bool) (mag : Nat) : Nat :=
  (if sign then 2 ^ (fmt.width - 1) else 0) + mag

end FloatFormat

/-! ### binary64 -/

/-- `x` is a NaN. -/
def isNaN64 (x : F64) : Bool := binary64.isNaN x.toNat

/-- `x` is an infinity. -/
def isInf64 (x : F64) : Bool := binary64.isInf x.toNat

/-- `x` is a zero. -/
def isZero64 (x : F64) : Bool := binary64.isZero x.toNat

/-- The sign bit of `x`. -/
def sign64 (x : F64) : Bool := binary64.signOf x.toNat

/-- The magnitude encoding of `x`. -/
def mag64 (x : F64) : Nat := binary64.magOf x.toNat

/-- The significand of a finite `x`. -/
def sig64 (x : F64) : Nat := binary64.sigOf (mag64 x)

/-- The exponent of that significand's unit. -/
def exp64 (x : F64) : Int := binary64.expOf (mag64 x)

/-- A finite `x` in units of `2 ^ (-1074)`. -/
def units64 (x : F64) : Int := binary64.units x.toNat

/-- The binary64 of a sign and a magnitude encoding. -/
def pack64 (sign : Bool) (mag : Nat) : F64 := BitVec.ofNat 64 (binary64.pack sign mag)

/-- The binary64 nearest to `± m * 2 ^ e`. -/
def round64 (sign : Bool) (m : Nat) (e : Int) : F64 := pack64 sign (binary64.roundMag m e)

/-- The infinity of a sign. -/
def inf64 (sign : Bool) : F64 := pack64 sign binary64.infMag

/-- Any pattern made a NaN, every NaN left as it is: the range of this function is all NaNs. -/
def toNaN64 (x : F64) : F64 := if isNaN64 x then x else x ||| 0x7FF8000000000000#64

/-- The NaN a binary64 operation gives (log entry 3): some NaN, fixed for the instance, the operation and its operands. -/
def nanResult (op : ArithOp) (x y : F64) : F64 := toNaN64 (Config.nanArithValue op x y)

/-- `1.0` in binary64. -/
def one64 : F64 := 0x3FF0000000000000#64

/-- IEEE-754 binary64 multiplication (rule R9). -/
def mul64 (x y : F64) : F64 :=
  let sign := sign64 x != sign64 y
  if isNaN64 x || isNaN64 y then nanResult .mul x y
  else if isInf64 x || isInf64 y then
    if isZero64 x || isZero64 y then nanResult .mul x y else inf64 sign
  else round64 sign (sig64 x * sig64 y) (exp64 x + exp64 y)

/-- How many bits the dividend is shifted up before the integer division of `div64`: enough that the quotient has
more bits than the significand, so that one sticky bit below it decides the rounding. -/
def divShift : Nat := 110

/-- IEEE-754 binary64 division (rule R9). -/
def div64 (x y : F64) : F64 :=
  let sign := sign64 x != sign64 y
  if isNaN64 x || isNaN64 y then nanResult .div x y
  else if isInf64 x then
    if isInf64 y then nanResult .div x y else inf64 sign
  else if isInf64 y then pack64 sign 0
  else if isZero64 y then
    if isZero64 x then nanResult .div x y else inf64 sign
  else
    let num := sig64 x * 2 ^ divShift
    let sticky := if num % sig64 y = 0 then 0 else 1
    round64 sign (2 * (num / sig64 y) + sticky) (exp64 x - exp64 y - (divShift + 1 : Nat))

/-- A finite binary64 as an integer number of units `2 ^ e`, for an `e` not above its own exponent. -/
def scaled64 (x : F64) (e : Int) : Int :=
  let m : Int := (sig64 x * 2 ^ (exp64 x - e).toNat : Nat)
  if sign64 x then -m else m

/-- The sum of two binary64 values that are no NaN; `nan` is what `inf - inf` gives. An exact zero sum is `+0.0`
unless both addends are negative zeros. -/
def addCore64 (nan x y : F64) : F64 :=
  if isInf64 x then
    if isInf64 y && sign64 x != sign64 y then nan else x
  else if isInf64 y then y
  else
    let e := min (exp64 x) (exp64 y)
    let sum := scaled64 x e + scaled64 y e
    if sum = 0 then pack64 (sign64 x && sign64 y) 0
    else round64 (decide (sum < 0)) sum.natAbs e

/-- IEEE-754 binary64 addition (rule R9). -/
def add64 (x y : F64) : F64 :=
  if isNaN64 x || isNaN64 y then nanResult .add x y
  else addCore64 (nanResult .add x y) x y

/-- `x` with its sign bit flipped. -/
def neg64 (x : F64) : F64 := x ^^^ 0x8000000000000000#64

/-- IEEE-754 binary64 subtraction (rule R9). -/
def sub64 (x y : F64) : F64 :=
  if isNaN64 x || isNaN64 y then nanResult .sub x y
  else addCore64 (nanResult .sub x y) x (neg64 y)

/-- A key whose order is the order of the values that are no NaN; both zeros have the key 0. -/
def key64 (x : F64) : Int := if sign64 x then -(mag64 x : Int) else mag64 x

/-- `x < y` (rule R9): false where either operand is a NaN. -/
def lt64 (x y : F64) : Bool := !isNaN64 x && !isNaN64 y && decide (key64 x < key64 y)

/-- `|x|` clears the sign bit, also of a NaN (rule R9). -/
def abs64 (x : F64) : F64 := x &&& 0x7FFFFFFFFFFFFFFF#64

/-- `signum` (rule R14): `±1.0`, and zeros and NaNs themselves. -/
def signum64 (x : F64) : F64 :=
  if isNaN64 x || isZero64 x then x
  else if sign64 x then neg64 one64 else one64

/-! ### binary32 -/

/-- `s` is a NaN. -/
def isNaN32 (s : F32) : Bool := binary32.isNaN s.toNat

/-- `s` is an infinity. -/
def isInf32 (s : F32) : Bool := binary32.isInf s.toNat

/-- The sign bit of `s`. -/
def sign32 (s : F32) : Bool := binary32.signOf s.toNat

/-- The magnitude encoding of `s`. -/
def mag32 (s : F32) : Nat := binary32.magOf s.toNat

/-- A finite `s` in units of `2 ^ (-149)`. -/
def units32 (s : F32) : Int := binary32.units s.toNat

/-- The binary32 of a sign and a magnitude encoding. -/
def pack32 (sign : Bool) (mag : Nat) : F32 := BitVec.ofNat 32 (binary32.pack sign mag)

/-- Any pattern made a NaN, every NaN left as it is. -/
def toNaN32 (s : F32) : F32 := if isNaN32 s then s else s ||| 0x7FC00000#32

/-! ### Conversions (rules R11 to R13) -/

/-- The draw `NAN_WIDEN` (rule R12): some binary64 NaN, the same for the same input. -/
def nanWiden (s : F32) : F64 := toNaN64 (Config.nanWidenValue s)

/-- The draw `NAN_NARROW` (rule R12): some binary32 NaN, the same for the same input. -/
def nanNarrow (x : F64) : F32 := toNaN32 (Config.nanNarrowValue x)

/-- `f64_of_int` (rule R11): the integer rounded to nearest, ties to even; 0 gives `+0.0`. -/
def f64OfInt (k : Int) : F64 := round64 (decide (k < 0)) k.natAbs 0

/-- `f64_of_f32` (rule R11): exact for every value that is no NaN, signs of zero and infinity kept. -/
def f64OfF32 (s : F32) : F64 :=
  if isNaN32 s then nanWiden s
  else if isInf32 s then inf64 (sign32 s)
  else round64 (sign32 s) (binary32.sigOf (mag32 s)) (binary32.expOf (mag32 s))

/-- `f32_of_f64` (rule R11): rounded to nearest, ties to even; past the largest binary32 an infinity, below the
least subnormal a signed zero. -/
def f32OfF64 (x : F64) : F32 :=
  if isNaN64 x then nanNarrow x
  else if isInf64 x then pack32 (sign64 x) binary32.infMag
  else pack32 (sign64 x) (binary32.roundMag (sig64 x) (exp64 x))

/-- The integer part of the magnitude of a finite binary64. -/
def intPart64 (x : F64) : Nat :=
  if 0 ≤ exp64 x then sig64 x * 2 ^ (exp64 x).toNat else sig64 x / 2 ^ (-exp64 x).toNat

/-- `trunc_i64` (rule R13) as an integer: toward zero, saturating, NaN to 0. -/
def truncInt (x : F64) : Int :=
  if isNaN64 x then 0
  else if isInf64 x then (if sign64 x then -(2 ^ 63) else 2 ^ 63 - 1)
  else if sign64 x then max (-(intPart64 x : Int)) (-(2 ^ 63)) else min (intPart64 x) (2 ^ 63 - 1)

/-- `trunc_i64` (rule R13) as its `i64` pattern. -/
def truncI64 (x : F64) : Word64 := BitVec.ofInt 64 (truncInt x)

end Sys2Proof.Machine
end

