-- ==== Sys2Proof/Machine/Transcendental.lean ====
section
/-! DEFINITION. The binary64 functions `LN`, `EXP` and `POW` (00_scope.md rule R15): unknown functions under the
laws (a) to (d) and no other. Each is total and deterministic by being a function (law (a)); the laws (b) to (d)
fix the values they name, and everywhere else the value is free. -/

namespace Sys2Proof.Machine

open Sys2Proof

/-- `LN` (rule R15): `LN(1.0) = +0.0`, `LN(+inf) = +inf`, `LN(NaN)` is a NaN. -/
def LN (x : F64) : F64 :=
  if x = one64 then 0
  else if x = inf64 false then inf64 false
  else if isNaN64 x then toNaN64 (Config.lnValue x)
  else Config.lnValue x

/-- `EXP` (rule R15): `EXP(+inf) = +inf`, `EXP(NaN)` is a NaN. -/
def EXP (x : F64) : F64 :=
  if x = inf64 false then inf64 false
  else if isNaN64 x then toNaN64 (Config.expValue x)
  else Config.expValue x

/-- `POW` (rule R15): `POW(b, +0.0) = 1.0` for every `b`. -/
def POW (b e : F64) : F64 :=
  if e = 0 then one64 else Config.powValue b e

end Sys2Proof.Machine
end

