-- ==== Sys2Proof/Machine/MuLaw.lean ====
section
/-! DEFINITION. ULAW.DEC and ULAW.ENC, and the sign-magnitude helpers the A-law unit shares
(45_g711_mulaw_expander.md). The curves take their transcendental function as an argument (rule R15: "a model takes
them as arguments"); the meanings give them the instance's own. -/

namespace Sys2Proof.Machine

open Sys2Proof

/-- `MU = 255.0` (rule R140). -/
def MU : F64 := 0x406FE00000000000#64

/-- `INV_MU = 1.0 / MU` (rule R140). -/
def INV_MU : F64 := div64 one64 MU

/-- `MU1 = 1.0 + MU` (rule R140). -/
def MU1 : F64 := add64 one64 MU

/-- `FS8 = fullScale(8)` (rules R140 and R160). -/
def FS8 : F64 := fullScale 8

/-- `smDecode` (rule R141). -/
def smDecode (b m : Byte) : Int :=
  let r := b ^^^ m
  if r &&& 0x80#8 ≠ 0 then -((r ^^^ 0x80#8).toNat : Int) else r.toNat

/-- `smEncode` (rule R142); the minus sign is modulo 2^64. -/
def smEncode (raw : Word64) (m : Byte) : Byte :=
  let r := if raw.slt 0 then (-raw) ^^^ 0x80#64 else raw
  (r ^^^ m.setWidth 64).setWidth 8

/-- `ulawDecode` (rule R143) for a given `POW`. -/
def ulawDecodeBy (pow : F64 → F64 → F64) (b : Byte) : F32 :=
  let x := div64 (f64OfInt (smDecode b 0xFF#8)) FS8
  let t := pow MU1 (abs64 x)
  f32OfF64 (mul64 (mul64 (signum64 x) INV_MU) (sub64 t one64))

/-- `ulawEncode` (rule R145) for a given `LN`; `LN_MU1` is `LN(MU1)` (rule R140). -/
def ulawEncodeBy (ln : F64 → F64) (s : F32) : Byte :=
  let d := f64OfF32 s
  let x := div64 (mul64 (signum64 d) (ln (add64 one64 (mul64 MU (abs64 d))))) (ln MU1)
  smEncode (truncI64 (mul64 x FS8)) 0xFF#8

/-- `ulawDecode` of this instance. -/
def ulawDecode (b : Byte) : F32 := ulawDecodeBy POW b

/-- `ulawEncode` of this instance. -/
def ulawEncode (s : F32) : Byte := ulawEncodeBy LN s

/-- `ULAW.DEC` (rule R143). -/
def execUlawDec (_enc : Enc) (_be : Bool) (st : State) : Result :=
  completeF (ulawDecode (compandedByte st.a)) st

/-- `ULAW.ENC` (rule R145). -/
def execUlawEnc (_enc : Enc) (_be : Bool) (st : State) : Result :=
  completeR ((ulawEncode st.s).setWidth 64) st

end Sys2Proof.Machine
end

