-- ==== Sys2Proof/Machine/ALaw.lean ====
section
/-! DEFINITION. ALAW.DEC and ALAW.ENC (46_g711_alaw_expander.md), on the sign-magnitude helpers of the µ-law unit. -/

namespace Sys2Proof.Machine

open Sys2Proof

/-- `A = 87.7`, the nearest binary64 (rules R6 and R160, decision D34). -/
def ALAW_A : F64 := 0x4055ECCCCCCCCCCD#64

/-- `RE_A = 1.0 / A` (rule R160). -/
def RE_A : F64 := div64 one64 ALAW_A

/-- `OPL = 1.0 + LN_A` with `LN_A = LN(A)` (rule R160). -/
def OPL (ln : F64 → F64) : F64 := add64 one64 (ln ALAW_A)

/-- `EXP_0 = 1.0 / OPL` (rule R160). -/
def EXP_0 (ln : F64 → F64) : F64 := div64 one64 (OPL ln)

/-- `alawDecode` (rule R163) for a given `LN` and `EXP`. -/
def alawDecodeBy (ln exp : F64 → F64) (b : Byte) : F32 :=
  let x := div64 (f64OfInt (smDecode b 0x55#8)) FS8
  let m := abs64 x
  let out :=
    if lt64 m (EXP_0 ln) then div64 (mul64 m (OPL ln)) ALAW_A
    else div64 (exp (sub64 (mul64 m (OPL ln)) one64)) ALAW_A
  f32OfF64 (mul64 (signum64 x) out)

/-- `alawEncode` (rule R165) for a given `LN`. -/
def alawEncodeBy (ln : F64 → F64) (s : F32) : Byte :=
  let d := f64OfF32 s
  let m := abs64 d
  let x :=
    if lt64 m RE_A then div64 (mul64 ALAW_A m) (OPL ln)
    else div64 (add64 one64 (ln (mul64 ALAW_A m))) (OPL ln)
  smEncode (truncI64 (mul64 (mul64 (signum64 d) x) FS8)) 0x55#8

/-- `alawDecode` of this instance. -/
def alawDecode (b : Byte) : F32 := alawDecodeBy LN EXP b

/-- `alawEncode` of this instance. -/
def alawEncode (s : F32) : Byte := alawEncodeBy LN s

/-- `ALAW.DEC` (rule R163). -/
def execAlawDec (_enc : Enc) (_be : Bool) (st : State) : Result :=
  completeF (alawDecode (compandedByte st.a)) st

/-- `ALAW.ENC` (rule R165). -/
def execAlawEnc (_enc : Enc) (_be : Bool) (st : State) : Result :=
  completeR ((alawEncode st.s).setWidth 64) st

end Sys2Proof.Machine
end

