-- ==== Sys2Proof/Machine/Flags.lean ====
section
/-! DEFINITION. The status of a request: `STATUS` is the only flag-like output of the block (10_state.md rule R28).
This file has the format check that picks the error code of the dispatching operations (47_companding_codec_combined.md
rule R180) in the order of 60_exceptions.md rule R202. -/

namespace Sys2Proof.Machine

open Sys2Proof

/-- The direction of a format check (rule R180). -/
inductive Direction where
  | dec
  | enc
  deriving DecidableEq, Repr

/-- The widths of PcmFloat (rule R6, `FLOAT_WIDTHS`). -/
def floatWidthOk (bits : Nat) : Bool := bits = 32 || bits = 64

/-- Whether a kind's width error applies to a `BITS` in range, and which (rule R180). `LEGACY_FLOAT_ZERO` lifts the
float width error in the decode direction alone (decision D11). -/
def kindError (kind : Kind) (bits : Nat) (dir : Direction) (legacy : Bool) : Option Status :=
  match kind with
  | .pcmSigned => none
  | .pcmUnsigned => none
  | .pcmFloat => if floatWidthOk bits || (dir = .dec && legacy) then none else some .unsupportedFloatWidth
  | .muLaw => if bits = 8 then none else some .unsupportedCompandedWidth
  | .aLaw => if bits = 8 then none else some .unsupportedCompandedWidth

/-- `checkFormat` (rule R180): `BITS` first, then the width of the kind; then `use` has the checked number. It looks
at no data (rule R183). -/
def withFormat (kind : Kind) (dir : Direction) (st : State) (use : Nat → Result) : Result :=
  withBits st fun bits =>
    match kindError kind bits dir st.legacyFloatZero with
    | some e => raise e st
    | none => use bits

end Sys2Proof.Machine
end

