-- ==== Sys2Proof/Machine/FloatReinterpreter.lean ====
section
/-! DEFINITION. FLT.DEC and FLT.ENC (44_ieee_float_reinterpreter.md). -/

namespace Sys2Proof.Machine

open Sys2Proof

/-- `floatDecode` (rule R130) at a width the format check lets through: 32 copies the bits of `raw[31:0]`, 64
narrows, and any other width is reached only with `LEGACY_FLOAT_ZERO` and gives `+0.0`. -/
def floatDecode (raw : Word64) (bits : Nat) : F32 :=
  if bits = 32 then raw.setWidth 32
  else if bits = 64 then f32OfF64 raw
  else 0

/-- `floatEncode` (rule R132) at a width the format check lets through: 32 copies the bits, 64 widens. -/
def floatEncode (s : F32) (bits : Nat) : Word64 :=
  if bits = 32 then s.setWidth 64 else f64OfF32 s

/-- `FLT.DEC` (rule R130). -/
def execFltDec (_enc : Enc) (_be : Bool) (st : State) : Result :=
  withFormat .pcmFloat .dec st fun bits => completeF (floatDecode st.a bits) st

/-- `FLT.ENC` (rule R132). -/
def execFltEnc (_enc : Enc) (_be : Bool) (st : State) : Result :=
  withFormat .pcmFloat .enc st fun bits => completeR (floatEncode st.s bits) st

end Sys2Proof.Machine
end

