-- ==== Sys2Proof/Machine/SignExtender.lean ====
section
/-! DEFINITION. SEXT, TOOB and FROMOB (42_sign_extender.md). -/

namespace Sys2Proof.Machine

open Sys2Proof

/-- `signExtend` (rule R100): the shift up and the arithmetic shift down, for `bits` in 1 to 64. -/
def signExtendWord (raw : Word64) (bits : Nat) : Word64 := (raw <<< (64 - bits)).sshiftRight (64 - bits)

/-- `toOffsetBinary` (rule R102), modulo 2^64. -/
def toOffsetBinary (signed : Word64) (bits : Nat) : Word64 := signed + (1#64 <<< (bits - 1))

/-- `fromOffsetBinary` (rule R104), modulo 2^64 and with no mask. -/
def fromOffsetBinary (raw : Word64) (bits : Nat) : Word64 := raw - (1#64 <<< (bits - 1))

/-- `SEXT` (rule R100). -/
def execSext (_enc : Enc) (_be : Bool) (st : State) : Result :=
  withBits st fun bits => completeR (signExtendWord st.a bits) st

/-- `TOOB` (rule R102). -/
def execToob (_enc : Enc) (_be : Bool) (st : State) : Result :=
  withBits st fun bits => completeR (toOffsetBinary st.a bits) st

/-- `FROMOB` (rule R104). -/
def execFromob (_enc : Enc) (_be : Bool) (st : State) : Result :=
  withBits st fun bits => completeR (fromOffsetBinary st.a bits) st

end Sys2Proof.Machine
end

