-- ==== Sys2Proof/Machine/LinearPcm.lean ====
section
/-! DEFINITION. PCMS.DEC, PCMU.DEC, PCMS.ENC and PCMU.ENC (43_linear_pcm_float_mapper.md). -/

namespace Sys2Proof.Machine

open Sys2Proof

/-- The sample of an integer `k`: the quotient in binary64, then one narrowing (rules R110 and R111). -/
def pcmSample (k : Word64) (bits : Nat) : F32 := f32OfF64 (div64 (f64OfInt k.toInt) (fullScale bits))

/-- `pcmSignedDecode` (rule R110). -/
def pcmSignedDecode (raw : Word64) (bits : Nat) : F32 := pcmSample (signExtendWord raw bits) bits

/-- `pcmUnsignedDecode` (rule R112). -/
def pcmUnsignedDecode (raw : Word64) (bits : Nat) : F32 := pcmSample (fromOffsetBinary raw bits) bits

/-- `pcmSignedEncode` (rule R114): the exact product, truncated toward zero; nothing clips. -/
def pcmSignedEncode (s : F32) (bits : Nat) : Word64 := truncI64 (mul64 (f64OfF32 s) (fullScale bits))

/-- `pcmUnsignedEncode` (rule R116). -/
def pcmUnsignedEncode (s : F32) (bits : Nat) : Word64 :=
  toOffsetBinary (truncI64 (mul64 (f64OfF32 s) (fullScale bits))) bits

/-- `PCMS.DEC` (rule R110). -/
def execPcmsDec (_enc : Enc) (_be : Bool) (st : State) : Result :=
  withBits st fun bits => completeF (pcmSignedDecode st.a bits) st

/-- `PCMU.DEC` (rule R112). -/
def execPcmuDec (_enc : Enc) (_be : Bool) (st : State) : Result :=
  withBits st fun bits => completeF (pcmUnsignedDecode st.a bits) st

/-- `PCMS.ENC` (rule R114). -/
def execPcmsEnc (_enc : Enc) (_be : Bool) (st : State) : Result :=
  withBits st fun bits => completeR (pcmSignedEncode st.s bits) st

/-- `PCMU.ENC` (rule R116). -/
def execPcmuEnc (_enc : Enc) (_be : Bool) (st : State) : Result :=
  withBits st fun bits => completeR (pcmUnsignedEncode st.s bits) st

end Sys2Proof.Machine
end

