-- ==== Sys2Proof/Machine/WordCodec.lean ====
section
/-! DEFINITION. RDWORD and WRWORD (41_word_codec.md). -/

namespace Sys2Proof.Machine

open Sys2Proof

/-- The two checks of a word access, in the order of rule R202: `WIDTH`, then the capacity; `OFFSET + WIDTH` never
wraps (rule R8). -/
def withWord (st : State) (use : (off w : Nat) → Result) : Result :=
  withBytes st fun bcap =>
    if widthInRange st.width then
      if bcap < st.offset.toNat + st.width.toNat then raise .bufferTooShort st
      else use st.offset.toNat st.width.toNat
    else raise .invalidWidth st

/-- `RDWORD` (rule R90). -/
def execRdword (_enc : Enc) (be : Bool) (st : State) : Result :=
  withWord st fun off w => completeR (readWord st.bytes off w be) st

/-- `WRWORD` (rule R92). -/
def execWrword (_enc : Enc) (be : Bool) (st : State) : Result :=
  withWord st fun off w => completeBytes (writeWord st.bytes off st.a w be) st

end Sys2Proof.Machine
end

