-- ==== Sys2Proof/Machine/Combined.lean ====
section
/-! DEFINITION. DECODE, ENCODE, UNPACK and PACK (47_companding_codec_combined.md). -/

namespace Sys2Proof.Machine

open Sys2Proof

/-- `decodeSample` (rule R180). -/
def decodeSample (kind : Kind) (raw : Word64) (bits : Nat) : F32 :=
  match kind with
  | .pcmSigned => pcmSignedDecode raw bits
  | .pcmUnsigned => pcmUnsignedDecode raw bits
  | .pcmFloat => floatDecode raw bits
  | .muLaw => ulawDecode (compandedByte raw)
  | .aLaw => alawDecode (compandedByte raw)

/-- `encodeSample` (rule R182). -/
def encodeSample (kind : Kind) (s : F32) (bits : Nat) : Word64 :=
  match kind with
  | .pcmSigned => pcmSignedEncode s bits
  | .pcmUnsigned => pcmUnsignedEncode s bits
  | .pcmFloat => floatEncode s bits
  | .muLaw => (ulawEncode s).setWidth 64
  | .aLaw => (alawEncode s).setWidth 64

/-- The SAMPLES buffer after blocks 0 to `n - 1` of BYTES are decoded into it (rule R184). The blocks are read from
the BYTES of the start of the request (rule R51). -/
def unpackBlocks (kind : Kind) (be : Bool) (bits : Nat) (bytes : Buffer 8) (samples : Buffer 32) : Nat → Buffer 32
  | 0 => samples
  | j + 1 =>
    (unpackBlocks kind be bits bytes samples j).set j
      (decodeSample kind (readWord bytes (j * bytesPerSample bits) (bytesPerSample bits) be) bits)

/-- The BYTES buffer after samples 0 to `n - 1` are encoded into it (rule R186). -/
def packBlocks (kind : Kind) (be : Bool) (bits : Nat) (samples : Buffer 32) (bytes : Buffer 8) : Nat → Buffer 8
  | 0 => bytes
  | i + 1 =>
    writeWord (packBlocks kind be bits samples bytes i) (i * bytesPerSample bits)
      (encodeSample kind (samples.get i) bits) (bytesPerSample bits) be

/-- `DECODE` (rule R180). -/
def execDecode (enc : Enc) (_be : Bool) (st : State) : Result :=
  withKind enc st fun kind =>
    withFormat kind .dec st fun bits => completeF (decodeSample kind st.a bits) st

/-- `ENCODE` (rule R182). -/
def execEncode (enc : Enc) (_be : Bool) (st : State) : Result :=
  withKind enc st fun kind =>
    withFormat kind .enc st fun bits => completeR (encodeSample kind st.s bits) st

/-- `UNPACK` (rule R184): `n` blocks start below `LEN`, the last one read whole; the capacities are compared in
natural numbers (rule R8). -/
def execUnpack (enc : Enc) (be : Bool) (st : State) : Result :=
  withKind enc st fun kind =>
    withBytes st fun bcap => withSamples st fun scap =>
      withFormat kind .dec st fun bits =>
        let w := bytesPerSample bits
        let n := ceilDiv st.len.toNat w
        if bcap < n * w then raise .bufferTooShort st
        else if scap < n then raise .bufferTooShort st
        else completeSamplesN (unpackBlocks kind be bits st.bytes st.samples n) n st

/-- `PACK` (rule R186). -/
def execPack (enc : Enc) (be : Bool) (st : State) : Result :=
  withKind enc st fun kind =>
    withBytes st fun bcap => withSamples st fun scap =>
      withFormat kind .enc st fun bits =>
        let w := bytesPerSample bits
        let n := st.len.toNat
        if scap < n then raise .bufferTooShort st
        else if bcap < n * w then raise .bufferTooShort st
        else completeBytesN (packBlocks kind be bits st.samples st.bytes n) (n * w) st

end Sys2Proof.Machine
end

