-- ==== Sys2Proof/Machine/FormatDescriptor.lean ====
section
/-! DEFINITION. BPS and FSCALE (40_format_descriptor.md). -/

namespace Sys2Proof.Machine

open Sys2Proof

/-- `BPS` (rule R81). -/
def execBps (_enc : Enc) (_be : Bool) (st : State) : Result :=
  withBits st fun bits => completeR (BitVec.ofNat 64 (bytesPerSample bits)) st

/-- `FSCALE` (rule R82). -/
def execFscale (_enc : Enc) (_be : Bool) (st : State) : Result :=
  withBits st fun bits => completeR (fullScale bits) st

end Sys2Proof.Machine
end

