-- ==== Sys2Proof/Machine/Dispatch.lean ====
section
/-! DEFINITION. One arm for each operation (30_encoding.md rule R61): each calls its meaning. -/

namespace Sys2Proof.Machine

open Sys2Proof

/-- What an operation does to the state (30_encoding.md rule R61). -/
def exec (i : Instr) (s : State) : Host.Outcome State Fault Refusal :=
  match i with
  | .bps enc be => Sys2Proof.Machine.execBps enc be s
  | .fscale enc be => Sys2Proof.Machine.execFscale enc be s
  | .rdword enc be => Sys2Proof.Machine.execRdword enc be s
  | .wrword enc be => Sys2Proof.Machine.execWrword enc be s
  | .sext enc be => Sys2Proof.Machine.execSext enc be s
  | .toob enc be => Sys2Proof.Machine.execToob enc be s
  | .fromob enc be => Sys2Proof.Machine.execFromob enc be s
  | .pcmsDec enc be => Sys2Proof.Machine.execPcmsDec enc be s
  | .pcmuDec enc be => Sys2Proof.Machine.execPcmuDec enc be s
  | .pcmsEnc enc be => Sys2Proof.Machine.execPcmsEnc enc be s
  | .pcmuEnc enc be => Sys2Proof.Machine.execPcmuEnc enc be s
  | .fltDec enc be => Sys2Proof.Machine.execFltDec enc be s
  | .fltEnc enc be => Sys2Proof.Machine.execFltEnc enc be s
  | .ulawDec enc be => Sys2Proof.Machine.execUlawDec enc be s
  | .ulawEnc enc be => Sys2Proof.Machine.execUlawEnc enc be s
  | .alawDec enc be => Sys2Proof.Machine.execAlawDec enc be s
  | .alawEnc enc be => Sys2Proof.Machine.execAlawEnc enc be s
  | .decode enc be => Sys2Proof.Machine.execDecode enc be s
  | .encode enc be => Sys2Proof.Machine.execEncode enc be s
  | .unpack enc be => Sys2Proof.Machine.execUnpack enc be s
  | .pack enc be => Sys2Proof.Machine.execPack enc be s

end Sys2Proof.Machine
end

