-- ==== Sys2Proof/Machine/HostActions.lean ====
section
/-! DEFINITION. One action of the host (00_scope.md rule R19): a request, which the block completes in one atomic
step (20_memory.md rules R51 and R52), a reset between requests or inside one (70_reset_and_hazards.md rules R220
and R221), and what the host does with the ports and buffers between requests (rules R25 to R27, R223). -/

namespace Sys2Proof.Machine

open Sys2Proof

/-- A request (rules R60 and R65): an illegal command word completes with `IllegalCommand` before any other check
(rule R202); a legal one runs its operation. -/
def runRequest (st : State) : Result :=
  match Sys2Proof.decode st.cmd with
  | .legal i => exec i st
  | .illegal _ => raise .illegalCommand st

/-- The output region in BYTES of a request, from a first index to one past the last (rule R221): for WRWORD
`OFFSET .. OFFSET+WIDTH-1`, for PACK `0 .. LEN*bps-1`, whatever status the request would have ended with. A part past
`BCAP` is no part of the buffer (rule R40). Where `BITS` is out of range `bps` has no meaning (rule R80) and the region
of a PACK is the whole buffer (log entry 6). -/
def bytesRegion (i : Instr) (st : State) : Nat × Nat :=
  match i with
  | .wrword _ _ => (st.offset.toNat, min (st.offset.toNat + st.width.toNat) st.bcap.val)
  | .pack _ _ =>
    (0, if bitsInRange st.bits then min (st.len.toNat * bytesPerSample st.bits.toNat) st.bcap.val else st.bcap.val)
  | _ => (0, 0)

/-- The output region in SAMPLES of a request, from index 0 to one past the last (rule R221): for UNPACK `0 .. n-1`, with
the same bounds as in `bytesRegion`. -/
def samplesRegion (i : Instr) (st : State) : Nat :=
  match i with
  | .unpack _ _ =>
    if bitsInRange st.bits then min (ceilDiv st.len.toNat (bytesPerSample st.bits.toNat)) st.scap.val else st.scap.val
  | _ => 0

/-- What a request cut by reset leaves in the buffers (rule R221): any value in each element of its output region,
nothing changed outside it. -/
def scramble (i : Instr) (st : State) : State :=
  let region := bytesRegion i st
  { st with
    bytes := st.bytes.fill region.1 (Config.resetByte st.draws) (region.2 - region.1)
    samples := st.samples.fill 0 (Config.resetSample st.draws) (samplesRegion i st) }

/-- A request that reset cuts before it completes (rule R221): no result port carries a value, and each draw of a
free value is used once. An illegal command word names no operation and so has no output region (log entry 6). A request
outside the model stays outside it. -/
def runCutRequest (st : State) : Result :=
  match Sys2Proof.decode st.cmd with
  | .illegal _ => .next st.resetBlock
  | .legal i =>
    match exec i st with
    | .next _ => .next { (scramble i st).resetBlock with draws := st.draws + 1 }
    | .fault why => .fault why
    | .refused why => .refused why

/-- One action of the host. What an action does not name keeps its value: a request port and a capacity until they are
driven or stated again (log entry 20), a result port until the next completion or reset (log entry 17). -/
def runAction (act : HostAction) (st : State) : Result :=
  match act with
  | .drive port v => .next (st.drivePort port v)
  | .copy source target => readPort source st fun v => st.drivePort target v
  | .read port => readPort port st fun _ => st
  | .supplyBytes contents => .next { st with bytes := Buffer.ofList contents }
  | .supplySamples contents => .next { st with samples := Buffer.ofList contents }
  | .stateBcap capacity => .next { st with bcap := capacity }
  | .stateScap capacity => .next { st with scap := capacity }
  | .request => runRequest st
  | .reset => .next st.resetBlock
  | .requestCutByReset => runCutRequest st

end Sys2Proof.Machine
end

