-- ==== Sys2Proof/Machine/Step.lean ====
section
/-! DEFINITION. One step of the machine: the next action of the host. -/

namespace Sys2Proof.Machine

open Sys2Proof

/-- The next pending action of the host is taken and done; with none pending the machine stands still, for the block
has no agent of its own (00_scope.md rule R19). -/
def step (st : State) : Host.Outcome State Fault Refusal :=
  match st.pending with
  | [] => .next st
  | act :: rest => runAction act { st with pending := rest }

/-- The state in which the host has driven the command word `w` and issues a request next: the block fetches no
instruction (10_state.md rule R22), so its next instruction is the word on the port `CMD`. -/
def State.withFetchWord (s : State) (nbits w : Nat) : State :=
  { s with cmd := BitVec.ofNat 32 (w % 2 ^ nbits), pending := .request :: s.pending }

end Sys2Proof.Machine
end

