-- ==== Sys2Proof/Machine/Assembler.lean ====
section
/-! DEFINITION. The one-line form of a request (30_encoding.md rules R72 and R73), after its characters have been read
(log entry 19): what the host drives and issues for such a line. -/

namespace Sys2Proof.Machine

open Sys2Proof

/-- `name` of rule R72. -/
inductive OperandName where
  | bits
  | width
  | offset
  | len
  | a
  | s
  deriving DecidableEq, Repr

/-- `value` of rule R72: the decimal `± digits / 10 ^ scale`, or a number written in hexadecimal. -/
inductive OperandValue where
  | decimal (negative : Bool) (digits scale : Nat)
  | hex (v : Nat)
  deriving DecidableEq, Repr

/-- `request` of rule R72: the operation by its `OP` code, `order` (`true` for `.be`), `kind` and the operands. -/
structure RequestLine where
  op : BitVec 5
  order : Option Bool
  kind : Option Kind
  operands : List (OperandName × OperandValue)
  deriving DecidableEq, Repr

/-- The ports an operation reads (rule R66). -/
def operandsOf : Instr → List OperandName
  | .bps _ _ | .fscale _ _ => [.bits]
  | .rdword _ _ => [.width, .offset]
  | .wrword _ _ => [.width, .offset, .a]
  | .sext _ _ | .toob _ _ | .fromob _ _ | .pcmsDec _ _ | .pcmuDec _ _ | .fltDec _ _ | .decode _ _ => [.bits, .a]
  | .pcmsEnc _ _ | .pcmuEnc _ _ | .fltEnc _ _ | .encode _ _ => [.bits, .s]
  | .ulawDec _ _ | .alawDec _ _ => [.a]
  | .ulawEnc _ _ | .alawEnc _ _ => [.s]
  | .unpack _ _ | .pack _ _ => [.bits, .len]

/-- The port of an operand. -/
def OperandName.port : OperandName → InputPort
  | .bits => .bits
  | .width => .width
  | .offset => .offset
  | .len => .len
  | .a => .a
  | .s => .s

/-- The width of the port of an operand (rule R25). -/
def OperandName.portWidth : OperandName → Nat
  | .a => 64
  | .bits | .width | .offset | .len | .s => 32

/-- The binary32 nearest to a decimal, ties to even (rule R72). The quotient is taken with far more bits than a
significand has, and one sticky bit below it. -/
def decimal32 (negative : Bool) (digits scale : Nat) : F32 :=
  let shift := 4 * scale + 160
  let num := digits * 2 ^ shift
  let sticky := if num % 10 ^ scale = 0 then 0 else 1
  pack32 negative (binary32.roundMag (2 * (num / 10 ^ scale) + sticky) (-(shift + 1 : Nat)))

/-- The bits an operand puts on its port; none for a number the port cannot hold. -/
def OperandValue.bitsFor (name : OperandName) : OperandValue → Option Word64
  | .hex v => if v < 2 ^ name.portWidth then some (BitVec.ofNat 64 v) else none
  | .decimal negative digits scale =>
    if name = .s then some ((decimal32 negative digits scale).setWidth 64)
    else if scale ≠ 0 then none
    else if negative then
      if digits ≤ 2 ^ (name.portWidth - 1) then some (BitVec.ofInt 64 (-(digits : Int))) else none
    else if digits < 2 ^ name.portWidth then some (BitVec.ofNat 64 digits) else none

/-- The actions that drive the written operands, in the order of writing. -/
def driveOperands : List (OperandName × OperandValue) → Option (List HostAction)
  | [] => some []
  | (name, value) :: rest =>
    match value.bitsFor name, driveOperands rest with
    | some v, some acts => some (.drive name.port v :: acts)
    | _, _ => none

/-- Assembling a line: an absent order is little-endian and an absent kind is `ENC = 0`; the operands written are
exactly those the operation reads, each once (rule R72); the command word is that of rule R73. -/
def assemble (line : RequestLine) : Option (List HostAction) :=
  match Instr.ofOp line.op.toNat (.of (line.kind.getD .pcmSigned)) (line.order.getD false) with
  | none => none
  | some i =>
    let names := line.operands.map Prod.fst
    if names.length = (operandsOf i).length ∧ ∀ name ∈ operandsOf i, name ∈ names then
      match driveOperands line.operands with
      | none => none
      | some acts => some (.drive .cmd ((encode i).setWidth 64) :: acts ++ [.request])
    else none

end Sys2Proof.Machine
end

