-- ==== Sys2Proof/Safety.lean ====
section
/-! DEFINITION. What claims about the machine speak of: its invariant, the host's duty about capacities
(70_reset_and_hazards.md rule R223), the table of what each operation reads and writes (30_encoding.md rule R66), and
the table of the error codes with their order (60_exceptions.md rules R200 and R202). The tables are written from the
spec's tables, not from the meanings. -/

namespace Sys2Proof.Machine

open Sys2Proof

/-- The result ports hold what one completion, or reset, leaves there (10_state.md rules R27 and R30): without a
status nothing; with an error only the status; with `OK` a value on one port at most. -/
def State.portsWf (st : State) : Prop :=
  match st.status with
  | none => st.r = none ∧ st.f = none ∧ st.n = none
  | some .ok => (st.f = none ∧ st.n = none) ∨ (st.r = none ∧ st.n = none) ∨ (st.r = none ∧ st.f = none)
  | some _ => st.r = none ∧ st.f = none ∧ st.n = none

/-- The invariant: both buffers in canonical form and the result ports as a completion leaves them. -/
def State.Inv (st : State) : Prop := st.bytes.wf ∧ st.samples.wf ∧ st.portsWf

/-- The host states both capacities truly (rule R223): neither is larger than its buffer. -/
def State.capacitiesTrue (st : State) : Prop := st.bcap.val ≤ st.bytes.size ∧ st.scap.val ≤ st.samples.size

/-- `1 <= BITS <= 64` (rule R67). -/
def State.bitsOk (st : State) : Prop := 1 ≤ st.bits.toInt ∧ st.bits.toInt ≤ 64

/-! ### The table of rule R66 -/

/-- The operations that read `BITS`. -/
def readsBits : Instr → Bool
  | .bps _ _ | .fscale _ _ | .sext _ _ | .toob _ _ | .fromob _ _ | .pcmsDec _ _ | .pcmuDec _ _ | .pcmsEnc _ _
  | .pcmuEnc _ _ | .fltDec _ _ | .fltEnc _ _ | .decode _ _ | .encode _ _ | .unpack _ _ | .pack _ _ => true
  | .rdword _ _ | .wrword _ _ | .ulawDec _ _ | .ulawEnc _ _ | .alawDec _ _ | .alawEnc _ _ => false

/-- The operations that read `BE`. -/
def readsBe : Instr → Bool
  | .rdword _ _ | .wrword _ _ | .unpack _ _ | .pack _ _ => true
  | _ => false

/-- The operations that read `WIDTH` and `OFFSET`. -/
def readsWidth : Instr → Bool
  | .rdword _ _ | .wrword _ _ => true
  | _ => false

/-- The operations that read `LEN`. -/
def readsLen : Instr → Bool
  | .unpack _ _ | .pack _ _ => true
  | _ => false

/-- The operations that read `A`. -/
def readsA : Instr → Bool
  | .wrword _ _ | .sext _ _ | .toob _ _ | .fromob _ _ | .pcmsDec _ _ | .pcmuDec _ _ | .fltDec _ _ | .ulawDec _ _
  | .alawDec _ _ | .decode _ _ => true
  | _ => false

/-- The operations that read `S`. -/
def readsS : Instr → Bool
  | .pcmsEnc _ _ | .pcmuEnc _ _ | .fltEnc _ _ | .ulawEnc _ _ | .alawEnc _ _ | .encode _ _ => true
  | _ => false

/-- The operations that reach BYTES (rule R40). -/
def reachesBytes : Instr → Bool
  | .rdword _ _ | .wrword _ _ | .unpack _ _ | .pack _ _ => true
  | _ => false

/-- The operations that reach SAMPLES (rule R41). -/
def reachesSamples : Instr → Bool
  | .unpack _ _ | .pack _ _ => true
  | _ => false

/-- The operations that read BYTES. -/
def readsBytes : Instr → Bool
  | .rdword _ _ | .unpack _ _ => true
  | _ => false

/-- The operation that reads SAMPLES. -/
def readsSamples : Instr → Bool
  | .pack _ _ => true
  | _ => false

/-- The operations that write BYTES. -/
def writesBytes : Instr → Bool
  | .wrword _ _ | .pack _ _ => true
  | _ => false

/-- The operation that writes SAMPLES. -/
def writesSamples : Instr → Bool
  | .unpack _ _ => true
  | _ => false

/-- The operations that write `R`. -/
def writesR : Instr → Bool
  | .bps _ _ | .fscale _ _ | .rdword _ _ | .sext _ _ | .toob _ _ | .fromob _ _ | .pcmsEnc _ _ | .pcmuEnc _ _
  | .fltEnc _ _ | .ulawEnc _ _ | .alawEnc _ _ | .encode _ _ => true
  | _ => false

/-- The operations that write `F`. -/
def writesF : Instr → Bool
  | .pcmsDec _ _ | .pcmuDec _ _ | .fltDec _ _ | .ulawDec _ _ | .alawDec _ _ | .decode _ _ => true
  | _ => false

/-- The operations that write `N`. -/
def writesN : Instr → Bool
  | .unpack _ _ | .pack _ _ => true
  | _ => false

/-- Two requests agree on everything their operation reads (rule R66): the operation, the fields and ports it reads,
the capacity and size of a buffer it reaches, the elements below the capacity of a buffer it reads, and the parameter. -/
def AgreeOnInputs (i j : Instr) (s t : State) : Prop :=
  i.fields.1 = j.fields.1 ∧ i.readEnc = j.readEnc ∧ (readsBe i → i.fields.2.2 = j.fields.2.2) ∧
  (readsBits i → s.bits = t.bits) ∧ (readsWidth i → s.width = t.width ∧ s.offset = t.offset) ∧
  (readsLen i → s.len = t.len) ∧ (readsA i → s.a = t.a) ∧ (readsS i → s.s = t.s) ∧
  (reachesBytes i → s.bcap = t.bcap ∧ s.bytes.size = t.bytes.size) ∧
  (reachesSamples i → s.scap = t.scap ∧ s.samples.size = t.samples.size) ∧
  (readsBytes i → ∀ k, k < s.bcap.val → s.bytes.get k = t.bytes.get k) ∧
  (readsSamples i → ∀ k, k < s.scap.val → s.samples.get k = t.samples.get k) ∧
  s.legacyFloatZero = t.legacyFloatZero

/-! ### The table of rule R181 -/

/-- The single-unit operation that `DECODE` of a kind equals. -/
def unitDecode (k : Kind) (enc : Enc) (be : Bool) : Instr :=
  match k with
  | .pcmSigned => .pcmsDec enc be
  | .pcmUnsigned => .pcmuDec enc be
  | .pcmFloat => .fltDec enc be
  | .muLaw => .ulawDec enc be
  | .aLaw => .alawDec enc be

/-- The single-unit operation that `ENCODE` of a kind equals. -/
def unitEncode (k : Kind) (enc : Enc) (be : Bool) : Instr :=
  match k with
  | .pcmSigned => .pcmsEnc enc be
  | .pcmUnsigned => .pcmuEnc enc be
  | .pcmFloat => .fltEnc enc be
  | .muLaw => .ulawEnc enc be
  | .aLaw => .alawEnc enc be

/-- The host states the capacities of the buffers that an operation reaches truly (rule R223). -/
def ReachedCapacitiesTrue (i : Instr) (st : State) : Prop :=
  (reachesBytes i = true → st.bcap.val ≤ st.bytes.size) ∧ (reachesSamples i = true → st.scap.val ≤ st.samples.size)

/-! ### The output regions of rule R221 -/

/-- Byte `k` of BYTES is in the output region of a request: below the capacity, and for WRWORD in
`OFFSET .. OFFSET+WIDTH-1`, for PACK in `0 .. LEN*bps-1`. Where `BITS` is out of range `bps` has no meaning, and every
byte of the buffer is in the region of a PACK (log entry 6). -/
def inBytesRegion (i : Instr) (st : State) (k : Nat) : Prop :=
  k < st.bcap.val ∧
    match i with
    | .wrword _ _ => st.offset.toNat ≤ k ∧ k < st.offset.toNat + st.width.toNat
    | .pack _ _ => st.bitsOk → k < st.len.toNat * ((st.bits.toNat + 7) / 8)
    | _ => False

/-- Element `k` of SAMPLES is in the output region of a request: below the capacity, and for UNPACK the sample of a block
that starts below `LEN`; with `BITS` out of range as for `inBytesRegion`. -/
def inSamplesRegion (i : Instr) (st : State) (k : Nat) : Prop :=
  k < st.scap.val ∧
    match i with
    | .unpack _ _ => st.bitsOk → k * ((st.bits.toNat + 7) / 8) < st.len.toNat
    | _ => False

/-! ### The tables of rules R200 and R202 -/

/-- The order of the checks (rule R202); a request to which no error applies completes with `OK`. -/
def checkOrder : List Status :=
  [.illegalCommand, .invalidFormat, .invalidWidth, .unsupportedFloatWidth, .unsupportedCompandedWidth,
    .bufferTooShort, .ok]

/-- Whether the cause of a status code (rule R200) holds of a request. -/
def causeHolds (i : Instr) (st : State) : Status → Prop
  | .ok => True
  | .illegalCommand => i.wellFormed = false
  | .invalidFormat => readsBits i = true ∧ ¬ (1 ≤ st.bits.toInt ∧ st.bits.toInt ≤ 64)
  | .invalidWidth => readsWidth i = true ∧ ¬ (1 ≤ st.width.toNat ∧ st.width.toNat ≤ 8)
  | .unsupportedFloatWidth =>
    st.bits ≠ 32 ∧ st.bits ≠ 64 ∧
      match i with
      | .fltDec _ _ => st.legacyFloatZero = false
      | .fltEnc _ _ => True
      | .decode enc _ | .unpack enc _ => enc = .of .pcmFloat ∧ st.legacyFloatZero = false
      | .encode enc _ | .pack enc _ => enc = .of .pcmFloat
      | _ => False
  | .unsupportedCompandedWidth =>
    st.bits ≠ 8 ∧ (i.readEnc = some (.of .muLaw) ∨ i.readEnc = some (.of .aLaw))
  | .bufferTooShort =>
    match i with
    | .rdword _ _ | .wrword _ _ => st.bcap.val < st.offset.toNat + st.width.toNat
    | .unpack _ _ =>
      let w := (st.bits.toNat + 7) / 8
      let n := (st.len.toNat + w - 1) / w
      st.bcap.val < n * w ∨ st.scap.val < n
    | .pack _ _ => st.scap.val < st.len.toNat ∨ st.bcap.val < st.len.toNat * ((st.bits.toNat + 7) / 8)
    | _ => False

/-- `e` is the first code of the order whose cause holds (rule R202). -/
def FirstStatus (i : Instr) (st : State) (e : Status) : Prop :=
  ∃ before after, checkOrder = before ++ e :: after ∧ causeHolds i st e ∧ ∀ d ∈ before, ¬ causeHolds i st d

/-! ### Values -/

/-- A finite binary64. -/
def Finite64 (x : F64) : Prop := isNaN64 x = false ∧ isInf64 x = false

/-- A finite binary32. -/
def Finite32 (s : F32) : Prop := isNaN32 s = false ∧ isInf32 s = false

/-- A magnitude encoding `r`, limited to an infinity, is the exact value `num / den` rounded to nearest, ties to even
(rule R9): in the format without its upper limit no encoding is nearer, and one that is as near leaves `r` even. -/
def RoundsTo (fmt : FloatFormat) (num den mag : Nat) : Prop :=
  ∃ r, mag = min r fmt.infMag ∧
    ∀ p, |(fmt.magUnits r * den : Int) - num| ≤ |(fmt.magUnits p * den : Int) - num| ∧
      (|(fmt.magUnits p * den : Int) - num| = |(fmt.magUnits r * den : Int) - num| → p ≠ r → r % 2 = 0)

/-- `k` is exactly representable in binary32 (rule R110): at most 24 significant bits. -/
def Representable32 (k : Int) : Prop := ∃ m j : Nat, m ≤ 2 ^ 24 ∧ k.natAbs = m * 2 ^ j

/-- The low `bits` bits of a word read as two's complement, by the bit test of rule R101. -/
def signedValue (raw : Word64) (bits : Nat) : Int :=
  if raw.getLsbD (bits - 1) then (raw.toNat % 2 ^ bits : Nat) - (2 ^ bits : Int) else (raw.toNat % 2 ^ bits : Nat)

/-- `raw - 2^(bits-1)` modulo 2^64, read signed (rule R104). -/
def offsetValue (raw : Word64) (bits : Nat) : Int := ((raw.toNat : Int) - 2 ^ (bits - 1)).bmod (2 ^ 64)

/-- The integer a linear encode forms (rules R13 and R113): the exact product with full scale, toward zero, saturating;
0 for a NaN. -/
def encodedInteger (s : F32) (bits : Nat) : Int :=
  if isNaN32 s then 0
  else if isInf32 s then (if sign32 s then -(2 ^ 63) else 2 ^ 63 - 1)
  else max (-(2 ^ 63)) (min (2 ^ 63 - 1) ((units32 s * 2 ^ (bits - 1)).tdiv (2 ^ 149)))

end Sys2Proof.Machine
end

