-- ==== Sys2Proof/Certificates/Slice0/Obligations.lean ====
section
/-! DEFINITION. The statements about the model, from the numbered rules of spec/. Each docstring names the rule it
formalises; a clause that is the model's own choice names its log entry. -/

open Sys2Proof Sys2Proof.Machine

/-! ### Encoding (30_encoding.md) -/

/-- Rules R61 to R63, R73: decoding an encoded well-formed instruction gives it back, with both fields. -/
def Obligations.DecodeOfEncodeIsTheInstruction : Prop :=
  ∀ i : Instr, i.wellFormed = true → decode (encode i) = .legal i

/-- Rules R60 to R65: a legal word is the encoding of the well-formed instruction it decodes to. No bit is dropped. -/
def Obligations.EncodeOfDecodedWordIsTheWord : Prop :=
  ∀ (cmd : Word32) (i : Instr), decode cmd = .legal i → encode i = cmd ∧ i.wellFormed = true

/-- Rule R65, whole: the words that are illegal, what a legal word decodes to, and that an illegal word completes the
request with `IllegalCommand`. -/
def Obligations.DecodeIsTotalAndRejectsExactlyTheReservedWords : Prop :=
  ∀ cmd : Word32,
    ((cmd.toNat / 2 ^ 9 ≠ 0 ∨ 0x15 ≤ cmd.toNat % 2 ^ 5 ∨ (0x11 ≤ cmd.toNat % 2 ^ 5 ∧ 5 ≤ cmd.toNat / 2 ^ 5 % 2 ^ 3)) →
      (∃ why, decode cmd = .illegal why) ∧
        ∀ (st : State) (rest : List HostAction), st.cmd = cmd → st.pending = .request :: rest →
          step st = .next { st with pending := rest, status := some .illegalCommand, r := none, f := none, n := none }) ∧
    (¬ (cmd.toNat / 2 ^ 9 ≠ 0 ∨ 0x15 ≤ cmd.toNat % 2 ^ 5 ∨ (0x11 ≤ cmd.toNat % 2 ^ 5 ∧ 5 ≤ cmd.toNat / 2 ^ 5 % 2 ^ 3)) →
      ∃ i, decode cmd = .legal i ∧ i.fields.1.toNat = cmd.toNat % 2 ^ 5 ∧
        i.fields.2.1.toBits.toNat = cmd.toNat / 2 ^ 5 % 2 ^ 3 ∧ (i.fields.2.2 = true ↔ cmd.toNat / 2 ^ 8 % 2 = 1))

/-- Rules R72 and R73: the command words that the spec writes out, and the lines that assemble to them. -/
def Obligations.CommandWordsOfTheSpecDecode : Prop :=
  decode 0x00000013#32 = .legal (.unpack (.of .pcmSigned) false) ∧
  decode 0x00000174#32 = .legal (.pack (.of .muLaw) true) ∧
  decode 0x00000102#32 = .legal (.rdword (.of .pcmSigned) true) ∧
  decode 0x00000091#32 = .legal (.decode (.of .aLaw) false) ∧
  assemble ⟨0x13, some false, some .pcmSigned, [(.bits, .decimal false 16 0), (.len, .decimal false 6 0)]⟩ =
    some [.drive .cmd 0x00000013, .drive .bits 16, .drive .len 6, .request] ∧
  assemble ⟨0x14, some true, some .muLaw, [(.bits, .decimal false 8 0), (.len, .decimal false 3 0)]⟩ =
    some [.drive .cmd 0x00000174, .drive .bits 8, .drive .len 3, .request] ∧
  assemble ⟨0x02, some true, none, [(.width, .decimal false 3 0), (.offset, .decimal false 1 0)]⟩ =
    some [.drive .cmd 0x00000102, .drive .width 3, .drive .offset 1, .request] ∧
  assemble ⟨0x11, none, some .aLaw, [(.bits, .decimal false 8 0), (.a, .hex 0x55)]⟩ =
    some [.drive .cmd 0x00000091, .drive .bits 8, .drive .a 0x55, .request]

/-! ### The step and the host (00_scope.md R19, 10_state.md, 70_reset_and_hazards.md) -/

/-- Rules R19 and R60: a request whose command word decodes to `i` runs `i` on the state with the request taken off
the host's list. -/
def Obligations.StepRunsTheDecodedInstruction : Prop :=
  ∀ (st : State) (rest : List HostAction) (i : Instr), st.pending = .request :: rest → decode st.cmd = .legal i →
    step st = exec i { st with pending := rest }

/-- Rules R30 and R220: a reset between requests takes the values off the result ports and changes nothing else. -/
def Obligations.ResetClearsTheResultPortsOnly : Prop :=
  ∀ (st : State) (rest : List HostAction), st.pending = .reset :: rest →
    step st = .next { st with pending := rest, status := none, r := none, f := none, n := none }

/-- Rules R25 to R27: reading or copying a result port without a value is a fault; a drive changes the request port that
it names, and stating a capacity changes that capacity. The rest is the model's own choice: that a read of a port with a
value changes nothing, and that a drive takes no value off a result port (log entry 17, DEDUCED); that a copy is a drive
of the value, with zeros above it, with low bits taken and with the numeric code for `STATUS` (log entry 8); that the
other ports and capacities keep what they carry (log entry 20). -/
def Obligations.ReadingAPortWithoutValueFaults : Prop :=
  ∀ (st : State) (rest : List HostAction),
    (∀ port : ResultPort, st.pending = .read port :: rest →
      (st.portValue port = none → step st = .fault (.portWithoutValue port)) ∧
      (st.portValue port ≠ none → step st = .next { st with pending := rest })) ∧
    (∀ (source : ResultPort) (target : InputPort), st.pending = .copy source target :: rest →
      (st.portValue source = none → step st = .fault (.portWithoutValue source)) ∧
      ∀ v, st.portValue source = some v → step st = step { st with pending := .drive target v :: rest }) ∧
    (st.portValue .status = st.status.map (fun e => e.code.setWidth 64) ∧ st.portValue .r = st.r ∧
      st.portValue .f = st.f.map (fun v => v.setWidth 64) ∧ st.portValue .n = st.n) ∧
    (∀ v : Word64,
      (st.pending = .drive .cmd v :: rest → step st = .next { st with pending := rest, cmd := v.setWidth 32 }) ∧
      (st.pending = .drive .bits v :: rest → step st = .next { st with pending := rest, bits := v.setWidth 32 }) ∧
      (st.pending = .drive .width v :: rest → step st = .next { st with pending := rest, width := v.setWidth 32 }) ∧
      (st.pending = .drive .offset v :: rest → step st = .next { st with pending := rest, offset := v.setWidth 32 }) ∧
      (st.pending = .drive .len v :: rest → step st = .next { st with pending := rest, len := v.setWidth 32 }) ∧
      (st.pending = .drive .a v :: rest → step st = .next { st with pending := rest, a := v }) ∧
      (st.pending = .drive .s v :: rest → step st = .next { st with pending := rest, s := v.setWidth 32 })) ∧
    (∀ c : Capacity,
      (st.pending = .stateBcap c :: rest → step st = .next { st with pending := rest, bcap := c }) ∧
      (st.pending = .stateScap c :: rest → step st = .next { st with pending := rest, scap := c }))

/-- Rules R40, R41 and R223: a buffer the host supplies has the length and the elements supplied. The model's own
choice: the canonical form, in which an index past the end reads as 0 (log entry 7, DESIGN CHOICE), and that the rest of
the machine stays as it was, the result ports with their values (log entry 17, DEDUCED) and the request ports and
capacities (log entry 20, DESIGN CHOICE) among it. -/
def Obligations.SuppliedBuffersHoldTheirContents : Prop :=
  ∀ (st : State) (rest : List HostAction),
    (∀ contents : List Byte, st.pending = .supplyBytes contents :: rest →
      ∃ buf : Buffer 8, step st = .next { st with pending := rest, bytes := buf } ∧ buf.wf = true ∧
        buf.size = contents.length ∧ ∀ i, buf.get i = contents[i]?.getD 0) ∧
    (∀ contents : List F32, st.pending = .supplySamples contents :: rest →
      ∃ buf : Buffer 32, step st = .next { st with pending := rest, samples := buf } ∧ buf.wf = true ∧
        buf.size = contents.length ∧ ∀ i, buf.get i = contents[i]?.getD 0)

/-- Rule R221: a request cut by reset completes nothing and leaves no value on a result port; each element of its output
region holds a free value, whatever status the request would have ended with; nothing else changes. Log entry 6
(DEDUCED): the region ends at the capacity, is the whole buffer where `BITS` is out of range, and an illegal command word
has none. The counter `draws` is the model's own. -/
def Obligations.CutRequestChangesItsOutputRegionOnly : Prop :=
  ∀ (st : State) (rest : List HostAction), st.bytes.wf = true → st.samples.wf = true →
    st.pending = .requestCutByReset :: rest →
    (∀ why, decode st.cmd = .illegal why →
      step st = .next { st with pending := rest, status := none, r := none, f := none, n := none }) ∧
    (∀ i, decode st.cmd = .legal i → ReachedCapacitiesTrue i st →
      ∃ (bytes : Buffer 8) (samples : Buffer 32),
        step st = .next { st with pending := rest, status := none, r := none, f := none, n := none, bytes := bytes,
                                  samples := samples, draws := st.draws + 1 } ∧
        bytes.size = st.bytes.size ∧ samples.size = st.samples.size ∧
        (∀ k, (inBytesRegion i st k → bytes.get k = Config.resetByte st.draws k) ∧
          (¬ inBytesRegion i st k → bytes.get k = st.bytes.get k)) ∧
        (∀ k, (inSamplesRegion i st k → samples.get k = Config.resetSample st.draws k) ∧
          (¬ inSamplesRegion i st k → samples.get k = st.samples.get k)))

/-! ### Invariants -/

/-- Rules R27, R30, R49: every step keeps the canonical form of both buffers and leaves the result ports as a
completion or a reset leaves them. -/
def Obligations.StepKeepsTheInvariant : Prop :=
  ∀ st t : State, st.Inv → step st = .next t → t.Inv

/-- Rules R30 and R31: the machine after reset meets the invariant, and no result port carries a value. -/
def Obligations.ResetMeetsTheInvariant : Prop :=
  State.reset.Inv ∧ State.reset.status = none ∧ State.reset.r = none ∧ State.reset.f = none ∧ State.reset.n = none

/-- Rules R20, R25 and R49: a request changes no request port, no stated capacity, no size of a buffer, not the
parameter, and nothing of the host's. -/
def Obligations.RequestsLeaveTheInputsAlone : Prop :=
  ∀ (i : Instr) (st t : State), exec i st = .next t →
    t.cmd = st.cmd ∧ t.bits = st.bits ∧ t.width = st.width ∧ t.offset = st.offset ∧ t.len = st.len ∧ t.a = st.a ∧
    t.s = st.s ∧ t.bcap = st.bcap ∧ t.scap = st.scap ∧ t.bytes.size = st.bytes.size ∧
    t.samples.size = st.samples.size ∧ t.legacyFloatZero = st.legacyFloatZero ∧ t.pending = st.pending ∧
    t.draws = st.draws

/-- Rules R40 to R42 and R66: an operation that is not listed as writing a buffer leaves it as it was; so no operation
both reads and writes one buffer. -/
def Obligations.OnlyListedOperationsWriteABuffer : Prop :=
  ∀ (i : Instr) (st t : State), exec i st = .next t →
    (writesBytes i = false → t.bytes = st.bytes) ∧ (writesSamples i = false → t.samples = st.samples) ∧
    ¬ (readsBytes i = true ∧ writesBytes i = true) ∧ ¬ (readsSamples i = true ∧ writesSamples i = true)

/-- Rules R27 and R66: after `OK` exactly the listed result port carries a value; after an error none does. -/
def Obligations.ResultPortsCarryExactlyTheListedOutputs : Prop :=
  ∀ (i : Instr) (st t : State), exec i st = .next t →
    (t.status = some .ok → t.r.isSome = writesR i ∧ t.f.isSome = writesF i ∧ t.n.isSome = writesN i) ∧
    (t.status ≠ some .ok → t.status.isSome = true ∧ t.r = none ∧ t.f = none ∧ t.n = none)

/-- Rule R66: an input that is not listed for an operation has no effect on it. Two requests that agree on what the
operation reads give the same ports; an element of a buffer either gets the same value in both or is left alone in
both. Elements at or above the capacity are not read (rule R47). -/
def Obligations.UnreadInputsHaveNoEffect : Prop :=
  ∀ (i j : Instr) (s s' t t' : State), s.Inv → s'.Inv → AgreeOnInputs i j s s' →
    exec i s = .next t → exec j s' = .next t' →
    t.status = t'.status ∧ t.r = t'.r ∧ t.f = t'.f ∧ t.n = t'.n ∧
    (∀ k, t.bytes.get k = t'.bytes.get k ∨ (t.bytes.get k = s.bytes.get k ∧ t'.bytes.get k = s'.bytes.get k)) ∧
    (∀ k, t.samples.get k = t'.samples.get k ∨
      (t.samples.get k = s.samples.get k ∧ t'.samples.get k = s'.samples.get k))

/-! ### Errors (60_exceptions.md) -/

/-- Rule R202: with capacities stated truly every request completes, with the first code of the order whose cause
holds (the causes are those of rule R200). That an ill-formed instruction, which no command word decodes to, completes
with `IllegalCommand` is the model's choice (log entry 11, DESIGN CHOICE). -/
def Obligations.RequestsCompleteWithTheFirstStatusThatApplies : Prop :=
  ∀ (i : Instr) (st : State), st.capacitiesTrue →
    ∃ t e, exec i st = .next t ∧ t.status = some e ∧ FirstStatus i st e

/-- Rule R204: a request that raises an error changes its status, takes every value off the result ports, and changes
nothing else. -/
def Obligations.ErrorCompletionChangesTheStatusOnly : Prop :=
  ∀ (i : Instr) (st t : State), exec i st = .next t → t.status ≠ some .ok →
    ∃ e, e ≠ .ok ∧ t = { st with status := some e, r := none, f := none, n := none }

/-- Rule R205: a request that raised an error and is issued again gets the same error and changes nothing. -/
def Obligations.ReissuedErrorIsTheSameError : Prop :=
  ∀ (i : Instr) (st t : State), exec i st = .next t → t.status ≠ some .ok → exec i t = .next t

/-- Rule R67: every operation that reads `BITS` completes with `InvalidFormat` where it is outside 1 to 64. -/
def Obligations.BitsOutOfRangeGivesInvalidFormat : Prop :=
  ∀ (i : Instr) (st : State), i.wellFormed = true → readsBits i = true → st.capacitiesTrue → ¬ st.bitsOk →
    exec i st = .next (st.finish .invalidFormat none none none)

/-- Rules R183, R184 and R186: a width error of the kind is reported whatever the data, `LEN` and the capacities. -/
def Obligations.FormatErrorsComeBeforeDataAndBuffers : Prop :=
  ∀ (be : Bool) (st : State), st.capacitiesTrue → st.bitsOk →
    (st.bits ≠ 8 → ∀ k, k = Kind.muLaw ∨ k = Kind.aLaw →
      exec (.decode (.of k) be) st = .next (st.finish .unsupportedCompandedWidth none none none) ∧
      exec (.encode (.of k) be) st = .next (st.finish .unsupportedCompandedWidth none none none) ∧
      exec (.unpack (.of k) be) st = .next (st.finish .unsupportedCompandedWidth none none none) ∧
      exec (.pack (.of k) be) st = .next (st.finish .unsupportedCompandedWidth none none none)) ∧
    (st.bits ≠ 32 → st.bits ≠ 64 →
      exec (.encode (.of .pcmFloat) be) st = .next (st.finish .unsupportedFloatWidth none none none) ∧
      exec (.pack (.of .pcmFloat) be) st = .next (st.finish .unsupportedFloatWidth none none none) ∧
      (st.legacyFloatZero = false →
        exec (.decode (.of .pcmFloat) be) st = .next (st.finish .unsupportedFloatWidth none none none) ∧
        exec (.unpack (.of .pcmFloat) be) st = .next (st.finish .unsupportedFloatWidth none none none)))

/-- Rule R223 and 93_implementation_defined.md I12: a request that reaches a buffer whose capacity is stated larger
than it is has no step. The form of the stop is the model's choice (log entry 9, DEDUCED): a fault named after the buffer,
before every other check, BYTES before SAMPLES, so the clause of SAMPLES needs `BCAP` stated truly. -/
def Obligations.FalseCapacityHasNoStep : Prop :=
  ∀ (i : Instr) (st : State), i.wellFormed = true →
    (reachesBytes i = true → st.bytes.size < st.bcap.val → exec i st = .fault (.falseCapacity .bytes)) ∧
    (reachesSamples i = true → st.bcap.val ≤ st.bytes.size → st.samples.size < st.scap.val →
      exec i st = .fault (.falseCapacity .samples))

/-- Rule R203, whole: the five worked priority cases. The capacities stand stated truly where a request reaches a
buffer (rule R223). -/
def Obligations.WorkedPriorityCases : Prop :=
  ∀ st : State,
    (st.capacitiesTrue → st.bcap = 0 →
      (st.bits = 0 → st.len = 9 →
        exec (.unpack (.of .muLaw) false) st = .next (st.finish .invalidFormat none none none)) ∧
      (st.bits = 24 → st.len = 9 → exec (.unpack (.of .pcmFloat) false) st =
        .next (st.finish (if st.legacyFloatZero then .bufferTooShort else .unsupportedFloatWidth) none none none)) ∧
      (st.width = 9 → st.offset = 0 →
        exec (.rdword (.of .pcmSigned) false) st = .next (st.finish .invalidWidth none none none))) ∧
    (st.capacitiesTrue → st.bits = 16 → st.len = 0 →
      exec (.pack (.of .aLaw) false) st = .next (st.finish .unsupportedCompandedWidth none none none)) ∧
    (∀ rest, st.cmd = 0x00000233#32 → st.pending = .request :: rest →
      step st = .next ({ st with pending := rest }.finish .illegalCommand none none none))

/-- Rule R200: the numeric codes on the `STATUS` port; code 7 is never produced. -/
def Obligations.StatusCodesAreThoseOfTheTable : Prop :=
  Status.ok.code = 0 ∧ Status.invalidFormat.code = 1 ∧ Status.bufferTooShort.code = 2 ∧
  Status.unsupportedFloatWidth.code = 3 ∧ Status.unsupportedCompandedWidth.code = 4 ∧ Status.invalidWidth.code = 5 ∧
  Status.illegalCommand.code = 6 ∧ ∀ e : Status, e.code ≠ 7

/-! ### Format descriptor (40_format_descriptor.md) -/

/-- Rules R80 and R81: `BPS` gives the least whole number of bytes that holds `bits` bits, 1 to 8. -/
def Obligations.BpsGivesTheLeastNumberOfBytes : Prop :=
  ∀ (enc : Enc) (be : Bool) (st : State), st.bitsOk →
    ∃ q : Nat, exec (.bps enc be) st = .next (st.finish .ok (some (BitVec.ofNat 64 q)) none none) ∧
      1 ≤ q ∧ q ≤ 8 ∧ st.bits.toNat ≤ q * 8 ∧ ∀ p : Nat, st.bits.toNat ≤ p * 8 → q ≤ p

/-- Rules R80 and R82: `FSCALE` gives the binary64 that is exactly `2^(bits-1)`, with no rounding and never an
infinity. -/
def Obligations.FscaleGivesTheExactPower : Prop :=
  ∀ (enc : Enc) (be : Bool) (st : State), st.bitsOk →
    ∃ v : F64, exec (.fscale enc be) st = .next (st.finish .ok (some v) none none) ∧ Finite64 v ∧
      units64 v = 2 ^ (st.bits.toNat - 1) * 2 ^ 1074 ∧ v.toNat = (1022 + st.bits.toNat) * 2 ^ 52

/-! ### Word codec (41_word_codec.md, 20_memory.md R44) -/

/-- Rules R44 and R90: `RDWORD` gives the unsigned word of its `WIDTH` bytes in the byte order of `BE`, zero above. -/
def Obligations.RdwordReadsTheWord : Prop :=
  ∀ (enc : Enc) (be : Bool) (st : State), st.capacitiesTrue → 1 ≤ st.width.toNat → st.width.toNat ≤ 8 →
    st.offset.toNat + st.width.toNat ≤ st.bcap.val →
    ∃ v : Word64, exec (.rdword enc be) st = .next (st.finish .ok (some v) none none) ∧
      v.toNat < 2 ^ (8 * st.width.toNat) ∧
      ∀ b, b < st.width.toNat →
        v.toNat / 2 ^ (if be then 8 * (st.width.toNat - 1 - b) else 8 * b) % 2 ^ 8 =
          (st.bytes.get (st.offset.toNat + b)).toNat

/-- Rules R44, R49 and R92: `WRWORD` stores the low `8 * WIDTH` bits of `A` in the byte order of `BE` and leaves every
other byte as it was. -/
def Obligations.WrwordStoresTheWordAndNothingElse : Prop :=
  ∀ (enc : Enc) (be : Bool) (st : State), st.Inv → st.capacitiesTrue → 1 ≤ st.width.toNat → st.width.toNat ≤ 8 →
    st.offset.toNat + st.width.toNat ≤ st.bcap.val →
    ∃ buf : Buffer 8, exec (.wrword enc be) st = .next ({ st with bytes := buf }.finish .ok none none none) ∧
      buf.size = st.bytes.size ∧
      (∀ b, b < st.width.toNat → (buf.get (st.offset.toNat + b)).toNat =
        st.a.toNat / 2 ^ (if be then 8 * (st.width.toNat - 1 - b) else 8 * b) % 2 ^ 8) ∧
      ∀ k, k < st.offset.toNat ∨ st.offset.toNat + st.width.toNat ≤ k → buf.get k = st.bytes.get k

/-- Rule R93, whole: a word read after it is written is its low bits; writing back the word that was read changes
nothing; the big-endian word of some bytes is the little-endian word of the reversed bytes. -/
def Obligations.WordReadAndWriteAreInverse : Prop :=
  ∀ (buf : Buffer 8) (off W : Nat) (be : Bool) (v : Word64), buf.wf = true → 1 ≤ W → W ≤ 8 → off + W ≤ buf.size →
    readWord (writeWord buf off v W be) off W be = v &&& BitVec.ofNat 64 (2 ^ (8 * W) - 1) ∧
    writeWord buf off (readWord buf off W be) W be = buf ∧
    ∀ rev : Buffer 8, (∀ b, b < W → rev.get (off + b) = buf.get (off + (W - 1 - b))) →
      readWord buf off W true = readWord rev off W false

/-! ### Sign extender (42_sign_extender.md) -/

/-- Rule R101: sign extension is the bit test, for every word and width. -/
def Obligations.SextIsTheBitTest : Prop :=
  ∀ (enc : Enc) (be : Bool) (st : State), st.bitsOk →
    ∃ v : Word64, exec (.sext enc be) st = .next (st.finish .ok (some v) none none) ∧
      v.toInt = signedValue st.a st.bits.toNat

/-- Rules R102 and R103: `TOOB` adds full scale modulo 2^64; an in-range value gives `0 .. 2^bits - 1`. -/
def Obligations.ToobAddsFullScale : Prop :=
  ∀ (enc : Enc) (be : Bool) (st : State), st.bitsOk →
    ∃ v : Word64, exec (.toob enc be) st = .next (st.finish .ok (some v) none none) ∧
      v.toNat = (st.a.toNat + 2 ^ (st.bits.toNat - 1)) % 2 ^ 64 ∧
      (-(2 ^ (st.bits.toNat - 1)) ≤ st.a.toInt → st.a.toInt < 2 ^ (st.bits.toNat - 1) →
        (v.toNat : Int) = st.a.toInt + 2 ^ (st.bits.toNat - 1) ∧ v.toNat < 2 ^ st.bits.toNat)

/-- Rule R104: `FROMOB` subtracts full scale modulo 2^64, with no mask. -/
def Obligations.FromobSubtractsFullScale : Prop :=
  ∀ (enc : Enc) (be : Bool) (st : State), st.bitsOk →
    ∃ v : Word64, exec (.fromob enc be) st = .next (st.finish .ok (some v) none none) ∧
      v.toInt = offsetValue st.a st.bits.toNat

/-- Rule R105: the two conversions are inverse on all 64-bit values, as functions and as two requests in a row. -/
def Obligations.OffsetBinaryConversionsAreInverse : Prop :=
  (∀ (v : Word64) (bits : Nat), 1 ≤ bits → bits ≤ 64 →
    fromOffsetBinary (toOffsetBinary v bits) bits = v ∧ toOffsetBinary (fromOffsetBinary v bits) bits = v) ∧
  ∀ (enc : Enc) (be : Bool) (st : State), st.bitsOk →
    (∃ v, exec (.toob enc be) st = .next (st.finish .ok (some v) none none) ∧
      exec (.fromob enc be) { st with a := v } = .next ({ st with a := v }.finish .ok (some st.a) none none)) ∧
    ∃ v, exec (.fromob enc be) st = .next (st.finish .ok (some v) none none) ∧
      exec (.toob enc be) { st with a := v } = .next ({ st with a := v }.finish .ok (some st.a) none none)

/-! ### Linear PCM (43_linear_pcm_float_mapper.md) -/

/-- Rules R110 and R112: a linear decode forms its integer, divides exactly by full scale in binary64, and narrows
once; the result is finite, and exactly `k / 2^(bits-1)` where binary32 can hold `k`; 0 gives `+0.0`. -/
def Obligations.PcmDecodeDividesByFullScale : Prop :=
  ∀ (i : Instr) (enc : Enc) (be : Bool) (k : Int) (st : State), st.bitsOk →
    (i = .pcmsDec enc be ∧ k = signedValue st.a st.bits.toNat) ∨
      (i = .pcmuDec enc be ∧ k = offsetValue st.a st.bits.toNat) →
    ∃ (q : F64) (v : F32), exec i st = .next (st.finish .ok none (some v) none) ∧
      Finite64 q ∧ units64 q * 2 ^ (st.bits.toNat - 1) = units64 (f64OfInt k) ∧ v = f32OfF64 q ∧ Finite32 v ∧
      (k = 0 → v = 0) ∧ (Representable32 k → units32 v * 2 ^ (st.bits.toNat - 1) = k * 2 ^ 149)

/-- Rule R111: the worked case of the double rounding: a single rounding of `k / 2^63` would give the next sample. -/
def Obligations.WideDecodeRoundsTwice : Prop :=
  ∀ (enc : Enc) (be : Bool) (st : State), st.bits = 64 → st.a = 0x4000004000000001#64 →
    exec (.pcmsDec enc be) st = .next (st.finish .ok none (some 0x3F000000#32) none) ∧
    pack32 false (binary32.roundMag st.a.toNat (-63)) = 0x3F000001#32

/-- Rules R113, R114 and R116: a linear encode gives the exact product with full scale, toward zero, saturating, and 0
for a NaN; PCMU.ENC adds full scale modulo 2^64. Nothing clips. -/
def Obligations.PcmEncodeTruncatesTheExactProduct : Prop :=
  ∀ (enc : Enc) (be : Bool) (st : State), st.bitsOk →
    exec (.pcmsEnc enc be) st =
      .next (st.finish .ok (some (BitVec.ofInt 64 (encodedInteger st.s st.bits.toNat))) none none) ∧
    exec (.pcmuEnc enc be) st =
      .next (st.finish .ok
        (some (BitVec.ofInt 64 (encodedInteger st.s st.bits.toNat + 2 ^ (st.bits.toNat - 1)))) none none)

/-- Rule R115: the worked value of the no-clip rule: `+1.0` at 16 bits encodes to `0x8000`, which decodes to `-1.0`. -/
def Obligations.PlusOneReturnsAsMinusOne : Prop :=
  ∀ (enc : Enc) (be : Bool) (st : State), st.bits = 16 →
    (st.s = 0x3F800000#32 → exec (.pcmsEnc enc be) st = .next (st.finish .ok (some 0x8000) none none)) ∧
    (st.a = 0x8000 → exec (.pcmsDec enc be) st = .next (st.finish .ok none (some 0xBF800000#32) none))

/-- Rule R117: where binary32 can hold the integer of a word, encoding its decoded sample gives that integer back. For
PcmSigned the block's bits return exactly where the pad bits repeat the sign bit; for PcmUnsigned the word returns. -/
def Obligations.PcmRoundTripRestoresRepresentableWords : Prop :=
  ∀ (enc : Enc) (be : Bool) (st : State), st.bitsOk →
    (Representable32 (signedValue st.a st.bits.toNat) →
      ∃ (v : F32) (r : Word64), exec (.pcmsDec enc be) st = .next (st.finish .ok none (some v) none) ∧
        exec (.pcmsEnc enc be) { st with s := v } = .next ({ st with s := v }.finish .ok (some r) none none) ∧
        r.toInt = signedValue st.a st.bits.toNat ∧
        ((∀ n, n < 8 * ((st.bits.toNat + 7) / 8) → r.getLsbD n = st.a.getLsbD n) ↔
          ∀ n, st.bits.toNat ≤ n → n < 8 * ((st.bits.toNat + 7) / 8) →
            st.a.getLsbD n = st.a.getLsbD (st.bits.toNat - 1))) ∧
    (Representable32 (offsetValue st.a st.bits.toNat) →
      ∃ v : F32, exec (.pcmuDec enc be) st = .next (st.finish .ok none (some v) none) ∧
        exec (.pcmuEnc enc be) { st with s := v } = .next ({ st with s := v }.finish .ok (some st.a) none none))

/-- Rule R118: for `bits <= 25` and a sample in `[-1.0, 1.0)`, the decode of its encode is less than one LSB nearer to
zero, of the same sign or `+0.0`. -/
def Obligations.PcmQuantizationErrorIsBelowOneLsb : Prop :=
  ∀ (e d : Instr) (enc : Enc) (be : Bool) (st : State), st.bitsOk → st.bits.toNat ≤ 25 →
    (e = .pcmsEnc enc be ∧ d = .pcmsDec enc be) ∨ (e = .pcmuEnc enc be ∧ d = .pcmuDec enc be) →
    Finite32 st.s → -(2 ^ 149) ≤ units32 st.s → units32 st.s < 2 ^ 149 →
    ∃ (r : Word64) (v : F32), exec e st = .next (st.finish .ok (some r) none none) ∧
      exec d { st with a := r } = .next ({ st with a := r }.finish .ok none (some v) none) ∧ Finite32 v ∧
      0 ≤ |units32 st.s| - |units32 v| ∧ (|units32 st.s| - |units32 v|) * 2 ^ (st.bits.toNat - 1) < 2 ^ 149 ∧
      (sign32 v = sign32 st.s ∨ v = 0)

/-! ### Float formats (44_ieee_float_reinterpreter.md, 00_scope.md R9 to R15) -/

/-- Rules R130 and R131: `FLT.DEC` copies the low 32 bits at width 32, narrows at 64, and elsewhere fails, or gives
`+0.0` where `LEGACY_FLOAT_ZERO` is set. -/
def Obligations.FltDecReinterpretsTheWord : Prop :=
  ∀ (enc : Enc) (be : Bool) (st : State),
    (st.bits = 32 → exec (.fltDec enc be) st =
      .next (st.finish .ok none (some (BitVec.ofNat 32 (st.a.toNat % 2 ^ 32))) none)) ∧
    (st.bits = 64 → ∃ v, exec (.fltDec enc be) st = .next (st.finish .ok none (some v) none) ∧
      (isNaN64 st.a = true → isNaN32 v = true) ∧
      (isNaN64 st.a = false → sign32 v = sign64 st.a ∧ isNaN32 v = false ∧
        (isInf64 st.a = true → isInf32 v = true) ∧
        (isInf64 st.a = false → RoundsTo binary32 (binary64.magUnits (mag64 st.a)) (2 ^ 925) (mag32 v)))) ∧
    (st.bitsOk → st.bits ≠ 32 → st.bits ≠ 64 → exec (.fltDec enc be) st =
      if st.legacyFloatZero then .next (st.finish .ok none (some 0) none)
      else .next (st.finish .unsupportedFloatWidth none none none)) ∧
    (¬ st.bitsOk → exec (.fltDec enc be) st = .next (st.finish .invalidFormat none none none))

/-- Rule R132: `FLT.ENC` copies the bits at width 32, widens at 64, and fails elsewhere whatever `LEGACY_FLOAT_ZERO`. -/
def Obligations.FltEncReinterpretsTheSample : Prop :=
  ∀ (enc : Enc) (be : Bool) (st : State),
    (st.bits = 32 → exec (.fltEnc enc be) st =
      .next (st.finish .ok (some (BitVec.ofNat 64 st.s.toNat)) none none)) ∧
    (st.bits = 64 → ∃ v : F64, exec (.fltEnc enc be) st = .next (st.finish .ok (some v) none none) ∧
      (isNaN32 st.s = true → isNaN64 v = true) ∧
      (isNaN32 st.s = false → sign64 v = sign32 st.s ∧ isNaN64 v = false ∧
        (isInf32 st.s = true → isInf64 v = true) ∧
        (isInf32 st.s = false → isInf64 v = false ∧ units64 v = units32 st.s * 2 ^ 925))) ∧
    (st.bitsOk → st.bits ≠ 32 → st.bits ≠ 64 →
      exec (.fltEnc enc be) st = .next (st.finish .unsupportedFloatWidth none none none)) ∧
    (¬ st.bitsOk → exec (.fltEnc enc be) st = .next (st.finish .invalidFormat none none none))

/-- Rule R133: the round trips of the float formats. For a NaN word at 64 bits the draws of rule R12 decide, so the
last law is stated of words that are no NaN. -/
def Obligations.FloatRoundTrips : Prop :=
  (∀ raw : Word64, floatEncode (floatDecode raw 32) 32 = BitVec.ofNat 64 (raw.toNat % 2 ^ 32)) ∧
  (∀ s : F32, floatDecode (floatEncode s 32) 32 = s) ∧
  (∀ s : F32, isNaN32 s = false → floatDecode (floatEncode s 64) 64 = s) ∧
  (∀ raw : Word64, isNaN64 raw = false →
    (floatEncode (floatDecode raw 64) 64 = raw ↔ ∃ s : F32, isNaN32 s = false ∧ raw = f64OfF32 s))

/-- Rule R9: the four binary64 operations on finite operands are the exact result rounded to nearest, ties to even;
units are `2^(-1074)`. What rule R9 names without spelling out is taken from IEEE-754 (log entry 18, PRESUMED): the
signs of products, quotients and exact zero sums, and the results on NaNs, on infinities and at a zero divisor. Which
NaN a NaN result is stays free (log entry 3). -/
def Obligations.BinaryOperationsAreCorrectlyRounded : Prop :=
  ∀ x y : F64,
    (Finite64 x → Finite64 y →
      (RoundsTo binary64 (units64 x * units64 y).natAbs (2 ^ 1074) (mag64 (mul64 x y)) ∧
        sign64 (mul64 x y) = (sign64 x != sign64 y)) ∧
      (units64 y ≠ 0 →
        RoundsTo binary64 ((units64 x).natAbs * 2 ^ 1074) (units64 y).natAbs (mag64 (div64 x y)) ∧
        sign64 (div64 x y) = (sign64 x != sign64 y)) ∧
      (units64 y = 0 →
        (units64 x ≠ 0 → div64 x y = inf64 (sign64 x != sign64 y)) ∧ (units64 x = 0 → isNaN64 (div64 x y) = true)) ∧
      (RoundsTo binary64 (units64 x + units64 y).natAbs 1 (mag64 (add64 x y)) ∧
        (units64 x + units64 y ≠ 0 → sign64 (add64 x y) = decide (units64 x + units64 y < 0)) ∧
        (units64 x + units64 y = 0 → sign64 (add64 x y) = (sign64 x && sign64 y))) ∧
      (RoundsTo binary64 (units64 x - units64 y).natAbs 1 (mag64 (sub64 x y)) ∧
        (units64 x - units64 y ≠ 0 → sign64 (sub64 x y) = decide (units64 x - units64 y < 0)) ∧
        (units64 x - units64 y = 0 → sign64 (sub64 x y) = (sign64 x && !sign64 y)))) ∧
    (isNaN64 x = true ∨ isNaN64 y = true →
      isNaN64 (mul64 x y) = true ∧ isNaN64 (div64 x y) = true ∧ isNaN64 (add64 x y) = true ∧
        isNaN64 (sub64 x y) = true) ∧
    (∀ s : Bool, Finite64 y →
      (units64 y ≠ 0 → mul64 (inf64 s) y = inf64 (s != sign64 y) ∧ mul64 y (inf64 s) = inf64 (sign64 y != s)) ∧
      (units64 y = 0 → isNaN64 (mul64 (inf64 s) y) = true ∧ isNaN64 (mul64 y (inf64 s)) = true) ∧
      div64 (inf64 s) y = inf64 (s != sign64 y) ∧ div64 y (inf64 s) = pack64 (sign64 y != s) 0 ∧
      add64 (inf64 s) y = inf64 s ∧ add64 y (inf64 s) = inf64 s ∧
      sub64 (inf64 s) y = inf64 s ∧ sub64 y (inf64 s) = inf64 (!s)) ∧
    (∀ s t : Bool,
      mul64 (inf64 s) (inf64 t) = inf64 (s != t) ∧ isNaN64 (div64 (inf64 s) (inf64 t)) = true ∧
      (s = t → add64 (inf64 s) (inf64 t) = inf64 s ∧ isNaN64 (sub64 (inf64 s) (inf64 t)) = true) ∧
      (s ≠ t → isNaN64 (add64 (inf64 s) (inf64 t)) = true ∧ sub64 (inf64 s) (inf64 t) = inf64 s))

/-- Rule R9: comparisons are those of the values, with the infinities at the ends and false where an operand is a NaN;
`|x|` clears the sign bit alone. -/
def Obligations.ComparisonIsTheOrderOfTheValues : Prop :=
  ∀ x y : F64,
    ((isNaN64 x = true ∨ isNaN64 y = true) → lt64 x y = false) ∧
    (Finite64 x → Finite64 y → (lt64 x y = true ↔ units64 x < units64 y)) ∧
    (Finite64 x → lt64 x (inf64 false) = true ∧ lt64 (inf64 true) x = true ∧ lt64 (inf64 false) x = false ∧
      lt64 x (inf64 true) = false) ∧
    (∀ s t : Bool, lt64 (inf64 s) (inf64 t) = (s && !t)) ∧
    mag64 (abs64 x) = mag64 x ∧ sign64 (abs64 x) = false

/-- Rules R11 and R12: the conversions. An integer rounds to nearest and is exact up to `2^53`; widening is exact;
narrowing rounds to nearest, and a magnitude of `2^128 - 2^103` or more gives an infinity of its sign; a NaN gives a
NaN of the target format, the draw of rule R12. -/
def Obligations.ConversionsRoundToNearest : Prop :=
  (∀ k : Int, -(2 ^ 63) ≤ k → k < 2 ^ 63 → Finite64 (f64OfInt k) ∧ sign64 (f64OfInt k) = decide (k < 0) ∧
    RoundsTo binary64 (k.natAbs * 2 ^ 1074) 1 (mag64 (f64OfInt k)) ∧
    (k.natAbs ≤ 2 ^ 53 → units64 (f64OfInt k) = k * 2 ^ 1074)) ∧
  (∀ s : F32, Finite32 s → Finite64 (f64OfF32 s) ∧ units64 (f64OfF32 s) = units32 s * 2 ^ 925 ∧
    sign64 (f64OfF32 s) = sign32 s) ∧
  (∀ x : F64, Finite64 x → sign32 (f32OfF64 x) = sign64 x ∧
    RoundsTo binary32 (units64 x).natAbs (2 ^ 925) (mag32 (f32OfF64 x)) ∧
    (((2 ^ 128 - 2 ^ 103) * 2 ^ 1074 ≤ (units64 x).natAbs) ↔ isInf32 (f32OfF64 x) = true)) ∧
  (∀ s : Bool, f64OfF32 (pack32 s binary32.infMag) = inf64 s ∧ f32OfF64 (inf64 s) = pack32 s binary32.infMag) ∧
  (∀ s : F32, isNaN32 s = true → isNaN64 (f64OfF32 s) = true) ∧
  (∀ x : F64, isNaN64 x = true → isNaN32 (f32OfF64 x) = true)

/-- Rule R13: `trunc_i64` rounds toward zero and saturates; NaN gives 0. -/
def Obligations.TruncationIsTowardZeroAndSaturates : Prop :=
  ∀ x : F64,
    (isNaN64 x = true → truncI64 x = 0) ∧
    (x = inf64 false → (truncI64 x).toInt = 2 ^ 63 - 1) ∧
    (x = inf64 true → (truncI64 x).toInt = -(2 ^ 63)) ∧
    (Finite64 x → 2 ^ 63 * 2 ^ 1074 ≤ units64 x → (truncI64 x).toInt = 2 ^ 63 - 1) ∧
    (Finite64 x → units64 x ≤ -(2 ^ 63 * 2 ^ 1074) → (truncI64 x).toInt = -(2 ^ 63)) ∧
    (Finite64 x → units64 x < 2 ^ 63 * 2 ^ 1074 → -(2 ^ 63 * 2 ^ 1074) < units64 x →
      (truncI64 x).toInt = (units64 x).tdiv (2 ^ 1074))

/-- Rule R14: `signum` is `1.0` above zero, `-1.0` below, and a zero or a NaN is itself. -/
def Obligations.SignumKeepsZerosAndNans : Prop :=
  ∀ x : F64,
    (lt64 0 x = true → signum64 x = 0x3FF0000000000000#64) ∧
    (lt64 x 0 = true → signum64 x = 0xBFF0000000000000#64) ∧
    (x = 0 ∨ x = 0x8000000000000000#64 ∨ isNaN64 x = true → signum64 x = x) ∧
    (lt64 0 x = true ∨ lt64 x 0 = true ∨ x = 0 ∨ x = 0x8000000000000000#64 ∨ isNaN64 x = true)

/-- Rule R15: the properties (b), (c) and (d) of `LN`, `EXP` and `POW`; (a) is their being functions. -/
def Obligations.TranscendentalLaws : Prop :=
  (∀ b : F64, POW b 0 = 0x3FF0000000000000#64) ∧ LN 0x3FF0000000000000#64 = 0 ∧
  LN (inf64 false) = inf64 false ∧ EXP (inf64 false) = inf64 false ∧
  ∀ x : F64, isNaN64 x = true → isNaN64 (LN x) = true ∧ isNaN64 (EXP x) = true

/-! ### Companding (45_g711_mulaw_expander.md, 46_g711_alaw_expander.md) -/

/-- Rule R141: `smDecode` gives a value in `-127 .. 127`; exactly the bytes `m` and `m XOR 0x80` give 0; flipping bit 7
negates; bit 7 of `b XOR m` is the sign. -/
def Obligations.SignMagnitudeDecode : Prop :=
  ∀ b m : Byte, -127 ≤ smDecode b m ∧ smDecode b m ≤ 127 ∧ (smDecode b m = 0 ↔ b = m ∨ b = m ^^^ 0x80) ∧
    smDecode (b ^^^ 0x80) m = -smDecode b m ∧ (smDecode b m).natAbs = (b ^^^ m).toNat % 128 ∧
    (smDecode b m < 0 → 128 ≤ (b ^^^ m).toNat)

/-- Rule R142: `smEncode` and `smDecode` are inverse on `-127 .. 127`; a magnitude of 128 and the least `i64` give the
byte `0x80 XOR m`; magnitudes count modulo 256. -/
def Obligations.SignMagnitudeEncode : Prop :=
  ∀ (raw : Word64) (m : Byte),
    (-127 ≤ raw.toInt → raw.toInt ≤ 127 → smDecode (smEncode raw m) m = raw.toInt) ∧
    smEncode 128 m = 0x80 ^^^ m ∧ smEncode 0x8000000000000000#64 m = 0x80 ^^^ m ∧
    (0 ≤ raw.toInt → (smEncode raw m).toNat = raw.toNat % 256 ^^^ m.toNat) ∧
    (raw.toInt < 0 → (smEncode raw m).toNat = (raw.toInt.natAbs % 256 ^^^ 128) ^^^ m.toNat)

/-- Rule R143: `ULAW.DEC` completes on every byte with the formula: `x` is exactly `r/128`, and the two zero bytes give
`+0.0`. `POW` is the parameter of rule R15. -/
def Obligations.UlawDecExpandsTheByte : Prop :=
  ∀ (enc : Enc) (be : Bool) (st : State),
    ∃ x : F64, Finite64 x ∧ units64 x * 128 = smDecode (BitVec.ofNat 8 (st.a.toNat % 256)) 0xFF * 2 ^ 1074 ∧
      exec (.ulawDec enc be) st = .next (st.finish .ok none
        (some (f32OfF64 (mul64 (mul64 (signum64 x) 0x3F70101010101010#64)
          (sub64 (POW 0x4070000000000000#64 (abs64 x)) 0x3FF0000000000000#64)))) none) ∧
      (st.a.toNat % 256 = 0xFF ∨ st.a.toNat % 256 = 0x7F →
        exec (.ulawDec enc be) st = .next (st.finish .ok none (some 0) none))

/-- Rule R145: `ULAW.ENC` completes on every sample with the formula; `+0.0`, `-0.0` and every NaN give the byte
`0xFF`. `LN` is the parameter of rule R15. -/
def Obligations.UlawEncCompressesTheSample : Prop :=
  ∀ (enc : Enc) (be : Bool) (st : State),
    ∃ b : Byte, exec (.ulawEnc enc be) st = .next (st.finish .ok (some (BitVec.ofNat 64 b.toNat)) none none) ∧
      b = smEncode (truncI64 (mul64
        (div64 (mul64 (signum64 (f64OfF32 st.s))
          (LN (add64 0x3FF0000000000000#64 (mul64 0x406FE00000000000#64 (abs64 (f64OfF32 st.s))))))
          (LN 0x4070000000000000#64)) 0x4060000000000000#64)) 0xFF ∧
      (st.s = 0 ∨ st.s = 0x80000000#32 ∨ isNaN32 st.s = true → b = 0xFF)

/-- Rule R163: `ALAW.DEC` completes on every byte with the formula: `x` is exactly `r/128`, linear below `EXP_0`,
logarithmic from there on. `LN` and `EXP` are the parameters of rule R15. -/
def Obligations.AlawDecExpandsTheByte : Prop :=
  ∀ (enc : Enc) (be : Bool) (st : State),
    ∃ x : F64, Finite64 x ∧ units64 x * 128 = smDecode (BitVec.ofNat 8 (st.a.toNat % 256)) 0x55 * 2 ^ 1074 ∧
      let opl := add64 0x3FF0000000000000#64 (LN 0x4055ECCCCCCCCCCD#64)
      exec (.alawDec enc be) st = .next (st.finish .ok none
        (some (f32OfF64 (mul64 (signum64 x)
          (if lt64 (abs64 x) (div64 0x3FF0000000000000#64 opl)
            then div64 (mul64 (abs64 x) opl) 0x4055ECCCCCCCCCCD#64
            else div64 (EXP (sub64 (mul64 (abs64 x) opl) 0x3FF0000000000000#64)) 0x4055ECCCCCCCCCCD#64)))) none)

/-- Rule R165: `ALAW.ENC` completes on every sample with the formula; `+0.0`, `-0.0` and every NaN give the byte
`0x55`. `LN` is the parameter of rule R15. -/
def Obligations.AlawEncCompressesTheSample : Prop :=
  ∀ (enc : Enc) (be : Bool) (st : State),
    ∃ b : Byte, exec (.alawEnc enc be) st = .next (st.finish .ok (some (BitVec.ofNat 64 b.toNat)) none none) ∧
      (let d := f64OfF32 st.s
       let opl := add64 0x3FF0000000000000#64 (LN 0x4055ECCCCCCCCCCD#64)
       let x := if lt64 (abs64 d) 0x3F875A32CA94DF04#64 then div64 (mul64 0x4055ECCCCCCCCCCD#64 (abs64 d)) opl
         else div64 (add64 0x3FF0000000000000#64 (LN (mul64 0x4055ECCCCCCCCCCD#64 (abs64 d)))) opl
       b = smEncode (truncI64 (mul64 (mul64 (signum64 d) x) 0x4060000000000000#64)) 0x55) ∧
      (st.s = 0 ∨ st.s = 0x80000000#32 ∨ isNaN32 st.s = true → b = 0x55)

/-- Rules R143 and R163: expansion is odd: flipping bit 7 of a byte that is no zero byte flips the sign of the sample,
for every choice of the parameters under which that sample is no NaN. -/
def Obligations.ExpansionIsOdd : Prop :=
  (∀ (pow : F64 → F64 → F64) (b : Byte), b ≠ 0xFF → b ≠ 0x7F → isNaN32 (ulawDecodeBy pow b) = false →
    ulawDecodeBy pow (b ^^^ 0x80) = ulawDecodeBy pow b ^^^ 0x80000000#32) ∧
  (∀ (ln exp : F64 → F64) (b : Byte), b ≠ 0x55 → b ≠ 0xD5 → isNaN32 (alawDecodeBy ln exp b) = false →
    alawDecodeBy ln exp (b ^^^ 0x80) = alawDecodeBy ln exp b ^^^ 0x80000000#32)

/-- Rules R145 and R165, 93_implementation_defined.md I7: a full-scale sample encodes to silence, for every `LN` whose
value at the constant that divides is finite and not zero; an infinite sample encodes to `0x00` and `0x7F`, or `0xAA` and
`0xD5`, for every `LN` with `LN(+inf) = +inf` (rule R15 (d)) whose dividing constant is finite and positive; and the A-law
zero bytes decode to `+0.0` for every `LN` that puts them in the linear segment (rule R163). -/
def Obligations.FullScaleEncodesToSilence : Prop :=
  (∀ ln : F64 → F64, Finite64 (ln MU1) → units64 (ln MU1) ≠ 0 →
    ulawEncodeBy ln 0x3F800000#32 = 0x7F ∧ ulawEncodeBy ln 0xBF800000#32 = 0xFF) ∧
  (∀ ln : F64 → F64, Finite64 (OPL ln) → units64 (OPL ln) ≠ 0 →
    alawEncodeBy ln 0x3F800000#32 = 0xD5 ∧ alawEncodeBy ln 0xBF800000#32 = 0x55) ∧
  (∀ ln : F64 → F64, ln (inf64 false) = inf64 false → Finite64 (ln MU1) → 0 < units64 (ln MU1) →
    ulawEncodeBy ln 0x7F800000#32 = 0x00 ∧ ulawEncodeBy ln 0xFF800000#32 = 0x7F) ∧
  (∀ ln : F64 → F64, ln (inf64 false) = inf64 false → Finite64 (OPL ln) → 0 < units64 (OPL ln) →
    alawEncodeBy ln 0x7F800000#32 = 0xAA ∧ alawEncodeBy ln 0xFF800000#32 = 0xD5) ∧
  (∀ ln exp : F64 → F64, Finite64 (OPL ln) → lt64 0 (EXP_0 ln) = true →
    alawDecodeBy ln exp 0x55 = 0 ∧ alawDecodeBy ln exp 0xD5 = 0)

/-! ### The combined codec (47_companding_codec_combined.md, 20_memory.md R58) -/

/-- Rule R181: DECODE and ENCODE equal the single-unit operation of their kind, for results and errors alike, at every
width that passes; the companding kinds require `bits = 8`. -/
def Obligations.DispatchEqualsTheSingleUnits : Prop :=
  ∀ (enc : Enc) (be : Bool) (st : State),
    exec (.decode (.of .pcmSigned) be) st = exec (.pcmsDec enc be) st ∧
    exec (.encode (.of .pcmSigned) be) st = exec (.pcmsEnc enc be) st ∧
    exec (.decode (.of .pcmUnsigned) be) st = exec (.pcmuDec enc be) st ∧
    exec (.encode (.of .pcmUnsigned) be) st = exec (.pcmuEnc enc be) st ∧
    exec (.decode (.of .pcmFloat) be) st = exec (.fltDec enc be) st ∧
    exec (.encode (.of .pcmFloat) be) st = exec (.fltEnc enc be) st ∧
    (st.bits = 8 →
      exec (.decode (.of .muLaw) be) st = exec (.ulawDec enc be) st ∧
      exec (.encode (.of .muLaw) be) st = exec (.ulawEnc enc be) st ∧
      exec (.decode (.of .aLaw) be) st = exec (.alawDec enc be) st ∧
      exec (.encode (.of .aLaw) be) st = exec (.alawEnc enc be) st)

/-- Rules R180 to R182: DECODE and ENCODE complete at every width that passes the check of their direction, as the
single-unit operation of their kind does, with a sample or a word; a companded word is a byte. -/
def Obligations.DecodeAndEncodeComplete : Prop :=
  ∀ (k : Kind) (enc : Enc) (be : Bool) (st : State), st.bitsOk → (k = .muLaw ∨ k = .aLaw → st.bits = 8) →
    ((k = .pcmFloat → st.bits = 32 ∨ st.bits = 64 ∨ st.legacyFloatZero = true) →
      ∃ v : F32, exec (.decode (.of k) be) st = .next (st.finish .ok none (some v) none) ∧
        exec (unitDecode k enc be) st = .next (st.finish .ok none (some v) none)) ∧
    ((k = .pcmFloat → st.bits = 32 ∨ st.bits = 64) →
      ∃ r : Word64, exec (.encode (.of k) be) st = .next (st.finish .ok (some r) none none) ∧
        exec (unitEncode k enc be) st = .next (st.finish .ok (some r) none none) ∧
        ((k = .muLaw ∨ k = .aLaw) → r.toNat < 256))

/-- Rules R184 and R185: UNPACK completes where the format passes and both buffers are large enough, with the number of
blocks on `N`; sample `j` is the `F` of a `RDWORD` of block `j` and a `DECODE` of its `R`; samples past the blocks and
all of BYTES stay as they were. -/
def Obligations.UnpackDecodesEveryBlock : Prop :=
  ∀ (k : Kind) (be : Bool) (st : State) (w n : Nat), st.Inv → st.capacitiesTrue → st.bitsOk →
    (k = .pcmFloat → st.bits = 32 ∨ st.bits = 64 ∨ st.legacyFloatZero = true) →
    (k = .muLaw ∨ k = .aLaw → st.bits = 8) →
    w = (st.bits.toNat + 7) / 8 → n = (st.len.toNat + w - 1) / w → n * w ≤ st.bcap.val → n ≤ st.scap.val →
    ∃ buf : Buffer 32,
      exec (.unpack (.of k) be) st =
        .next ({ st with samples := buf }.finish .ok none none (some (BitVec.ofNat 64 n))) ∧
      buf.size = st.samples.size ∧ (∀ j, n ≤ j → buf.get j = st.samples.get j) ∧
      ∀ j, j < n → ∃ v : Word64,
        let rd := { st with width := BitVec.ofNat 32 w, offset := BitVec.ofNat 32 (j * w) }
        exec (.rdword (.of k) be) rd = .next (rd.finish .ok (some v) none none) ∧
        exec (.decode (.of k) be) { st with a := v } =
          .next ({ st with a := v }.finish .ok none (some (buf.get j)) none)

/-- Rules R186 and R187: PACK completes where the format passes and both buffers are large enough, with the number of
bytes on `N`; block `i` holds what an `ENCODE` of sample `i` and a `WRWORD` of its `R` at `i * bps` write; bytes past
the blocks and all of SAMPLES stay as they were. -/
def Obligations.PackEncodesEverySample : Prop :=
  ∀ (k : Kind) (be : Bool) (st : State) (w : Nat), st.Inv → st.capacitiesTrue → st.bitsOk →
    (k = .pcmFloat → st.bits = 32 ∨ st.bits = 64) → (k = .muLaw ∨ k = .aLaw → st.bits = 8) →
    w = (st.bits.toNat + 7) / 8 → st.len.toNat ≤ st.scap.val → st.len.toNat * w ≤ st.bcap.val →
    ∃ buf : Buffer 8,
      exec (.pack (.of k) be) st =
        .next ({ st with bytes := buf }.finish .ok none none (some (BitVec.ofNat 64 (st.len.toNat * w)))) ∧
      buf.size = st.bytes.size ∧ (∀ j, st.len.toNat * w ≤ j → buf.get j = st.bytes.get j) ∧
      ∀ i, i < st.len.toNat → ∃ (r : Word64) (t : State),
        exec (.encode (.of k) be) { st with s := st.samples.get i } =
          .next ({ st with s := st.samples.get i }.finish .ok (some r) none none) ∧
        exec (.wrword (.of k) be)
          { st with width := BitVec.ofNat 32 w, offset := BitVec.ofNat 32 (i * w), a := r } = .next t ∧
        ∀ b, b < w → buf.get (i * w + b) = t.bytes.get (i * w + b)

/-- Rule R58: an UNPACK of `X || Y`, split at a block boundary, gives the samples of an UNPACK of `X` followed by those
of an UNPACK of `Y`; a PACK of `P || Q` writes the bytes of a PACK of `P` followed by those of a PACK of `Q`. -/
def Obligations.StreamsSplitAtBlockBoundaries : Prop :=
  ∀ (k : Kind) (be : Bool) (s x y s' x' y' : State) (w : Nat), s.Inv → x.Inv → y.Inv →
    x.bits = s.bits → y.bits = s.bits → w = (s.bits.toNat + 7) / 8 →
    s'.status = some .ok → x'.status = some .ok → y'.status = some .ok →
    (exec (.unpack (.of k) be) s = .next s' → exec (.unpack (.of k) be) x = .next x' →
      exec (.unpack (.of k) be) y = .next y' →
      ∀ j, x.len.toNat = j * w → s.len.toNat = j * w + y.len.toNat →
      (∀ i, i < j * w → s.bytes.get i = x.bytes.get i) →
      (∀ i, i < y.bcap.val → s.bytes.get (j * w + i) = y.bytes.get i) →
      (∀ i, i < j → s'.samples.get i = x'.samples.get i) ∧
      ∀ i, i * w < y.len.toNat → s'.samples.get (j + i) = y'.samples.get i) ∧
    (exec (.pack (.of k) be) s = .next s' → exec (.pack (.of k) be) x = .next x' →
      exec (.pack (.of k) be) y = .next y' →
      s.len.toNat = x.len.toNat + y.len.toNat →
      (∀ i, i < x.len.toNat → s.samples.get i = x.samples.get i) →
      (∀ i, i < y.len.toNat → s.samples.get (x.len.toNat + i) = y.samples.get i) →
      (∀ i, i < x.len.toNat * w → s'.bytes.get i = x'.bytes.get i) ∧
      ∀ i, i < y.len.toNat * w → s'.bytes.get (x.len.toNat * w + i) = y'.bytes.get i)
end

