-- ==== Sys2Proof/Laws/Float.lean ====
section
/-! SUPPORT. The laws of the IEEE-754 arithmetic: magnitude encodings are ordered as their values, rounding brackets
the exact value between two neighbouring encodings, and packing and unpacking are inverse. -/

namespace Sys2Proof.Machine

open Sys2Proof

namespace FloatFormat

variable {fmt : FloatFormat}

/-! ### Magnitudes -/

/-- A whole number of `2 ^ q` units whose significand has at most one bit too many, as an encoding. -/
theorem magUnits_join (hf : 0 < fmt.fracBits) {q sig : Nat} (hs : sig ≤ 2 ^ (fmt.fracBits + 1))
    (hq : q = 0 ∨ 2 ^ fmt.fracBits ≤ sig) :
    fmt.magUnits (q * 2 ^ fmt.fracBits + sig) = sig * 2 ^ q := by
  set f := fmt.fracBits with hfdef
  have hF : 0 < 2 ^ f := by positivity
  have hF2 : 2 ^ (f + 1) = 2 * 2 ^ f := by ring
  unfold magUnits sigOf
  rw [← hfdef]
  rcases Nat.lt_or_ge sig (2 ^ f) with h1 | h1
  · have hq0 : q = 0 := by omega
    subst hq0
    simp [Nat.div_eq_of_lt h1]
  · rcases Nat.lt_or_ge sig (2 ^ (f + 1)) with h2 | h2
    · have hd : (q * 2 ^ f + sig) / 2 ^ f = q + 1 := by
        rw [Nat.add_comm, Nat.add_mul_div_right _ _ hF]
        have : sig / 2 ^ f = 1 := Nat.div_eq_of_lt_le (by omega) (by omega)
        omega
      have hm : (q * 2 ^ f + sig) % 2 ^ f = sig - 2 ^ f := by
        rw [Nat.add_comm, Nat.add_mul_mod_self_right, Nat.mod_eq_sub_mod h1, Nat.mod_eq_of_lt (by omega)]
      rw [hd, hm, if_neg (by omega), Nat.add_sub_cancel]
      congr 1
      omega
    · have hE : sig = 2 * 2 ^ f := by omega
      have hd : (q * 2 ^ f + sig) / 2 ^ f = q + 2 := by
        rw [hE, ← Nat.add_mul, Nat.mul_div_cancel _ hF]
      have hm : (q * 2 ^ f + sig) % 2 ^ f = 0 := by
        rw [hE, ← Nat.add_mul, Nat.mul_mod_left]
      rw [hd, hm, if_neg (by omega), hE]
      simp only [Nat.add_zero]
      rw [show q + 2 - 1 = q + 1 by omega, pow_succ 2 q]
      ring

/-- Every magnitude is such a join. -/
theorem mag_join (hf : 0 < fmt.fracBits) (p : Nat) :
    ∃ q sig, p = q * 2 ^ fmt.fracBits + sig ∧ sig < 2 ^ (fmt.fracBits + 1) ∧ (q = 0 ∨ 2 ^ fmt.fracBits ≤ sig) ∧
      q = p / 2 ^ fmt.fracBits - 1 ∧ sig = fmt.sigOf p := by
  set f := fmt.fracBits with hfdef
  have hF : 0 < 2 ^ f := by positivity
  have hF2 : 2 ^ (f + 1) = 2 * 2 ^ f := by ring
  have hdm := Nat.div_add_mod p (2 ^ f)
  have hlt := Nat.mod_lt p hF
  refine ⟨p / 2 ^ f - 1, fmt.sigOf p, ?_, ?_, ?_, rfl, rfl⟩ <;> unfold sigOf <;> rw [← hfdef] <;> split
  · rename_i h0; simp [h0]
  · rename_i h0
    obtain ⟨c, hc⟩ : ∃ c, p / 2 ^ f = c + 1 := ⟨p / 2 ^ f - 1, by generalize p / 2 ^ f = d at *; omega⟩
    rw [hc] at hdm ⊢
    rw [Nat.add_sub_cancel]
    nlinarith
  · rename_i h0
    have := (Nat.div_eq_zero_iff).1 h0
    omega
  · omega
  · rename_i h0; left; omega
  · right; omega

/-- The next magnitude is one unit of the significand larger. -/
theorem magUnits_succ (hf : 0 < fmt.fracBits) (p : Nat) :
    fmt.magUnits (p + 1) = fmt.magUnits p + 2 ^ (p / 2 ^ fmt.fracBits - 1) := by
  obtain ⟨q, sig, hp, hs, hq, hqd, -⟩ := mag_join hf p
  have h1 := magUnits_join hf (q := q) (sig := sig) (by omega) hq
  have h2 := magUnits_join hf (q := q) (sig := sig + 1) (by omega) (by omega)
  rw [← hqd, hp, h1, Nat.add_assoc, h2]
  ring

theorem magUnits_strictMono (hf : 0 < fmt.fracBits) : StrictMono fmt.magUnits := by
  refine strictMono_nat_of_lt_succ fun p => ?_
  rw [magUnits_succ hf]
  have : 0 < 2 ^ (p / 2 ^ fmt.fracBits - 1) := by positivity
  omega

@[simp] theorem magUnits_zero : fmt.magUnits 0 = 0 := by simp [magUnits, sigOf]

/-- A significand times a power of two has an encoding. -/
theorem exists_magUnits (hf : 0 < fmt.fracBits) {m j : Nat} (hm : m < 2 ^ (fmt.fracBits + 1)) :
    ∃ p, fmt.magUnits p = m * 2 ^ j := by
  induction j generalizing m with
  | zero => exact ⟨m, by simpa using magUnits_join hf (q := 0) (by omega) (.inl rfl)⟩
  | succ j ih =>
    by_cases h : m < 2 ^ fmt.fracBits
    · obtain ⟨p, hp⟩ := ih (m := m * 2) (by rw [pow_succ]; omega)
      exact ⟨p, by rw [hp, pow_succ]; ring⟩
    · exact ⟨(j + 1) * 2 ^ fmt.fracBits + m, magUnits_join hf (by omega) (.inr (by omega))⟩

/-- Two factors of one magnitude: `magUnits` read as significand and exponent. -/
theorem magUnits_eq (mag : Nat) : fmt.magUnits mag = fmt.sigOf mag * 2 ^ (mag / 2 ^ fmt.fracBits - 1) := rfl

theorem sigOf_pos {mag : Nat} (h : mag ≠ 0) : 0 < fmt.sigOf mag := by
  unfold sigOf
  split
  · omega
  · have : 0 < 2 ^ fmt.fracBits := by positivity
    omega

/-! ### Rounding -/

/-- Everything `roundShift` does. -/
theorem roundShift_eq (m k : Nat) :
    roundShift m k = if 2 * (m / 2 ^ k * 2 ^ k) + 2 ^ k < 2 * m ∨
      (2 * m = 2 * (m / 2 ^ k * 2 ^ k) + 2 ^ k ∧ m / 2 ^ k % 2 = 1) then m / 2 ^ k + 1 else m / 2 ^ k := by
  have h := Nat.div_add_mod m (2 ^ k)
  rw [Nat.mul_comm] at h
  unfold roundShift
  simp only
  congr 1
  simp only [eq_iff_iff]
  constructor <;> (intro hh; rcases hh with hh | hh <;> [left; right] <;> omega)

/-- Everything `roundMag` does: the exact value lies between two neighbouring encodings `p` and `p + 1` of the format
without its upper limit, and the nearer one is taken, the even one in a tie, limited to an infinity. The value is
`m * 2 ^ e`; both sides are scaled to natural numbers. Where `m` has three bits more than a significand, both
neighbours are multiples of `8 * 2 ^ e`, so that a sticky bit in `m` decides as the exact value does. -/
theorem roundMag_bracket (hf : 0 < fmt.fracBits) {m : Nat} (hm : 0 < m) (e : Int) :
    ∃ p, fmt.magUnits p * 2 ^ (fmt.minExp - e).toNat ≤ m * 2 ^ (e - fmt.minExp).toNat ∧
      m * 2 ^ (e - fmt.minExp).toNat < fmt.magUnits (p + 1) * 2 ^ (fmt.minExp - e).toNat ∧
      fmt.roundMag m e = min
        (if (fmt.magUnits p + fmt.magUnits (p + 1)) * 2 ^ (fmt.minExp - e).toNat < 2 * (m * 2 ^ (e - fmt.minExp).toNat) ∨
            (2 * (m * 2 ^ (e - fmt.minExp).toNat) =
              (fmt.magUnits p + fmt.magUnits (p + 1)) * 2 ^ (fmt.minExp - e).toNat ∧ p % 2 = 1)
          then p + 1 else p) fmt.infMag ∧
      (2 ^ (fmt.fracBits + 3) ≤ m → ∃ c, fmt.magUnits p * 2 ^ (fmt.minExp - e).toNat =
          8 * c * 2 ^ (e - fmt.minExp).toNat ∧
        ∃ c', fmt.magUnits (p + 1) * 2 ^ (fmt.minExp - e).toNat = 8 * c' * 2 ^ (e - fmt.minExp).toNat) := by
  set f := fmt.fracBits with hfdef
  set unit := max fmt.minExp (e + (m.log2 : Int) - f) with hunit
  have hlog1 : 2 ^ m.log2 ≤ m := Nat.log2_self_le (by omega)
  have hlog2 : m < 2 ^ (m.log2 + 1) := Nat.lt_log2_self
  have hF : 2 ^ (f + 1) = 2 * 2 ^ f := by ring
  have hmin : fmt.minExp ≤ unit := le_max_left _ _
  have hge : e + (m.log2 : Int) - f ≤ unit := le_max_right _ _
  have hor : unit = fmt.minExp ∨ unit = e + (m.log2 : Int) - f := by
    rw [hunit]; rcases max_choice fmt.minExp (e + (m.log2 : Int) - f) with h | h <;> simp [h]
  have hpos : ∀ k : Nat, 0 < 2 ^ k := fun k => by positivity
  have heven : ∀ q : Nat, (q * 2 ^ f) % 2 = 0 := fun q => by
    obtain ⟨g, hg⟩ : ∃ g, f = g + 1 := ⟨f - 1, by omega⟩
    rw [hg, pow_succ, ← Nat.mul_assoc, Nat.mul_mod_left]
  by_cases hue : unit ≤ e
  · -- the value is a whole number of units
    obtain ⟨k, hk⟩ : ∃ k : Nat, e - unit = k := ⟨(e - unit).toNat, by omega⟩
    obtain ⟨q, hq⟩ : ∃ q : Nat, unit - fmt.minExp = q := ⟨(unit - fmt.minExp).toNat, by omega⟩
    have hlk : m.log2 + k ≤ f := by omega
    have hsig : m * 2 ^ k < 2 ^ (f + 1) := by
      calc m * 2 ^ k < 2 ^ (m.log2 + 1) * 2 ^ k := by
            exact Nat.mul_lt_mul_of_pos_right hlog2 (hpos k)
        _ = 2 ^ (m.log2 + 1 + k) := by rw [pow_add _ (m.log2 + 1)]
        _ ≤ 2 ^ (f + 1) := Nat.pow_le_pow_right (by omega) (by omega)
    have hnorm : q = 0 ∨ 2 ^ f ≤ m * 2 ^ k := by
      rcases Nat.eq_zero_or_pos q with h | h
      · exact .inl h
      · right
        have : m.log2 + k = f := by omega
        calc 2 ^ f = 2 ^ m.log2 * 2 ^ k := by rw [← pow_add, this]
          _ ≤ m * 2 ^ k := Nat.mul_le_mul_right _ hlog1
    have hU := magUnits_join hf (q := q) (sig := m * 2 ^ k) hsig.le hnorm
    have e1 : (e - fmt.minExp).toNat = k + q := by omega
    have e2 : (fmt.minExp - e).toNat = 0 := by omega
    have hV : fmt.magUnits (q * 2 ^ f + m * 2 ^ k) = m * 2 ^ (e - fmt.minExp).toNat := by
      rw [hU, e1, pow_add]; ring
    have hlt : fmt.magUnits (q * 2 ^ f + m * 2 ^ k) < fmt.magUnits (q * 2 ^ f + m * 2 ^ k + 1) :=
      magUnits_strictMono hf (Nat.lt_succ_self _)
    refine ⟨q * 2 ^ f + m * 2 ^ k, ?_, ?_, ?_, fun hbig => ?_⟩
    · rw [e2, hV, pow_zero, Nat.mul_one]
    · rw [e2, ← hV]; simpa using hlt
    · rw [e2, ← hV, if_neg (by rw [pow_zero, Nat.mul_one]; omega)]
      unfold roundMag
      rw [if_neg (by omega)]
      simp only [← hfdef, ← hunit, if_pos hue]
      rw [show (unit - fmt.minExp).toNat = q by omega, show (e - unit).toNat = k by omega]
    · have := (Nat.pow_lt_pow_iff_right (by omega : 1 < 2)).1 (lt_of_le_of_lt hbig hlog2)
      omega
  · -- the value is cut to units
    obtain ⟨k, hk⟩ : ∃ k : Nat, unit - e = k := ⟨(unit - e).toNat, by omega⟩
    obtain ⟨q, hq⟩ : ∃ q : Nat, unit - fmt.minExp = q := ⟨(unit - fmt.minExp).toNat, by omega⟩
    have hlk : m.log2 ≤ f + k := by omega
    have hfl : m / 2 ^ k < 2 ^ (f + 1) := by
      rw [Nat.div_lt_iff_lt_mul (hpos k), ← pow_add]
      exact lt_of_lt_of_le hlog2 (Nat.pow_le_pow_right (by omega) (by omega))
    have hnorm : q = 0 ∨ 2 ^ f ≤ m / 2 ^ k := by
      rcases Nat.eq_zero_or_pos q with h | h
      · exact .inl h
      · right
        have : m.log2 = f + k := by omega
        rw [Nat.le_div_iff_mul_le (hpos k), ← pow_add, ← this]
        exact hlog1
    have hU := magUnits_join hf (q := q) (sig := m / 2 ^ k) hfl.le hnorm
    have hU1 := magUnits_join hf (q := q) (sig := m / 2 ^ k + 1) hfl
      (hnorm.imp_right fun h => Nat.le_succ_of_le h)
    rw [← Nat.add_assoc] at hU1
    -- `q - k = e - minExp`: compare in units of `2 ^ (-k)` of the cut value
    have hsplit : 2 ^ q * 2 ^ (fmt.minExp - e).toNat = 2 ^ k * 2 ^ (e - fmt.minExp).toNat := by
      rw [← pow_add, ← pow_add]; congr 1; omega
    set b := 2 ^ (fmt.minExp - e).toNat with hb
    set a := 2 ^ (e - fmt.minExp).toNat with ha
    have hapos : 0 < a := hpos _
    have hdm := Nat.div_add_mod m (2 ^ k)
    have hmod := Nat.mod_lt m (hpos k)
    set fl := m / 2 ^ k with hflr
    have hdm' : fl * 2 ^ k ≤ m ∧ m < (fl + 1) * 2 ^ k := by
      rw [Nat.add_mul, Nat.mul_comm fl]; omega
    have hUb : fmt.magUnits (q * 2 ^ f + fl) * b = fl * 2 ^ k * a := by
      rw [hU, Nat.mul_assoc, hsplit]; ring
    have hU1b : fmt.magUnits (q * 2 ^ f + fl + 1) * b = (fl + 1) * 2 ^ k * a := by
      rw [hU1, Nat.mul_assoc, hsplit]; ring
    have hpar : (q * 2 ^ f + fl) % 2 = fl % 2 := by
      rw [Nat.add_mod, heven]; simp
    refine ⟨q * 2 ^ f + fl, ?_, ?_, ?_, fun hbig => ?_⟩
    · rw [hUb]; exact Nat.mul_le_mul_right _ hdm'.1
    · rw [hU1b]; exact Nat.mul_lt_mul_of_pos_right hdm'.2 hapos
    · have hsum : (fmt.magUnits (q * 2 ^ f + fl) + fmt.magUnits (q * 2 ^ f + fl + 1)) * b =
          (2 * (fl * 2 ^ k) + 2 ^ k) * a := by
        rw [Nat.add_mul, hUb, hU1b]; ring
      have hc1 : (2 * (fl * 2 ^ k) + 2 ^ k) * a < 2 * (m * a) ↔ 2 * (fl * 2 ^ k) + 2 ^ k < 2 * m := by
        rw [← Nat.mul_assoc 2 m]; exact Nat.mul_lt_mul_right hapos
      have hc2 : 2 * (m * a) = (2 * (fl * 2 ^ k) + 2 ^ k) * a ↔ 2 * m = 2 * (fl * 2 ^ k) + 2 ^ k := by
        rw [← Nat.mul_assoc 2 m]; exact Nat.mul_left_inj (by omega)
      rw [hsum, hpar]
      simp only [hc1, hc2]
      unfold roundMag
      rw [if_neg (by omega)]
      simp only [← hfdef, ← hunit, if_neg hue]
      rw [show (unit - fmt.minExp).toNat = q by omega, show (unit - e).toNat = k by omega, roundShift_eq, ← hflr]
      congr 1
      split <;> omega
    · have hlog := (Nat.pow_lt_pow_iff_right (by omega : 1 < 2)).1 (lt_of_le_of_lt hbig hlog2)
      obtain ⟨l, rfl⟩ : ∃ l, k = l + 3 := ⟨k - 3, by omega⟩
      refine ⟨fl * 2 ^ l, ?_, (fl + 1) * 2 ^ l, ?_⟩
      · rw [hUb, pow_add]; ring
      · rw [hU1b, pow_add]; ring

theorem roundMag_le (m : Nat) (e : Int) : fmt.roundMag m e ≤ fmt.infMag := by
  unfold roundMag
  split
  · exact Nat.zero_le _
  · exact Nat.min_le_right _ _

@[simp] theorem roundMag_zero (e : Int) : fmt.roundMag 0 e = 0 := by simp [roundMag]

/-- A value that has an encoding rounds to it. -/
theorem roundMag_of_magUnits (hf : 0 < fmt.fracBits) {m p : Nat} {e : Int} (hp : p ≤ fmt.infMag)
    (h : fmt.magUnits p * 2 ^ (fmt.minExp - e).toNat = m * 2 ^ (e - fmt.minExp).toNat) : fmt.roundMag m e = p := by
  have hb : 0 < 2 ^ (fmt.minExp - e).toNat := by positivity
  rcases Nat.eq_zero_or_pos m with hm | hm
  · subst hm
    have h0 : fmt.magUnits p = fmt.magUnits 0 := by
      rw [magUnits_zero]
      simpa using h
    rw [roundMag_zero, (magUnits_strictMono hf).injective h0]
  · obtain ⟨q, h1, h2, h3, -⟩ := roundMag_bracket hf hm e
    rw [← h] at h1 h2 h3
    have hqp : fmt.magUnits q ≤ fmt.magUnits p := Nat.le_of_mul_le_mul_right h1 hb
    have hpq : fmt.magUnits p < fmt.magUnits (q + 1) := Nat.lt_of_mul_lt_mul_right h2
    have hq : q = p := by
      have h4 := (magUnits_strictMono hf).le_iff_le.1 hqp
      have h5 := (magUnits_strictMono hf).lt_iff_lt.1 hpq
      omega
    subst hq
    have hno : ¬ ((fmt.magUnits q + fmt.magUnits (q + 1)) * 2 ^ (fmt.minExp - e).toNat <
          2 * (fmt.magUnits q * 2 ^ (fmt.minExp - e).toNat) ∨
        (2 * (fmt.magUnits q * 2 ^ (fmt.minExp - e).toNat) =
          (fmt.magUnits q + fmt.magUnits (q + 1)) * 2 ^ (fmt.minExp - e).toNat ∧ q % 2 = 1)) := by
      have : 2 * (fmt.magUnits q * 2 ^ (fmt.minExp - e).toNat) <
          (fmt.magUnits q + fmt.magUnits (q + 1)) * 2 ^ (fmt.minExp - e).toNat := by
        rw [← Nat.mul_assoc]
        exact Nat.mul_lt_mul_of_pos_right (by omega) hb
      omega
    rw [h3, if_neg hno, Nat.min_eq_left hp]

end FloatFormat

/-! ### Packing -/

theorem pack64_toNat {s : Bool} {m : Nat} (h : m < 2 ^ 63) :
    (pack64 s m).toNat = (if s then 2 ^ 63 else 0) + m := by
  unfold pack64 FloatFormat.pack binary64
  rw [BitVec.toNat_ofNat, Nat.mod_eq_of_lt]
  · rfl
  · cases s <;> simp <;> omega

@[simp] theorem sign64_pack64 {s : Bool} {m : Nat} (h : m < 2 ^ 63) : sign64 (pack64 s m) = s := by
  unfold sign64 FloatFormat.signOf
  rw [pack64_toNat h]
  cases s <;> simp [binary64] <;> omega

@[simp] theorem mag64_pack64 {s : Bool} {m : Nat} (h : m < 2 ^ 63) : mag64 (pack64 s m) = m := by
  unfold mag64 FloatFormat.magOf
  rw [pack64_toNat h]
  cases s <;> simp [binary64] <;> omega

theorem pack32_toNat {s : Bool} {m : Nat} (h : m < 2 ^ 31) :
    (pack32 s m).toNat = (if s then 2 ^ 31 else 0) + m := by
  unfold pack32 FloatFormat.pack binary32
  rw [BitVec.toNat_ofNat, Nat.mod_eq_of_lt]
  · rfl
  · cases s <;> simp <;> omega

@[simp] theorem sign32_pack32 {s : Bool} {m : Nat} (h : m < 2 ^ 31) : sign32 (pack32 s m) = s := by
  unfold sign32 FloatFormat.signOf
  rw [pack32_toNat h]
  cases s <;> simp [binary32] <;> omega

@[simp] theorem mag32_pack32 {s : Bool} {m : Nat} (h : m < 2 ^ 31) : mag32 (pack32 s m) = m := by
  unfold mag32 FloatFormat.magOf
  rw [pack32_toNat h]
  cases s <;> simp [binary32] <;> omega

theorem mag64_lt (x : F64) : mag64 x < 2 ^ 63 := Nat.mod_lt _ (by norm_num [binary64])

theorem mag32_lt (s : F32) : mag32 s < 2 ^ 31 := Nat.mod_lt _ (by norm_num [binary32])

/-- A binary64 is its sign and its magnitude. -/
theorem pack64_sign_mag (x : F64) : pack64 (sign64 x) (mag64 x) = x := by
  apply BitVec.eq_of_toNat_eq
  rw [pack64_toNat (mag64_lt x)]
  have hx := x.isLt
  unfold sign64 mag64 FloatFormat.signOf FloatFormat.magOf
  simp only [binary64, show 64 - 1 = 63 by rfl]
  by_cases h : x.toNat / 2 ^ 63 % 2 = 1
  · simp only [h, decide_true, if_true]; omega
  · simp only [h, decide_false, Bool.false_eq_true, if_false]; omega

/-- A binary32 is its sign and its magnitude. -/
theorem pack32_sign_mag (s : F32) : pack32 (sign32 s) (mag32 s) = s := by
  apply BitVec.eq_of_toNat_eq
  rw [pack32_toNat (mag32_lt s)]
  have hx := s.isLt
  unfold sign32 mag32 FloatFormat.signOf FloatFormat.magOf
  simp only [binary32, show 32 - 1 = 31 by rfl]
  by_cases h : s.toNat / 2 ^ 31 % 2 = 1
  · simp only [h, decide_true, if_true]; omega
  · simp only [h, decide_false, Bool.false_eq_true, if_false]; omega

theorem infMag64 : binary64.infMag = 0x7FF0000000000000 := by decide

theorem infMag32 : binary32.infMag = 0x7F800000 := by decide

theorem isNaN64_iff (x : F64) : isNaN64 x = decide (0x7FF0000000000000 < mag64 x) := by
  unfold isNaN64 FloatFormat.isNaN mag64; rw [infMag64]

theorem isInf64_iff (x : F64) : isInf64 x = decide (mag64 x = 0x7FF0000000000000) := by
  unfold isInf64 FloatFormat.isInf mag64; rw [infMag64]

theorem isZero64_iff (x : F64) : isZero64 x = decide (mag64 x = 0) := rfl

theorem isNaN32_iff (s : F32) : isNaN32 s = decide (0x7F800000 < mag32 s) := by
  unfold isNaN32 FloatFormat.isNaN mag32; rw [infMag32]

theorem isInf32_iff (s : F32) : isInf32 s = decide (mag32 s = 0x7F800000) := by
  unfold isInf32 FloatFormat.isInf mag32; rw [infMag32]

/-- The value of a binary64 by sign and magnitude. -/
theorem units64_eq (x : F64) :
    units64 x = if sign64 x then -(binary64.magUnits (mag64 x) : Int) else binary64.magUnits (mag64 x) := rfl

/-- The value of a binary32 by sign and magnitude. -/
theorem units32_eq (s : F32) :
    units32 s = if sign32 s then -(binary32.magUnits (mag32 s) : Int) else binary32.magUnits (mag32 s) := rfl

theorem roundMag64_lt (m : Nat) (e : Int) : binary64.roundMag m e < 2 ^ 63 :=
  lt_of_le_of_lt (FloatFormat.roundMag_le m e) (by rw [infMag64]; norm_num)

theorem roundMag32_lt (m : Nat) (e : Int) : binary32.roundMag m e < 2 ^ 31 :=
  lt_of_le_of_lt (FloatFormat.roundMag_le m e) (by rw [infMag32]; norm_num)

@[simp] theorem sign64_round64 (s : Bool) (m : Nat) (e : Int) : sign64 (round64 s m e) = s :=
  sign64_pack64 (roundMag64_lt m e)

@[simp] theorem mag64_round64 (s : Bool) (m : Nat) (e : Int) : mag64 (round64 s m e) = binary64.roundMag m e :=
  mag64_pack64 (roundMag64_lt m e)

/-- A rounded result is no NaN. -/
@[simp] theorem isNaN64_round64 (s : Bool) (m : Nat) (e : Int) : isNaN64 (round64 s m e) = false := by
  rw [isNaN64_iff, mag64_round64]
  have := FloatFormat.roundMag_le (fmt := binary64) m e
  rw [infMag64] at this
  simpa using this

/-- A pattern made a NaN is one. -/
theorem isNaN64_toNaN64 (x : F64) : isNaN64 (toNaN64 x) = true := by
  unfold toNaN64
  by_cases h : isNaN64 x = true
  · rw [if_pos h, h]
  · rw [if_neg h, isNaN64_iff, decide_eq_true_eq]
    have h1 : mag64 (x ||| 0x7FF8000000000000#64) = ((x ||| 0x7FF8000000000000#64) &&& 0x7FFFFFFFFFFFFFFF#64).toNat := by
      rw [BitVec.toNat_and, show (0x7FFFFFFFFFFFFFFF#64).toNat = 2 ^ 63 - 1 by rfl, Nat.and_two_pow_sub_one_eq_mod]
      rfl
    have h2 : (x ||| 0x7FF8000000000000#64) &&& 0x7FFFFFFFFFFFFFFF#64 =
        (x &&& 0x7FFFFFFFFFFFFFFF#64) ||| 0x7FF8000000000000#64 := by
      rw [BitVec.and_or_distrib_right]; rfl
    rw [h1, h2, BitVec.toNat_or]
    exact lt_of_lt_of_le (by decide) Nat.right_le_or

theorem isNaN32_toNaN32 (s : F32) : isNaN32 (toNaN32 s) = true := by
  unfold toNaN32
  by_cases h : isNaN32 s = true
  · rw [if_pos h, h]
  · rw [if_neg h, isNaN32_iff, decide_eq_true_eq]
    have h1 : mag32 (s ||| 0x7FC00000#32) = ((s ||| 0x7FC00000#32) &&& 0x7FFFFFFF#32).toNat := by
      rw [BitVec.toNat_and, show (0x7FFFFFFF#32).toNat = 2 ^ 31 - 1 by rfl, Nat.and_two_pow_sub_one_eq_mod]
      rfl
    have h2 : (s ||| 0x7FC00000#32) &&& 0x7FFFFFFF#32 = (s &&& 0x7FFFFFFF#32) ||| 0x7FC00000#32 := by
      rw [BitVec.and_or_distrib_right]; rfl
    rw [h1, h2, BitVec.toNat_or]
    exact lt_of_lt_of_le (by decide) Nat.right_le_or

end Sys2Proof.Machine
end

