-- ==== Sys2Proof/Laws/Rounding.lean ====
section
/-! SUPPORT. Rounding to nearest as a relation (`RoundsTo`): it is scale free, monotone and unique, and `roundMag`
meets it, also where the last bit of its argument is a sticky bit. -/

namespace Sys2Proof.Machine

open Sys2Proof

variable {fmt : FloatFormat}

theorem roundsTo_of_bracket (hf : 0 < fmt.fracBits) {num den p : Nat} (hd : 0 < den)
    (h1 : fmt.magUnits p * den ≤ num) (h2 : num < fmt.magUnits (p + 1) * den) :
    RoundsTo fmt num den (min
      (if (fmt.magUnits p + fmt.magUnits (p + 1)) * den < 2 * num ∨
          (2 * num = (fmt.magUnits p + fmt.magUnits (p + 1)) * den ∧ p % 2 = 1) then p + 1 else p) fmt.infMag) := by
  refine ⟨_, rfl, fun q => ?_⟩
  have hmono := FloatFormat.magUnits_strictMono (fmt := fmt) hf
  have hq : (q < p ∧ fmt.magUnits q * den < fmt.magUnits p * den) ∨ q = p ∨ q = p + 1 ∨
      (p + 1 < q ∧ fmt.magUnits (p + 1) * den < fmt.magUnits q * den) := by
    rcases Nat.lt_trichotomy q p with h | h | h
    · exact .inl ⟨h, Nat.mul_lt_mul_of_pos_right (hmono h) hd⟩
    · exact .inr (.inl h)
    · rcases Nat.eq_or_lt_of_le h with h | h
      · exact .inr (.inr (.inl h.symm))
      · exact .inr (.inr (.inr ⟨h, Nat.mul_lt_mul_of_pos_right (hmono h) hd⟩))
  have hA : |((fmt.magUnits p * den : Nat) : Int) - num| = (num : Int) - (fmt.magUnits p * den : Nat) := by
    rw [abs_of_nonpos (by omega)]; omega
  have hB : |((fmt.magUnits (p + 1) * den : Nat) : Int) - num| = (fmt.magUnits (p + 1) * den : Nat) - (num : Int) :=
    abs_of_nonneg (by omega)
  have hX : fmt.magUnits q * den ≤ num → |((fmt.magUnits q * den : Nat) : Int) - num| =
      (num : Int) - (fmt.magUnits q * den : Nat) := fun h => by
    rw [abs_of_nonpos (by omega)]; omega
  have hY : num ≤ fmt.magUnits q * den → |((fmt.magUnits q * den : Nat) : Int) - num| =
      (fmt.magUnits q * den : Nat) - (num : Int) := fun h => abs_of_nonneg (by omega)
  rw [Nat.add_mul]
  simp only [← Nat.cast_mul]
  generalize hAA : fmt.magUnits p * den = A at *
  generalize hBB : fmt.magUnits (p + 1) * den = B at *
  split
  · rename_i hc
    rw [hBB, hB]
    rcases hq with ⟨hlt, hm⟩ | rfl | rfl | ⟨hlt, hm⟩
    · have := hX (by omega); constructor <;> omega
    · rw [hAA, hA]; constructor <;> omega
    · rw [hBB, hB]; exact ⟨le_rfl, fun _ h => absurd rfl h⟩
    · have := hY (by omega); constructor <;> omega
  · rename_i hc
    rw [hAA, hA]
    rcases hq with ⟨hlt, hm⟩ | rfl | rfl | ⟨hlt, hm⟩
    · have := hX (by omega); constructor <;> omega
    · rw [hAA, hA]; exact ⟨le_rfl, fun _ h => absurd rfl h⟩
    · rw [hBB, hB]; constructor <;> omega
    · have := hY (by omega); constructor <;> omega

theorem roundsTo_scale {num den mag c : Nat} (hc : 0 < c) :
    RoundsTo fmt (num * c) (den * c) mag ↔ RoundsTo fmt num den mag := by
  have h : ∀ p : Nat, |(fmt.magUnits p * (den * c : Nat) : Int) - (num * c : Nat)| =
      |(fmt.magUnits p * den : Int) - num| * c := fun p => by
    calc |(fmt.magUnits p * (den * c : Nat) : Int) - (num * c : Nat)|
        = |((fmt.magUnits p * den : Int) - num) * c| := by congr 1; push_cast; ring
      _ = |(fmt.magUnits p * den : Int) - num| * c := by rw [abs_mul, abs_of_nonneg (Int.natCast_nonneg c)]
  have hc' : (0 : Int) < c := by omega
  unfold RoundsTo
  simp only [h, mul_le_mul_iff_left₀ hc', mul_left_inj' hc'.ne']

/-- Rounding depends on the value of the fraction alone. -/
theorem roundsTo_congr {num den num' den' mag : Nat} (hd : 0 < den) (hd' : 0 < den') (h : num * den' = num' * den)
    (hr : RoundsTo fmt num den mag) : RoundsTo fmt num' den' mag := by
  rw [← roundsTo_scale hd', h, Nat.mul_comm den den'] at hr
  exact (roundsTo_scale hd).1 hr

/-- A value not above an encoding does not round above it. -/
theorem RoundsTo.le {num den mag P : Nat} (hf : 0 < fmt.fracBits) (hd : 0 < den) (h : RoundsTo fmt num den mag)
    (hP : num ≤ fmt.magUnits P * den) : mag ≤ P := by
  obtain ⟨r, rfl, hr⟩ := h
  refine (Nat.min_le_left _ _).trans ?_
  by_contra hlt
  have hm : fmt.magUnits P * den < fmt.magUnits r * den :=
    Nat.mul_lt_mul_of_pos_right (FloatFormat.magUnits_strictMono hf (by omega)) hd
  have := (hr P).1
  simp only [← Nat.cast_mul] at this
  rw [abs_of_nonneg (by omega), abs_of_nonneg (by omega)] at this
  omega

/-- A value not below an encoding does not round below it. -/
theorem RoundsTo.ge {num den mag P : Nat} (hf : 0 < fmt.fracBits) (hd : 0 < den) (h : RoundsTo fmt num den mag)
    (hP : fmt.magUnits P * den ≤ num) (hi : P ≤ fmt.infMag) : P ≤ mag := by
  obtain ⟨r, rfl, hr⟩ := h
  refine le_min ?_ hi
  by_contra hlt
  have hm : fmt.magUnits r * den < fmt.magUnits P * den :=
    Nat.mul_lt_mul_of_pos_right (FloatFormat.magUnits_strictMono hf (by omega)) hd
  have := (hr P).1
  simp only [← Nat.cast_mul] at this
  rw [abs_of_nonpos (by omega), abs_of_nonpos (by omega)] at this
  omega

/-- A value that has an encoding rounds to it alone. -/
theorem RoundsTo.eq_of_magUnits {num den mag P : Nat} (hf : 0 < fmt.fracBits) (hd : 0 < den)
    (h : RoundsTo fmt num den mag) (hP : fmt.magUnits P * den = num) (hi : P ≤ fmt.infMag) : mag = P :=
  le_antisymm (h.le hf hd hP.ge) (h.ge hf hd hP.le hi)

theorem RoundsTo.le_infMag {num den mag : Nat} (h : RoundsTo fmt num den mag) : mag ≤ fmt.infMag := by
  obtain ⟨r, rfl, -⟩ := h
  exact Nat.min_le_right _ _

/-- The nearest encoding, ties to even, is unique. -/
theorem RoundsTo.unique {num den m n : Nat} (hf : 0 < fmt.fracBits) (hd : 0 < den) (h : RoundsTo fmt num den m)
    (h' : RoundsTo fmt num den n) : m = n := by
  obtain ⟨r, rfl, hr⟩ := h
  obtain ⟨s, rfl, hs⟩ := h'
  suffices r = s by rw [this]
  by_contra hne
  have he : |(fmt.magUnits s * den : Int) - num| = |(fmt.magUnits r * den : Int) - num| :=
    le_antisymm (hs r).1 (hr s).1
  have h1 := (hr s).2 he (Ne.symm hne)
  have h2 := (hs r).2 he.symm hne
  -- both even, so a third encoding lies strictly between them
  have hmono := FloatFormat.magUnits_strictMono (fmt := fmt) hf
  have mid : ∀ u v : Nat, u < v → u % 2 = 0 → v % 2 = 0 →
      |(fmt.magUnits u * den : Int) - num| = |(fmt.magUnits v * den : Int) - num| →
      (∀ p : Nat, |(fmt.magUnits u * den : Int) - num| ≤ |(fmt.magUnits p * den : Int) - num|) → False := by
    intro u v huv hu hv hE hmin
    have a1 : fmt.magUnits u * den < fmt.magUnits (u + 1) * den :=
      Nat.mul_lt_mul_of_pos_right (hmono (by omega)) hd
    have a2 : fmt.magUnits (u + 1) * den < fmt.magUnits v * den :=
      Nat.mul_lt_mul_of_pos_right (hmono (by omega)) hd
    have hm := hmin (u + 1)
    simp only [← Nat.cast_mul] at hE hm
    generalize fmt.magUnits u * den = A at *
    generalize fmt.magUnits v * den = B at *
    generalize fmt.magUnits (u + 1) * den = C at *
    rcases abs_cases ((A : Int) - num) with ⟨x, _⟩ | ⟨x, _⟩ <;> rcases abs_cases ((B : Int) - num) with ⟨y, _⟩ | ⟨y, _⟩ <;>
      rcases abs_cases ((C : Int) - num) with ⟨z, _⟩ | ⟨z, _⟩ <;> omega
  rcases Nat.lt_or_gt_of_ne hne with h | h
  · exact mid r s h h1 h2 he.symm fun p => (hr p).1
  · exact mid s r h h2 h1 he fun p => (hs p).1

/-- `roundMag` rounds to nearest. -/
theorem roundMag_roundsTo (hf : 0 < fmt.fracBits) (m : Nat) (e : Int) :
    RoundsTo fmt (m * 2 ^ (e - fmt.minExp).toNat) (2 ^ (fmt.minExp - e).toNat) (fmt.roundMag m e) := by
  rcases Nat.eq_zero_or_pos m with rfl | hm
  · rw [FloatFormat.roundMag_zero, Nat.zero_mul]
    have h1 : fmt.magUnits 0 * 2 ^ (fmt.minExp - e).toNat ≤ 0 := by simp
    have h2 : 0 < fmt.magUnits (0 + 1) * 2 ^ (fmt.minExp - e).toNat := by
      have := FloatFormat.magUnits_strictMono (fmt := fmt) hf (show 0 < 0 + 1 by omega)
      have h3 : 0 < 2 ^ (fmt.minExp - e).toNat := by positivity
      exact Nat.mul_pos (by omega) h3
    simpa using roundsTo_of_bracket hf (by positivity) h1 h2
  · obtain ⟨p, h1, h2, h3, -⟩ := FloatFormat.roundMag_bracket hf hm e
    rw [h3]
    exact roundsTo_of_bracket hf (by positivity) h1 h2

/-- With three bits to spare, the quotient with a sticky bit rounds as the exact fraction does. -/
theorem roundMag_sticky_roundsTo (hf : 0 < fmt.fracBits) {num d : Nat} (hd : 0 < d) (e : Int)
    (hbig : 2 ^ (fmt.fracBits + 3) ≤ 2 * (num / d)) :
    RoundsTo fmt (2 * num * 2 ^ (e - fmt.minExp).toNat) (d * 2 ^ (fmt.minExp - e).toNat)
      (fmt.roundMag (2 * (num / d) + if num % d = 0 then 0 else 1) e) := by
  set m := 2 * (num / d) + if num % d = 0 then 0 else 1 with hm
  have hpos : 0 < m := by
    have : 0 < 2 ^ (fmt.fracBits + 3) := by positivity
    omega
  obtain ⟨p, h1, h2, h3, h4⟩ := FloatFormat.roundMag_bracket (fmt := fmt) hf hpos e
  obtain ⟨c, hc, c', hc'⟩ := h4 (by omega)
  set a := 2 ^ (e - fmt.minExp).toNat
  set b := 2 ^ (fmt.minExp - e).toNat
  have ha : 0 < a := by positivity
  have hb : 0 < b := by positivity
  -- a comparison of an even number with `m` is one with the exact fraction
  have hdm := Nat.div_add_mod num d
  have hml := Nat.mod_lt num hd
  have lt_iff : ∀ k, 2 * k < m ↔ 2 * k * d < 2 * num := fun k => by
    have : 2 * k * d < 2 * num ↔ k * d < num := by constructor <;> (intro h; nlinarith)
    rw [this, hm]
    rcases Nat.lt_trichotomy k (num / d) with h | h | h
    · have : k * d < num / d * d := Nat.mul_lt_mul_of_pos_right h hd
      rw [Nat.mul_comm d] at hdm
      constructor <;> intro _ <;> omega
    · rw [h, Nat.mul_comm (num / d)]
      split <;> omega
    · have : (num / d + 1) * d ≤ k * d := Nat.mul_le_mul_right _ h
      rw [Nat.add_mul, Nat.mul_comm (num / d)] at this
      split <;> constructor <;> intro _ <;> omega
  have eq_iff : ∀ k, m = 2 * k ↔ 2 * num = 2 * k * d := fun k => by
    have : 2 * num = 2 * k * d ↔ num = k * d := by constructor <;> (intro h; nlinarith)
    rw [this, hm]
    constructor
    · intro h
      split at h
      · have : k = num / d := by omega
        rw [this, Nat.mul_comm]; omega
      · omega
    · intro h
      have h5 : num % d = 0 := by rw [h]; exact Nat.mul_mod_left _ _
      have h6 : num / d = k := by rw [h]; exact Nat.mul_div_cancel _ hd
      rw [if_pos h5, h6]; omega
  have le_iff : ∀ k, 2 * k ≤ m ↔ 2 * k * d ≤ 2 * num := fun k => by
    have h5 := lt_iff k
    have h6 := eq_iff k
    constructor <;> intro h <;> rcases Nat.eq_or_lt_of_le h with h | h
    · exact (h6.1 h.symm).ge
    · exact (h5.1 h).le
    · exact (h6.2 h.symm).ge
    · exact (h5.2 h).le
  have scale : ∀ k x : Nat, (k * a * d < x * a ↔ k * d < x) ∧ (k * a * d ≤ x * a ↔ k * d ≤ x) ∧
      (x * a = k * a * d ↔ x = k * d) := fun k x => by
    rw [Nat.mul_right_comm k a d]
    exact ⟨Nat.mul_lt_mul_right ha, Nat.mul_le_mul_right_iff ha, Nat.mul_left_inj (by omega)⟩
  have cancel : ∀ k : Nat, (k * a ≤ m * a ↔ k ≤ m) ∧ (m * a < k * a ↔ m < k) ∧ (k * a < m * a ↔ k < m) ∧
      (m * a = k * a ↔ m = k) := fun k =>
    ⟨Nat.mul_le_mul_right_iff ha, Nat.mul_lt_mul_right ha, Nat.mul_lt_mul_right ha, Nat.mul_left_inj (by omega)⟩
  rw [hc] at h1
  rw [hc'] at h2
  have g1 : fmt.magUnits p * (d * b) ≤ 2 * num * a := by
    rw [Nat.mul_comm d, ← Nat.mul_assoc, hc]
    rw [(scale _ _).2.1, show 8 * c = 2 * (4 * c) by ring, ← le_iff, ← show 8 * c = 2 * (4 * c) by ring]
    exact (cancel _).1.1 h1
  have g2 : 2 * num * a < fmt.magUnits (p + 1) * (d * b) := by
    rw [Nat.mul_comm d, ← Nat.mul_assoc, hc', ← Nat.not_le]
    rw [(scale _ _).2.1, show 8 * c' = 2 * (4 * c') by ring, ← le_iff, ← show 8 * c' = 2 * (4 * c') by ring, Nat.not_le]
    exact (cancel _).2.1.1 h2
  have hsum : (fmt.magUnits p + fmt.magUnits (p + 1)) * b = 2 * (2 * (2 * (c + c'))) * a := by
    rw [Nat.add_mul, hc, hc']; ring
  have hsum' : (fmt.magUnits p + fmt.magUnits (p + 1)) * (d * b) = 2 * (2 * (2 * (c + c'))) * a * d := by
    rw [Nat.mul_comm d, ← Nat.mul_assoc, hsum]
  have key := roundsTo_of_bracket hf (Nat.mul_pos hd hb) g1 g2
  have c1 : (fmt.magUnits p + fmt.magUnits (p + 1)) * (d * b) < 2 * (2 * num * a) ↔
      (fmt.magUnits p + fmt.magUnits (p + 1)) * b < 2 * (m * a) := by
    rw [hsum, hsum', ← Nat.mul_assoc 2 (2 * num), (scale _ _).1]
    have h5 : 2 * (2 * (2 * (c + c'))) * d < 2 * (2 * num) ↔ 2 * (2 * (c + c')) * d < 2 * num := by
      rw [Nat.mul_assoc 2 (2 * (2 * (c + c')))]; omega
    have h6 : 2 * (2 * (2 * (c + c'))) * a < 2 * (m * a) ↔ 2 * (2 * (c + c')) * a < m * a := by
      rw [Nat.mul_assoc 2 (2 * (2 * (c + c')))]; omega
    rw [h5, h6, (cancel _).2.2.1, lt_iff]
  have c2 : 2 * (2 * num * a) = (fmt.magUnits p + fmt.magUnits (p + 1)) * (d * b) ↔
      2 * (m * a) = (fmt.magUnits p + fmt.magUnits (p + 1)) * b := by
    rw [hsum, hsum', ← Nat.mul_assoc 2 (2 * num), (scale _ _).2.2]
    have h5 : 2 * (2 * num) = 2 * (2 * (2 * (c + c'))) * d ↔ 2 * num = 2 * (2 * (c + c')) * d := by
      rw [Nat.mul_assoc 2 (2 * (2 * (c + c')))]; omega
    have h6 : 2 * (m * a) = 2 * (2 * (2 * (c + c'))) * a ↔ m * a = 2 * (2 * (c + c')) * a := by
      rw [Nat.mul_assoc 2 (2 * (2 * (c + c')))]; omega
    rw [h5, h6, (cancel _).2.2.2, eq_iff]
  simp only [c1, c2] at key
  rwa [h3]

end Sys2Proof.Machine
end

