-- ==== Sys2Proof/Laws/Arithmetic.lean ====
section
/-! SUPPORT. One spec lemma for each operation and conversion of Machine/Float.lean: its sign, and that its magnitude
is the exact result rounded to nearest; with the exact cases that the meanings rest on. -/

namespace Sys2Proof.Machine

open Sys2Proof

theorem frac64 : 0 < binary64.fracBits := by decide

theorem frac32 : 0 < binary32.fracBits := by decide

theorem two_pow_shift (n k : Nat) : 2 ^ ((n : Int) - k).toNat * 2 ^ k = 2 ^ n * 2 ^ ((k : Int) - n).toNat := by
  rw [← pow_add, ← pow_add]
  congr 1
  omega

/-! ### Values -/

/-- The exponent of a binary64 over that of the least subnormal. -/
def scale64 (x : F64) : Nat := mag64 x / 2 ^ 52 - 1

/-- The same for binary32. -/
def scale32 (s : F32) : Nat := mag32 s / 2 ^ 23 - 1

theorem exp64_eq (x : F64) : exp64 x = -1074 + (scale64 x : Int) := rfl

theorem exp32_eq (s : F32) : binary32.expOf (mag32 s) = -149 + (scale32 s : Int) := rfl

theorem magUnits_mag64 (x : F64) : binary64.magUnits (mag64 x) = sig64 x * 2 ^ scale64 x := rfl

theorem magUnits_mag32 (s : F32) : binary32.magUnits (mag32 s) = binary32.sigOf (mag32 s) * 2 ^ scale32 s := rfl

theorem natAbs_units64 (x : F64) : (units64 x).natAbs = sig64 x * 2 ^ scale64 x := by
  rw [units64_eq, ← magUnits_mag64]
  split
  · rw [Int.natAbs_neg, Int.natAbs_natCast]
  · rw [Int.natAbs_natCast]

theorem natAbs_units32 (s : F32) : (units32 s).natAbs = binary32.sigOf (mag32 s) * 2 ^ scale32 s := by
  rw [units32_eq, ← magUnits_mag32]
  split
  · rw [Int.natAbs_neg, Int.natAbs_natCast]
  · rw [Int.natAbs_natCast]

/-- A value is its sign and its magnitude. -/
theorem units64_sign (x : F64) :
    units64 x = if sign64 x then -((units64 x).natAbs : Int) else (units64 x).natAbs := by
  rw [natAbs_units64, ← magUnits_mag64, units64_eq]

theorem units32_sign (s : F32) :
    units32 s = if sign32 s then -((units32 s).natAbs : Int) else (units32 s).natAbs := by
  rw [natAbs_units32, ← magUnits_mag32, units32_eq]

theorem magUnits_eq_zero {fmt : FloatFormat} {m : Nat} : fmt.magUnits m = 0 ↔ m = 0 := by
  constructor
  · intro h
    by_contra hm
    have h1 := FloatFormat.sigOf_pos (fmt := fmt) hm
    have h2 : 0 < 2 ^ (m / 2 ^ fmt.fracBits - 1) := by positivity
    have : 0 < fmt.magUnits m := Nat.mul_pos h1 h2
    omega
  · rintro rfl
    exact FloatFormat.magUnits_zero

theorem units64_eq_zero (x : F64) : units64 x = 0 ↔ mag64 x = 0 := by
  rw [← Int.natAbs_eq_zero, natAbs_units64, ← magUnits_mag64, magUnits_eq_zero]

theorem units32_eq_zero (s : F32) : units32 s = 0 ↔ mag32 s = 0 := by
  rw [← Int.natAbs_eq_zero, natAbs_units32, ← magUnits_mag32, magUnits_eq_zero]

theorem sig64_eq_zero (x : F64) : sig64 x = 0 ↔ mag64 x = 0 := by
  constructor
  · intro h
    by_contra hm
    have := FloatFormat.sigOf_pos (fmt := binary64) hm
    unfold sig64 at h
    omega
  · intro h
    unfold sig64
    rw [h]
    rfl

theorem sig64_lt (x : F64) : sig64 x < 2 ^ 53 := by
  obtain ⟨-, s, -, h, -, -, hs⟩ := FloatFormat.mag_join (fmt := binary64) frac64 (mag64 x)
  unfold sig64
  rw [← hs]
  exact h

theorem sig32_lt (s : F32) : binary32.sigOf (mag32 s) < 2 ^ 24 := by
  obtain ⟨-, g, -, h, -, -, hs⟩ := FloatFormat.mag_join (fmt := binary32) frac32 (mag32 s)
  rw [← hs]
  exact h

/-- Equal sign and magnitude make equal values. -/
theorem eq_of_sign_mag64 {x y : F64} (hs : sign64 x = sign64 y) (hm : mag64 x = mag64 y) : x = y := by
  rw [← pack64_sign_mag x, ← pack64_sign_mag y, hs, hm]

theorem eq_of_sign_mag32 {s t : F32} (hs : sign32 s = sign32 t) (hm : mag32 s = mag32 t) : s = t := by
  rw [← pack32_sign_mag s, ← pack32_sign_mag t, hs, hm]

theorem finite64_iff (x : F64) : Finite64 x ↔ mag64 x < 0x7FF0000000000000 := by
  unfold Finite64
  rw [isNaN64_iff, isInf64_iff, decide_eq_false_iff_not, decide_eq_false_iff_not]
  omega

theorem finite32_iff (s : F32) : Finite32 s ↔ mag32 s < 0x7F800000 := by
  unfold Finite32
  rw [isNaN32_iff, isInf32_iff, decide_eq_false_iff_not, decide_eq_false_iff_not]
  omega

/-! ### The operations on finite values -/

theorem mul64_eq {x y : F64} (hx : Finite64 x) (hy : Finite64 y) :
    mul64 x y = round64 (sign64 x != sign64 y) (sig64 x * sig64 y) (exp64 x + exp64 y) := by
  unfold mul64
  simp [hx.1, hx.2, hy.1, hy.2]

/-- Everything `mul64` does on finite operands (rule R9). -/
theorem mul64_spec {x y : F64} (hx : Finite64 x) (hy : Finite64 y) :
    sign64 (mul64 x y) = (sign64 x != sign64 y) ∧ isNaN64 (mul64 x y) = false ∧
      RoundsTo binary64 (units64 x * units64 y).natAbs (2 ^ 1074) (mag64 (mul64 x y)) := by
  rw [mul64_eq hx hy, sign64_round64, mag64_round64]
  refine ⟨rfl, isNaN64_round64 _ _ _, ?_⟩
  refine roundsTo_congr (by positivity) (by positivity) ?_ (roundMag_roundsTo frac64 _ _)
  have h := two_pow_shift (scale64 x + scale64 y) 1074
  have e1 : exp64 x + exp64 y - binary64.minExp = ((scale64 x + scale64 y : Nat) : Int) - (1074 : Nat) := by
    rw [exp64_eq, exp64_eq]; simp only [binary64]; push_cast; ring
  have e2 : binary64.minExp - (exp64 x + exp64 y) = ((1074 : Nat) : Int) - ((scale64 x + scale64 y : Nat) : Int) := by
    rw [exp64_eq, exp64_eq]; simp only [binary64]; push_cast; ring
  rw [e1, e2, Int.natAbs_mul, natAbs_units64, natAbs_units64, Nat.mul_assoc, h, pow_add]
  ring

theorem div64_eq {x y : F64} (hx : Finite64 x) (hy : Finite64 y) (h0 : units64 y ≠ 0) :
    div64 x y = round64 (sign64 x != sign64 y)
      (2 * (sig64 x * 2 ^ 110 / sig64 y) + if sig64 x * 2 ^ 110 % sig64 y = 0 then 0 else 1)
      (exp64 x - exp64 y - 111) := by
  have hz : isZero64 y = false := by
    rw [isZero64_iff, decide_eq_false_iff_not, ← units64_eq_zero]; exact h0
  unfold div64
  simp [hx.1, hx.2, hy.1, hy.2, hz, divShift]
  rfl

/-- Everything `div64` does on finite operands, the divisor not zero (rule R9). -/
theorem div64_spec {x y : F64} (hx : Finite64 x) (hy : Finite64 y) (h0 : units64 y ≠ 0) :
    sign64 (div64 x y) = (sign64 x != sign64 y) ∧ isNaN64 (div64 x y) = false ∧
      RoundsTo binary64 ((units64 x).natAbs * 2 ^ 1074) (units64 y).natAbs (mag64 (div64 x y)) := by
  rw [div64_eq hx hy h0, sign64_round64, mag64_round64]
  refine ⟨rfl, isNaN64_round64 _ _ _, ?_⟩
  have hsy : 0 < sig64 y := by
    rcases Nat.eq_zero_or_pos (sig64 y) with h | h
    · exact absurd ((units64_eq_zero y).2 ((sig64_eq_zero y).1 h)) h0
    · exact h
  have huy : 0 < (units64 y).natAbs := by omega
  rcases Nat.eq_zero_or_pos (sig64 x) with hsx | hsx
  · rw [natAbs_units64 x, hsx]
    have h := roundMag_roundsTo frac64 0 0
    simp only [Nat.zero_mul, Nat.zero_div, Nat.zero_mod, if_true, Nat.mul_zero, Nat.add_zero,
      FloatFormat.roundMag_zero] at h ⊢
    exact roundsTo_congr (by positivity) huy (by simp) h
  · have hbig : 2 ^ (binary64.fracBits + 3) ≤ 2 * (sig64 x * 2 ^ 110 / sig64 y) := by
      have h1 : 2 ^ 54 ≤ sig64 x * 2 ^ 110 / sig64 y := by
        rw [Nat.le_div_iff_mul_le hsy]
        have := sig64_lt y
        calc 2 ^ 54 * sig64 y ≤ 2 ^ 54 * 2 ^ 53 := Nat.mul_le_mul_left _ this.le
          _ ≤ 1 * 2 ^ 110 := by norm_num
          _ ≤ sig64 x * 2 ^ 110 := Nat.mul_le_mul_right _ hsx
      simp only [binary64]
      omega
    refine roundsTo_congr (Nat.mul_pos hsy (by positivity)) huy ?_ (roundMag_sticky_roundsTo frac64 hsy _ hbig)
    have e1 : exp64 x - exp64 y - 111 - binary64.minExp =
        ((scale64 x + 1074 : Nat) : Int) - ((scale64 y + 111 : Nat) : Int) := by
      rw [exp64_eq, exp64_eq]; simp only [binary64]; push_cast; ring
    have e2 : binary64.minExp - (exp64 x - exp64 y - 111) =
        ((scale64 y + 111 : Nat) : Int) - ((scale64 x + 1074 : Nat) : Int) := by
      rw [exp64_eq, exp64_eq]; simp only [binary64]; push_cast; ring
    have h := two_pow_shift (scale64 x + 1074) (scale64 y + 111)
    rw [e1, e2, natAbs_units64, natAbs_units64]
    have e3 : 2 ^ (scale64 y + 111) = 2 ^ scale64 y * (2 * 2 ^ 110) := by rw [pow_add]; norm_num
    rw [e3, pow_add _ (scale64 x)] at h
    generalize (2 : Nat) ^ 1074 = K at *
    generalize (2 : Nat) ^ 110 = L at *
    generalize 2 ^ (((scale64 x + 1074 : Nat) : Int) - ((scale64 y + 111 : Nat) : Int)).toNat = P at *
    generalize 2 ^ (((scale64 y + 111 : Nat) : Int) - ((scale64 x + 1074 : Nat) : Int)).toNat = Q at *
    calc 2 * (sig64 x * L) * P * (sig64 y * 2 ^ scale64 y)
        = sig64 x * sig64 y * (P * (2 ^ scale64 y * (2 * L))) := by ring
      _ = sig64 x * sig64 y * (2 ^ scale64 x * K * Q) := by rw [h]
      _ = _ := by ring

theorem scaled64_eq (x : F64) {e : Int} (h : -1074 ≤ e) (hx : e ≤ exp64 x) :
    scaled64 x e * 2 ^ (e + 1074).toNat = units64 x := by
  have he := exp64_eq x
  have hp : sig64 x * 2 ^ (exp64 x - e).toNat * 2 ^ (e + 1074).toNat = sig64 x * 2 ^ scale64 x := by
    rw [Nat.mul_assoc, ← pow_add]
    congr 2
    omega
  rw [units64_sign, natAbs_units64, ← hp]
  unfold scaled64
  simp only
  split <;> push_cast <;> ring

/-- What an addition of finite values does, and a subtraction after its operand is negated. -/
theorem addCore64_spec (nan : F64) {x y : F64} (hx : Finite64 x) (hy : Finite64 y) :
    isNaN64 (addCore64 nan x y) = false ∧
      RoundsTo binary64 (units64 x + units64 y).natAbs 1 (mag64 (addCore64 nan x y)) ∧
      (units64 x + units64 y ≠ 0 → sign64 (addCore64 nan x y) = decide (units64 x + units64 y < 0)) ∧
      (units64 x + units64 y = 0 → sign64 (addCore64 nan x y) = (sign64 x && sign64 y)) := by
  have hmin : -1074 ≤ min (exp64 x) (exp64 y) := by
    rw [exp64_eq, exp64_eq]
    omega
  have h1 := scaled64_eq x hmin (min_le_left _ _)
  have h2 := scaled64_eq y hmin (min_le_right _ _)
  unfold addCore64
  simp only [hx.2, hy.2, Bool.false_eq_true, if_false]
  generalize min (exp64 x) (exp64 y) = e at *
  generalize hS : scaled64 x e + scaled64 y e = S
  have hsum : units64 x + units64 y = S * 2 ^ (e + 1074).toNat := by rw [← h1, ← h2, ← hS]; ring
  have hpow : (0 : Int) < 2 ^ (e + 1074).toNat := by positivity
  rw [hsum]
  by_cases h0 : S = 0
  · rw [if_pos h0, h0]
    have hN : isNaN64 (pack64 (sign64 x && sign64 y) 0) = false := by
      rw [isNaN64_iff, mag64_pack64 (by norm_num)]; rfl
    refine ⟨hN, ?_, fun h => absurd (by simp) h, fun _ => sign64_pack64 (by norm_num)⟩
    rw [mag64_pack64 (by norm_num)]
    have h := roundMag_roundsTo frac64 0 0
    simp only [Nat.zero_mul, FloatFormat.roundMag_zero] at h
    exact roundsTo_congr (by positivity) (by norm_num) (by simp) h
  · rw [if_neg h0]
    refine ⟨isNaN64_round64 _ _ _, ?_, fun _ => ?_, fun h => ?_⟩
    · rw [mag64_round64]
      have e2 : (binary64.minExp - e).toNat = 0 := by simp only [binary64]; omega
      have h := roundMag_roundsTo frac64 S.natAbs e
      rw [e2] at h
      have e1 : e - binary64.minExp = e + 1074 := by simp only [binary64]; ring
      rw [e1] at h
      refine roundsTo_congr (by positivity) (by norm_num) ?_ h
      rw [Int.natAbs_mul, Int.natAbs_pow]
      rfl
    · rw [sign64_round64]
      congr 1
      rw [eq_iff_iff]
      constructor
      · intro h; exact mul_neg_of_neg_of_pos h hpow
      · intro h; by_contra hge; exact absurd h (not_lt.2 (mul_nonneg (not_lt.1 hge) hpow.le))
    · rcases mul_eq_zero.1 h with h | h
      · exact absurd h h0
      · exact absurd h hpow.ne'

theorem add64_spec {x y : F64} (hx : Finite64 x) (hy : Finite64 y) :
    isNaN64 (add64 x y) = false ∧
      RoundsTo binary64 (units64 x + units64 y).natAbs 1 (mag64 (add64 x y)) ∧
      (units64 x + units64 y ≠ 0 → sign64 (add64 x y) = decide (units64 x + units64 y < 0)) ∧
      (units64 x + units64 y = 0 → sign64 (add64 x y) = (sign64 x && sign64 y)) := by
  unfold add64
  simp only [hx.1, hy.1, Bool.or_self, Bool.false_eq_true, if_false]
  exact addCore64_spec _ hx hy

/-! ### Signs -/

theorem mag64_eq_and (x : F64) : mag64 x = (x &&& 0x7FFFFFFFFFFFFFFF#64).toNat := by
  rw [BitVec.toNat_and, show (0x7FFFFFFFFFFFFFFF#64).toNat = 2 ^ 63 - 1 by rfl, Nat.and_two_pow_sub_one_eq_mod]
  rfl

theorem sign64_eq_msb (x : F64) : sign64 x = x.msb := by
  unfold sign64 FloatFormat.signOf
  rw [BitVec.msb_eq_decide]
  have := x.isLt
  congr 1
  rw [eq_iff_iff]
  simp only [binary64]
  omega

theorem mag32_eq_and (s : F32) : mag32 s = (s &&& 0x7FFFFFFF#32).toNat := by
  rw [BitVec.toNat_and, show (0x7FFFFFFF#32).toNat = 2 ^ 31 - 1 by rfl, Nat.and_two_pow_sub_one_eq_mod]
  rfl

theorem sign32_eq_msb (s : F32) : sign32 s = s.msb := by
  unfold sign32 FloatFormat.signOf
  rw [BitVec.msb_eq_decide]
  have := s.isLt
  congr 1
  rw [eq_iff_iff]
  simp only [binary32]
  omega

@[simp] theorem mag64_neg64 (x : F64) : mag64 (neg64 x) = mag64 x := by
  rw [mag64_eq_and, mag64_eq_and, neg64]
  congr 1
  ext i hi
  have h : (0x8000000000000000#64 &&& 0x7FFFFFFFFFFFFFFF#64)[i] = (0#64)[i] := by congr 1
  rw [BitVec.getElem_and, BitVec.getElem_zero] at h
  rw [BitVec.getElem_and, BitVec.getElem_and, BitVec.getElem_xor, Bool.and_xor_distrib_right, h, Bool.xor_false]

@[simp] theorem sign64_neg64 (x : F64) : sign64 (neg64 x) = !sign64 x := by
  rw [sign64_eq_msb, sign64_eq_msb, neg64, BitVec.msb_xor, show (0x8000000000000000#64).msb = true by decide,
    Bool.xor_true]

@[simp] theorem mag64_abs64 (x : F64) : mag64 (abs64 x) = mag64 x := by
  rw [mag64_eq_and, mag64_eq_and, abs64, BitVec.and_assoc, BitVec.and_self]

@[simp] theorem sign64_abs64 (x : F64) : sign64 (abs64 x) = false := by
  rw [sign64_eq_msb, abs64, BitVec.msb_and, show (0x7FFFFFFFFFFFFFFF#64).msb = false by decide, Bool.and_false]

theorem finite64_neg64 (x : F64) : Finite64 (neg64 x) ↔ Finite64 x := by
  rw [finite64_iff, finite64_iff, mag64_neg64]

theorem finite64_abs64 (x : F64) : Finite64 (abs64 x) ↔ Finite64 x := by
  rw [finite64_iff, finite64_iff, mag64_abs64]

theorem units64_neg64 (x : F64) : units64 (neg64 x) = -units64 x := by
  rw [units64_eq, units64_eq, mag64_neg64, sign64_neg64]
  cases sign64 x <;> simp

theorem sub64_spec {x y : F64} (hx : Finite64 x) (hy : Finite64 y) :
    isNaN64 (sub64 x y) = false ∧
      RoundsTo binary64 (units64 x - units64 y).natAbs 1 (mag64 (sub64 x y)) ∧
      (units64 x - units64 y ≠ 0 → sign64 (sub64 x y) = decide (units64 x - units64 y < 0)) ∧
      (units64 x - units64 y = 0 → sign64 (sub64 x y) = (sign64 x && !sign64 y)) := by
  unfold sub64
  simp only [hx.1, hy.1, Bool.or_self, Bool.false_eq_true, if_false]
  have := addCore64_spec (nanResult .sub x y) hx ((finite64_neg64 y).2 hy)
  rwa [units64_neg64, ← sub_eq_add_neg, sign64_neg64] at this

/-! ### Comparison -/

theorem key64_lt_iff (x y : F64) : key64 x < key64 y ↔ units64 x < units64 y := by
  have hm := FloatFormat.magUnits_strictMono (fmt := binary64) frac64
  have h1 := hm.lt_iff_lt (a := mag64 x) (b := mag64 y)
  have h2 := hm.lt_iff_lt (a := mag64 y) (b := mag64 x)
  have h3 := magUnits_eq_zero (fmt := binary64) (m := mag64 x)
  have h4 := magUnits_eq_zero (fmt := binary64) (m := mag64 y)
  rw [units64_eq, units64_eq]
  unfold key64
  cases sign64 x <;> cases sign64 y <;> simp only [Bool.false_eq_true, if_true, if_false] <;> omega

theorem lt64_iff {x y : F64} (hx : isNaN64 x = false) (hy : isNaN64 y = false) :
    lt64 x y = true ↔ units64 x < units64 y := by
  unfold lt64
  simp [hx, hy, key64_lt_iff]

/-! ### Conversions -/

/-- Everything `f64OfInt` does (rule R11). -/
theorem f64OfInt_spec (k : Int) :
    sign64 (f64OfInt k) = decide (k < 0) ∧ isNaN64 (f64OfInt k) = false ∧
      RoundsTo binary64 (k.natAbs * 2 ^ 1074) 1 (mag64 (f64OfInt k)) := by
  unfold f64OfInt
  rw [sign64_round64, mag64_round64]
  refine ⟨rfl, isNaN64_round64 _ _ _, ?_⟩
  have h := roundMag_roundsTo frac64 k.natAbs 0
  have e1 : (0 - binary64.minExp).toNat = 1074 := by decide
  have e2 : (binary64.minExp - 0).toNat = 0 := by decide
  rwa [e1, e2] at h

/-- Everything `f64OfF32` does on a finite value (rule R11): it is exact. -/
theorem f64OfF32_spec {s : F32} (hs : Finite32 s) :
    sign64 (f64OfF32 s) = sign32 s ∧ Finite64 (f64OfF32 s) ∧ units64 (f64OfF32 s) = units32 s * 2 ^ 925 := by
  have hmag := (finite32_iff s).1 hs
  have he : f64OfF32 s = round64 (sign32 s) (binary32.sigOf (mag32 s)) (binary32.expOf (mag32 s)) := by
    unfold f64OfF32
    simp [hs.1, hs.2]
  have hsc : scale32 s ≤ 253 := by unfold scale32; omega
  have hsig := sig32_lt s
  obtain ⟨p, hp⟩ := FloatFormat.exists_magUnits (fmt := binary64) frac64 (m := binary32.sigOf (mag32 s))
    (j := scale32 s + 925) (hsig.trans (by norm_num [binary64]))
  have hlt : p < binary64.infMag := by
    rw [← (FloatFormat.magUnits_strictMono (fmt := binary64) frac64).lt_iff_lt, hp]
    have hinf : binary64.magUnits binary64.infMag = 2 ^ 52 * 2 ^ 2046 := by decide +kernel
    rw [hinf, ← pow_add]
    calc binary32.sigOf (mag32 s) * 2 ^ (scale32 s + 925)
        < 2 ^ 24 * 2 ^ (scale32 s + 925) := Nat.mul_lt_mul_of_pos_right hsig (by positivity)
      _ = 2 ^ (24 + (scale32 s + 925)) := by rw [pow_add 2 24]
      _ ≤ 2 ^ (52 + 2046) := Nat.pow_le_pow_right (by norm_num) (by omega)
  have hr : binary64.roundMag (binary32.sigOf (mag32 s)) (binary32.expOf (mag32 s)) = p := by
    refine FloatFormat.roundMag_of_magUnits frac64 hlt.le ?_
    rw [exp32_eq, hp]
    have e1 : (binary64.minExp - (-149 + (scale32 s : Int))).toNat = 0 := by simp only [binary64]; omega
    have e2 : (-149 + (scale32 s : Int) - binary64.minExp).toNat = scale32 s + 925 := by simp only [binary64]; omega
    rw [e1, e2, pow_zero, Nat.mul_one]
  have hsign : sign64 (f64OfF32 s) = sign32 s := by rw [he, sign64_round64]
  have hmag64 : mag64 (f64OfF32 s) = p := by rw [he, mag64_round64, hr]
  refine ⟨hsign, ?_, ?_⟩
  · rw [finite64_iff, hmag64]
    rw [infMag64] at hlt
    exact hlt
  · rw [units64_eq, units32_eq, hsign, hmag64, hp, magUnits_mag32, pow_add]
    split <;> push_cast <;> ring

/-- Everything `f32OfF64` does on a finite value (rule R11). -/
theorem f32OfF64_spec {x : F64} (hx : Finite64 x) :
    sign32 (f32OfF64 x) = sign64 x ∧ isNaN32 (f32OfF64 x) = false ∧
      RoundsTo binary32 (units64 x).natAbs (2 ^ 925) (mag32 (f32OfF64 x)) := by
  have he : f32OfF64 x = pack32 (sign64 x) (binary32.roundMag (sig64 x) (exp64 x)) := by
    unfold f32OfF64
    simp [hx.1, hx.2]
  have hr : RoundsTo binary32 (units64 x).natAbs (2 ^ 925) (binary32.roundMag (sig64 x) (exp64 x)) := by
    refine roundsTo_congr (by positivity) (by positivity) ?_ (roundMag_roundsTo frac32 _ _)
    have e1 : exp64 x - binary32.minExp = ((scale64 x : Nat) : Int) - (925 : Nat) := by
      rw [exp64_eq]; simp only [binary32]; push_cast; ring
    have e2 : binary32.minExp - exp64 x = ((925 : Nat) : Int) - ((scale64 x : Nat) : Int) := by
      rw [exp64_eq]; simp only [binary32]; push_cast; ring
    rw [e1, e2, natAbs_units64, Nat.mul_assoc, two_pow_shift (scale64 x) 925]
    ring
  rw [he]
  refine ⟨sign32_pack32 (roundMag32_lt _ _), ?_, ?_⟩
  · rw [isNaN32_iff, mag32_pack32 (roundMag32_lt _ _)]
    have := hr.le_infMag
    rw [infMag32] at this
    simpa using this
  · rwa [mag32_pack32 (roundMag32_lt _ _)]

theorem intPart64_eq (x : F64) : intPart64 x = (units64 x).natAbs / 2 ^ 1074 := by
  have he := exp64_eq x
  rw [natAbs_units64]
  unfold intPart64
  split
  · rename_i h
    obtain ⟨t, ht⟩ : ∃ t, scale64 x = t + 1074 := ⟨scale64 x - 1074, by omega⟩
    have : (exp64 x).toNat = t := by omega
    rw [this, ht, pow_add, ← Nat.mul_assoc, Nat.mul_div_cancel _ (by positivity)]
  · rename_i h
    have : 1074 = scale64 x + (-exp64 x).toNat := by omega
    conv_rhs => rw [this, pow_add, Nat.mul_comm (sig64 x), Nat.mul_div_mul_left _ _ (by positivity : 0 < 2 ^ scale64 x)]

/-- Everything `truncInt` does on a finite value (rule R13). -/
theorem truncInt_finite {x : F64} (hx : Finite64 x) :
    truncInt x = max (-(2 ^ 63)) (min (2 ^ 63 - 1) ((units64 x).tdiv (2 ^ 1074))) := by
  have h := units64_sign x
  have hc : (2 : Int) ^ 1074 = ((2 ^ 1074 : Nat) : Int) := by rw [Nat.cast_pow]; rfl
  unfold truncInt
  simp only [hx.1, hx.2, Bool.false_eq_true, if_false]
  rw [intPart64_eq]
  by_cases hs : sign64 x = true
  · rw [if_pos hs] at h ⊢
    conv_rhs => rw [h]
    rw [Int.neg_tdiv, hc, ← Int.ofNat_tdiv]
    generalize (units64 x).natAbs / 2 ^ 1074 = q
    omega
  · rw [if_neg hs] at h ⊢
    conv_rhs => rw [h]
    rw [hc, ← Int.ofNat_tdiv]
    generalize (units64 x).natAbs / 2 ^ 1074 = q
    omega

theorem truncInt_range (x : F64) : -(2 ^ 63) ≤ truncInt x ∧ truncInt x < 2 ^ 63 := by
  unfold truncInt
  split
  · omega
  · split
    · split <;> omega
    · split <;> omega

theorem truncI64_toInt (x : F64) : (truncI64 x).toInt = truncInt x := by
  have h := truncInt_range x
  unfold truncI64
  rw [BitVec.toInt_ofInt]
  exact Int.bmod_eq_of_le (by omega) (by omega)

/-! ### Full scale -/

theorem fullScale_eq {bits : Nat} (h : bits ≤ 64) : fullScale bits = pack64 false ((1022 + bits) * 2 ^ 52) := by
  apply BitVec.eq_of_toNat_eq
  rw [pack64_toNat (by omega), fullScale, BitVec.toNat_shiftLeft, BitVec.toNat_ofNat, Nat.shiftLeft_eq]
  simp only [Bool.false_eq_true, if_false]
  omega

theorem sign64_fullScale {bits : Nat} (h : bits ≤ 64) : sign64 (fullScale bits) = false := by
  rw [fullScale_eq h, sign64_pack64 (by omega)]

theorem mag64_fullScale {bits : Nat} (h : bits ≤ 64) : mag64 (fullScale bits) = (1022 + bits) * 2 ^ 52 := by
  rw [fullScale_eq h, mag64_pack64 (by omega)]

theorem finite64_fullScale {bits : Nat} (h : bits ≤ 64) : Finite64 (fullScale bits) := by
  rw [finite64_iff, mag64_fullScale h]
  omega

/-- Full scale is exactly `2 ^ (bits - 1)` (rule R80). -/
theorem units64_fullScale {bits : Nat} (h1 : 1 ≤ bits) (h : bits ≤ 64) :
    units64 (fullScale bits) = 2 ^ (bits - 1) * 2 ^ 1074 := by
  have hj := FloatFormat.magUnits_join (fmt := binary64) frac64 (q := 1021 + bits) (sig := 2 ^ 52)
    (by norm_num [binary64]) (.inr (by norm_num [binary64]))
  have e : (1021 + bits) * 2 ^ binary64.fracBits + 2 ^ 52 = (1022 + bits) * 2 ^ 52 := by
    simp only [binary64]; ring
  rw [e] at hj
  rw [units64_eq, sign64_fullScale h, mag64_fullScale h, hj, ← pow_add, ← pow_add]
  simp only [Bool.false_eq_true, if_false]
  rw [show 52 + (1021 + bits) = bits - 1 + 1074 by omega, Nat.cast_pow]
  rfl

/-! ### Infinities, zeros and NaN results -/

@[simp] theorem mag64_inf64 (s : Bool) : mag64 (inf64 s) = 0x7FF0000000000000 := by
  rw [inf64, mag64_pack64 (by rw [infMag64]; norm_num), infMag64]

@[simp] theorem sign64_inf64 (s : Bool) : sign64 (inf64 s) = s := by
  rw [inf64, sign64_pack64 (by rw [infMag64]; norm_num)]

@[simp] theorem isNaN64_inf64 (s : Bool) : isNaN64 (inf64 s) = false := by
  rw [isNaN64_iff, mag64_inf64]
  rfl

@[simp] theorem isInf64_inf64 (s : Bool) : isInf64 (inf64 s) = true := by
  rw [isInf64_iff, mag64_inf64]
  rfl

@[simp] theorem isZero64_inf64 (s : Bool) : isZero64 (inf64 s) = false := by
  rw [isZero64_iff, mag64_inf64]
  rfl

@[simp] theorem neg64_inf64 (s : Bool) : neg64 (inf64 s) = inf64 (!s) := by
  apply eq_of_sign_mag64 <;> simp

theorem units64_eq_zero_iff_isZero64 (x : F64) : units64 x = 0 ↔ isZero64 x = true := by
  rw [units64_eq_zero, isZero64_iff]
  simp

@[simp] theorem isNaN64_nanResult (op : ArithOp) (x y : F64) : isNaN64 (nanResult op x y) = true :=
  isNaN64_toNaN64 _

end Sys2Proof.Machine
end

