-- ==== Sys2Proof/Laws/Buffer.lean ====
section
/-! SUPPORT. The laws of the buffers: a read after a write, the canonical form kept by every operation, words byte by
byte, and the blocks of UNPACK and PACK. Nothing later unfolds the lists of cells. -/

namespace Sys2Proof.Machine

open Sys2Proof

variable {w : Nat}

/-! ### Cells -/

theorem cellsGet_below {low size : Nat} {l : List (Nat × BitVec w)} (h : cellsWf low size l) {i : Nat} (hi : i < low) :
    cellsGet i l = unlisted w := by
  cases l with
  | nil => rfl
  | cons c rest =>
    obtain ⟨j, v⟩ := c
    simp only [cellsWf, Bool.and_eq_true, decide_eq_true_eq] at h
    have : i < j := by omega
    simp [cellsGet, this, Nat.ne_of_lt this]

theorem cellsWf_mono {low low' size : Nat} (hl : low ≤ low') {l : List (Nat × BitVec w)} (h : cellsWf low' size l) :
    cellsWf low size l := by
  cases l with
  | nil => rfl
  | cons c rest =>
    obtain ⟨j, v⟩ := c
    simp only [cellsWf, Bool.and_eq_true, decide_eq_true_eq] at h ⊢
    exact ⟨⟨⟨by omega, h.1.1.2⟩, h.1.2⟩, h.2⟩

theorem cellsGet_set_same {low size : Nat} (i : Nat) (v : BitVec w) {l : List (Nat × BitVec w)}
    (h : cellsWf low size l) : cellsGet i (cellsSet i v l) = v := by
  induction l generalizing low with
  | nil => by_cases hv : v = unlisted w <;> simp [cellsSet, cellsGet, hv]
  | cons c rest ih =>
    obtain ⟨j, u⟩ := c
    have h' := h
    simp only [cellsWf, Bool.and_eq_true, decide_eq_true_eq] at h
    by_cases hij : i < j
    · by_cases hv : v = unlisted w
      · simp [cellsSet, cellsGet, hij, hv, Nat.ne_of_lt hij]
      · simp [cellsSet, cellsGet, hij, hv]
    · by_cases hE : i = j
      · subst hE
        by_cases hv : v = unlisted w
        · simp [cellsSet, hv, cellsGet_below h.2 (Nat.lt_succ_self i)]
        · simp [cellsSet, cellsGet, hv]
      · simp [cellsSet, cellsGet, hij, hE, ih h.2]

theorem cellsGet_set_other {low size : Nat} {i k : Nat} (hk : k ≠ i) (v : BitVec w) {l : List (Nat × BitVec w)}
    (h : cellsWf low size l) : cellsGet k (cellsSet i v l) = cellsGet k l := by
  induction l generalizing low with
  | nil => by_cases hv : v = unlisted w <;> simp [cellsSet, cellsGet, hv, hk]
  | cons c rest ih =>
    obtain ⟨j, u⟩ := c
    simp only [cellsWf, Bool.and_eq_true, decide_eq_true_eq] at h
    by_cases hij : i < j
    · by_cases hv : v = unlisted w
      · simp [cellsSet, hij, hv]
      · by_cases hki : k < i
        · simp [cellsSet, cellsGet, hij, hv, hk, hki, Nat.ne_of_lt (hki.trans hij), hki.trans hij]
        · simp [cellsSet, cellsGet, hij, hv, hk, hki]
    · by_cases hE : i = j
      · subst hE
        by_cases hv : v = unlisted w
        · by_cases hki : k < i
          · simp [cellsSet, cellsGet, hv, hk, hki, cellsGet_below h.2 (hki.trans (Nat.lt_succ_self i))]
          · simp [cellsSet, cellsGet, hv, hk, hki]
        · simp [cellsSet, cellsGet, hv, hk]
      · simp [cellsSet, cellsGet, hij, hE, ih h.2]

theorem cellsSet_wf {low size : Nat} {i : Nat} (hl : low ≤ i) (hi : i < size) (v : BitVec w)
    {l : List (Nat × BitVec w)} (h : cellsWf low size l) : cellsWf low size (cellsSet i v l) := by
  induction l generalizing low with
  | nil => by_cases hv : v = unlisted w <;> simp [cellsSet, cellsWf, hv, hl, hi]
  | cons c rest ih =>
    obtain ⟨j, u⟩ := c
    have h' := h
    simp only [cellsWf, Bool.and_eq_true, decide_eq_true_eq] at h
    by_cases hij : i < j
    · by_cases hv : v = unlisted w
      · simpa [cellsSet, hij, hv] using h'
      · simp only [cellsSet, hij, hv, if_true, if_false, cellsWf, Bool.and_eq_true, decide_eq_true_eq]
        exact ⟨⟨⟨hl, hi⟩, by simpa using hv⟩, ⟨⟨⟨hij, h.1.1.2⟩, h.1.2⟩, h.2⟩⟩
    · by_cases hE : i = j
      · subst hE
        by_cases hv : v = unlisted w
        · simp only [cellsSet, hv, Nat.lt_irrefl, if_true, if_false]
          exact cellsWf_mono (by omega) h.2
        · simp only [cellsSet, hv, Nat.lt_irrefl, if_true, if_false, cellsWf, Bool.and_eq_true,
            decide_eq_true_eq]
          exact ⟨⟨⟨hl, hi⟩, by simpa using hv⟩, h.2⟩
      · simp only [cellsSet, hij, hE, if_false, cellsWf, Bool.and_eq_true, decide_eq_true_eq]
        exact ⟨h.1, ih (by omega) h.2⟩

/-- Equal reads make equal canonical lists. -/
theorem cells_ext {low size : Nat} {l m : List (Nat × BitVec w)} (hl : cellsWf low size l) (hm : cellsWf low size m)
    (h : ∀ i, cellsGet i l = cellsGet i m) : l = m := by
  induction l generalizing low m with
  | nil =>
    cases m with
    | nil => rfl
    | cons c rest =>
      obtain ⟨j, v⟩ := c
      simp only [cellsWf, Bool.and_eq_true, decide_eq_true_eq, unlisted] at hm
      have := h j
      simp [cellsGet, unlisted] at this
      simp [← this] at hm
  | cons c rest ih =>
    obtain ⟨j, v⟩ := c
    cases m with
    | nil =>
      simp only [cellsWf, Bool.and_eq_true, decide_eq_true_eq, unlisted] at hl
      have := h j
      simp [cellsGet, unlisted] at this
      simp [this] at hl
    | cons d rest' =>
      obtain ⟨k, u⟩ := d
      simp only [cellsWf, Bool.and_eq_true, decide_eq_true_eq, unlisted, bne_iff_ne] at hl hm
      have hjk : j = k := by
        rcases Nat.lt_trichotomy j k with hlt | heq | hgt
        · have := h j
          simp [cellsGet, hlt, Nat.ne_of_lt hlt, unlisted] at this
          exact absurd this hl.1.2
        · exact heq
        · have := h k
          simp [cellsGet, hgt, Nat.ne_of_lt hgt, unlisted] at this
          exact absurd this.symm hm.1.2
      subst hjk
      have hvu : v = u := by simpa [cellsGet] using h j
      subst hvu
      congr 1
      refine ih hl.2 hm.2 fun i => ?_
      by_cases hij : i ≤ j
      · rw [cellsGet_below hl.2 (Nat.lt_succ_of_le hij), cellsGet_below hm.2 (Nat.lt_succ_of_le hij)]
      · have := h i
        have h1 : ¬ i = j := by omega
        have h2 : ¬ i < j := by omega
        simpa [cellsGet, h1, h2] using this

/-! ### Buffers -/

@[simp] theorem Buffer.set_size (b : Buffer w) (i : Nat) (v : BitVec w) : (b.set i v).size = b.size := rfl

theorem Buffer.get_set_same {b : Buffer w} (h : b.wf) (i : Nat) (v : BitVec w) : (b.set i v).get i = v :=
  cellsGet_set_same i v h

theorem Buffer.get_set_other {b : Buffer w} (h : b.wf) {i k : Nat} (hk : k ≠ i) (v : BitVec w) :
    (b.set i v).get k = b.get k :=
  cellsGet_set_other hk v h

theorem Buffer.set_wf {b : Buffer w} (h : b.wf) {i : Nat} (hi : i < b.size) (v : BitVec w) : (b.set i v).wf :=
  cellsSet_wf (Nat.zero_le i) hi v h

/-- Canonical buffers of one size with the same elements are equal. -/
theorem Buffer.ext_get {b c : Buffer w} (hb : b.wf) (hc : c.wf) (hs : b.size = c.size) (h : ∀ i, b.get i = c.get i) :
    b = c := by
  obtain ⟨n, l⟩ := b
  obtain ⟨m, k⟩ := c
  simp only at hs
  subst hs
  have : l = k := cells_ext hb hc h
  rw [this]

/-! ### Lists and fills -/

theorem Buffer.setFrom_spec {b : Buffer w} {l : List (BitVec w)} {start : Nat} (h : b.wf)
    (hs : start + l.length ≤ b.size) :
    (b.setFrom start l).wf ∧ (b.setFrom start l).size = b.size ∧
      ∀ i, (b.setFrom start l).get i = if start ≤ i ∧ i < start + l.length then l[i - start]?.getD 0 else b.get i := by
  induction l generalizing b start with
  | nil => exact ⟨h, rfl, fun i => by rw [if_neg (by simp)]; rfl⟩
  | cons v rest ih =>
    simp only [List.length_cons] at hs
    obtain ⟨hw, hz, hg⟩ := ih (b := b.set start v) (start := start + 1) (Buffer.set_wf h (by omega) v)
      (by simp only [Buffer.set_size]; omega)
    refine ⟨hw, by simpa [Buffer.setFrom] using hz, fun i => ?_⟩
    have := hg i
    simp only [Buffer.setFrom, this, List.length_cons]
    by_cases h1 : i = start
    · subst h1
      simp [Buffer.get_set_same h]
    · rw [Buffer.get_set_other h h1]
      by_cases h2 : start + 1 ≤ i ∧ i < start + 1 + rest.length
      · have h3 : start ≤ i ∧ i < start + (rest.length + 1) := by omega
        have h4 : i - start = (i - (start + 1)) + 1 := by omega
        rw [if_pos h2, if_pos h3, h4, List.getElem?_cons_succ]
      · have h3 : ¬ (start ≤ i ∧ i < start + (rest.length + 1)) := by omega
        rw [if_neg h2, if_neg h3]

/-- A supplied buffer is canonical, has the length of the list, and holds its members. -/
theorem Buffer.ofList_spec (l : List (BitVec w)) :
    (Buffer.ofList l).wf ∧ (Buffer.ofList l).size = l.length ∧ ∀ i, (Buffer.ofList l).get i = l[i]?.getD 0 := by
  have h := Buffer.setFrom_spec (b := ({ size := l.length, cells := [] } : Buffer w)) (l := l) (start := 0) rfl
    (by simp)
  refine ⟨h.1, h.2.1, fun i => ?_⟩
  rw [Buffer.ofList, h.2.2]
  by_cases hi : i < l.length
  · simp [hi]
  · rw [if_neg (by omega), List.getElem?_eq_none (by omega)]
    rfl

theorem Buffer.fill_spec {b : Buffer w} (h : b.wf) (start : Nat) (value : Nat → BitVec w) {count : Nat}
    (hs : ∀ k, k < count → start + k < b.size) :
    (b.fill start value count).wf ∧ (b.fill start value count).size = b.size ∧
      ∀ i, (b.fill start value count).get i = if start ≤ i ∧ i < start + count then value i else b.get i := by
  induction count with
  | zero => exact ⟨h, rfl, fun i => by rw [if_neg (by omega)]; rfl⟩
  | succ k ih =>
    obtain ⟨hw, hz, hg⟩ := ih fun j hj => hs j (by omega)
    refine ⟨Buffer.set_wf hw (hz ▸ hs k (by omega)) _, by simpa [Buffer.fill] using hz, fun i => ?_⟩
    by_cases hi : i = start + k
    · subst hi
      rw [Buffer.fill, Buffer.get_set_same hw, if_pos (by omega)]
    · rw [Buffer.fill, Buffer.get_set_other hw hi, hg]
      by_cases h2 : start ≤ i ∧ i < start + k
      · rw [if_pos h2, if_pos (by omega)]
      · rw [if_neg h2, if_neg (by omega)]

/-! ### Words -/

theorem writeBytes_spec {buf : Buffer 8} (h : buf.wf) (off : Nat) (value : Word64) (W : Nat) (be : Bool) {k : Nat}
    (hs : off + k ≤ buf.size) :
    (writeBytes buf off value W be k).wf ∧ (writeBytes buf off value W be k).size = buf.size ∧
      ∀ i, (writeBytes buf off value W be k).get i =
        if off ≤ i ∧ i < off + k then wordByte value W be (i - off) else buf.get i := by
  induction k with
  | zero => exact ⟨h, rfl, fun i => by rw [if_neg (by omega)]; rfl⟩
  | succ k ih =>
    obtain ⟨hw, hz, hg⟩ := ih (by omega)
    refine ⟨Buffer.set_wf hw (by omega) _, by simpa [writeBytes] using hz, fun i => ?_⟩
    by_cases hi : i = off + k
    · subst hi
      rw [writeBytes, Buffer.get_set_same hw, if_pos (by omega), Nat.add_sub_cancel_left]
    · rw [writeBytes, Buffer.get_set_other hw hi, hg]
      by_cases h2 : off ≤ i ∧ i < off + k
      · rw [if_pos h2, if_pos (by omega)]
      · rw [if_neg h2, if_neg (by omega)]

/-- Everything `writeWord` does: canonical form and size kept, its bytes written, every other byte as before. -/
theorem writeWord_spec {buf : Buffer 8} (h : buf.wf) (off : Nat) (value : Word64) (W : Nat) (be : Bool)
    (hs : off + W ≤ buf.size) :
    (writeWord buf off value W be).wf ∧ (writeWord buf off value W be).size = buf.size ∧
      ∀ i, (writeWord buf off value W be).get i =
        if off ≤ i ∧ i < off + W then wordByte value W be (i - off) else buf.get i :=
  writeBytes_spec h off value W be hs

/-- The byte of a word that holds bit `8 * p + q`, by byte order. -/
def bytePosition (W : Nat) (be : Bool) (p : Nat) : Nat := if be then W - 1 - p else p

theorem readBytes_congr {b c : Buffer 8} {off off' : Nat} {W : Nat} {be : Bool} {k : Nat}
    (h : ∀ i, i < k → b.get (off + i) = c.get (off' + i)) : readBytes b off W be k = readBytes c off' W be k := by
  induction k with
  | zero => rfl
  | succ k ih => rw [readBytes, readBytes, ih fun i hi => h i (by omega), h k (by omega)]

/-- A word depends on its own bytes alone. -/
theorem readWord_congr {b c : Buffer 8} {off off' : Nat} {W : Nat} {be : Bool}
    (h : ∀ i, i < W → b.get (off + i) = c.get (off' + i)) : readWord b off W be = readWord c off' W be :=
  readBytes_congr h

theorem readBytes_getLsbD (buf : Buffer 8) (off W : Nat) (be : Bool) (hW : W ≤ 8) {k : Nat} (hk : k ≤ W) (n : Nat) :
    (readBytes buf off W be k).getLsbD n =
      (decide (n < 8 * W) && decide (bytePosition W be (n / 8) < k) &&
        (buf.get (off + bytePosition W be (n / 8))).getLsbD (n % 8)) := by
  induction k with
  | zero => simp [readBytes]
  | succ k ih =>
    have ih := ih (by omega)
    simp only [readBytes, BitVec.getLsbD_or, ih, BitVec.getLsbD_shiftLeft, BitVec.getLsbD_setWidth]
    by_cases hn : n < 8 * W
    · have hb : bytePosition W be (n / 8) < W := by unfold bytePosition; split <;> omega
      by_cases hp : bytePosition W be (n / 8) = k
      · have h1 : byteShift W be k = 8 * (n / 8) := by
          unfold bytePosition at hp
          unfold byteShift
          split <;> simp_all <;> omega
        have h2 : n - 8 * (n / 8) = n % 8 := by omega
        have h3 : ¬ n < 8 * (n / 8) := by omega
        have h4 : n < 64 := by omega
        have h5 : n % 8 < 64 := by omega
        simp [hn, hp, h1, h2, h3, h4, h5]
      · have h1 : decide (bytePosition W be (n / 8) < k + 1) = decide (bytePosition W be (n / 8) < k) := by
          congr 1
          simp only [eq_iff_iff]
          omega
        have h2 : n < byteShift W be k ∨ 8 ≤ n - byteShift W be k := by
          unfold bytePosition at hp hb
          unfold byteShift
          split <;> simp_all <;> omega
        have h3 : (buf.get (off + k)).getLsbD (n - byteShift W be k) = false ∨ n < byteShift W be k := by
          rcases h2 with h2 | h2
          · exact .inr h2
          · exact .inl (BitVec.getLsbD_of_ge _ _ h2)
        rcases h3 with h3 | h3 <;> simp only [h1, h3, Bool.and_false, Bool.or_false, Bool.and_true, decide_true, decide_false, Bool.not_true, Bool.false_and]
    · have h1 : 8 ≤ n - byteShift W be k := by
        unfold byteShift
        split <;> omega
      simp [hn, BitVec.getLsbD_of_ge _ _ h1]

/-- Every bit of a word read: bit `n` is bit `n % 8` of the byte that the byte order gives it; none above `8 * W`. -/
theorem readWord_getLsbD (buf : Buffer 8) (off W : Nat) (be : Bool) (hW : W ≤ 8) (n : Nat) :
    (readWord buf off W be).getLsbD n =
      (decide (n < 8 * W) && (buf.get (off + bytePosition W be (n / 8))).getLsbD (n % 8)) := by
  rw [readWord, readBytes_getLsbD buf off W be hW le_rfl]
  by_cases hn : n < 8 * W
  · have : bytePosition W be (n / 8) < W := by unfold bytePosition; split <;> omega
    simp [this]
  · simp [hn]

/-! ### Blocks -/

/-- Everything `unpackBlocks` does to SAMPLES. -/
theorem unpackBlocks_spec (kind : Kind) (be : Bool) (bits : Nat) (bytes : Buffer 8) {samples : Buffer 32}
    (h : samples.wf) {n : Nat} (hs : n ≤ samples.size) :
    (unpackBlocks kind be bits bytes samples n).wf ∧
      (unpackBlocks kind be bits bytes samples n).size = samples.size ∧
      ∀ i, (unpackBlocks kind be bits bytes samples n).get i =
        if i < n then
          decodeSample kind (readWord bytes (i * bytesPerSample bits) (bytesPerSample bits) be) bits
        else samples.get i := by
  induction n with
  | zero => exact ⟨h, rfl, fun i => by simp [unpackBlocks]⟩
  | succ j ih =>
    obtain ⟨hw, hz, hg⟩ := ih (by omega)
    refine ⟨Buffer.set_wf hw (by omega) _, by simpa [unpackBlocks] using hz, fun i => ?_⟩
    by_cases hi : i = j
    · subst hi
      rw [unpackBlocks, Buffer.get_set_same hw, if_pos (by omega)]
    · rw [unpackBlocks, Buffer.get_set_other hw hi, hg]
      by_cases h2 : i < j
      · rw [if_pos h2, if_pos (by omega)]
      · rw [if_neg h2, if_neg (by omega)]

/-- Everything `packBlocks` does to BYTES. -/
theorem packBlocks_spec (kind : Kind) (be : Bool) (bits : Nat) (samples : Buffer 32) {bytes : Buffer 8}
    (h : bytes.wf) (hw : 0 < bytesPerSample bits) {n : Nat} (hs : n * bytesPerSample bits ≤ bytes.size) :
    (packBlocks kind be bits samples bytes n).wf ∧
      (packBlocks kind be bits samples bytes n).size = bytes.size ∧
      ∀ i, (packBlocks kind be bits samples bytes n).get i =
        if i < n * bytesPerSample bits then
          wordByte (encodeSample kind (samples.get (i / bytesPerSample bits)) bits) (bytesPerSample bits) be
            (i % bytesPerSample bits)
        else bytes.get i := by
  induction n with
  | zero => exact ⟨h, rfl, fun i => by simp [packBlocks]⟩
  | succ k ih =>
    have hk : (k + 1) * bytesPerSample bits = k * bytesPerSample bits + bytesPerSample bits := by ring
    obtain ⟨hwf, hz, hg⟩ := ih (by omega)
    obtain ⟨h1, h2, h3⟩ := writeWord_spec hwf (k * bytesPerSample bits)
      (encodeSample kind (samples.get k) bits) (bytesPerSample bits) be (by omega)
    refine ⟨h1, h2.trans hz, fun i => ?_⟩
    rw [packBlocks, h3, hg]
    by_cases ha : k * bytesPerSample bits ≤ i ∧ i < k * bytesPerSample bits + bytesPerSample bits
    · have hd : i / bytesPerSample bits = k := by
        apply Nat.div_eq_of_lt_le
        · exact ha.1
        · rw [hk]; exact ha.2
      have hm : i % bytesPerSample bits = i - k * bytesPerSample bits := by
        have := Nat.div_add_mod i (bytesPerSample bits)
        rw [hd, Nat.mul_comm] at this
        omega
      rw [if_pos ha, if_pos (by omega), hd, hm]
    · by_cases hb : i < k * bytesPerSample bits
      · rw [if_neg ha, if_pos hb, if_pos (by omega)]
      · rw [if_neg ha, if_neg hb, if_neg (by omega)]

end Sys2Proof.Machine
end

