-- ==== Sys2Proof/Laws/State.lean ====
section
/-! SUPPORT. One lemma per field for each update of the state that the model names: `finish`, `resetBlock`,
`drivePort`, `scramble`. -/

namespace Sys2Proof.Machine

open Sys2Proof

@[simp] theorem State.finish_cmd (st : State) (e : Status) (r : Option Word64) (f : Option F32) (n : Option Word64) :
    (st.finish e r f n).cmd = st.cmd := rfl
@[simp] theorem State.finish_bits (st : State) (e : Status) (r : Option Word64) (f : Option F32) (n : Option Word64) :
    (st.finish e r f n).bits = st.bits := rfl
@[simp] theorem State.finish_width (st : State) (e : Status) (r : Option Word64) (f : Option F32) (n : Option Word64) :
    (st.finish e r f n).width = st.width := rfl
@[simp] theorem State.finish_offset (st : State) (e : Status) (r : Option Word64) (f : Option F32) (n : Option Word64) :
    (st.finish e r f n).offset = st.offset := rfl
@[simp] theorem State.finish_len (st : State) (e : Status) (r : Option Word64) (f : Option F32) (n : Option Word64) :
    (st.finish e r f n).len = st.len := rfl
@[simp] theorem State.finish_a (st : State) (e : Status) (r : Option Word64) (f : Option F32) (n : Option Word64) :
    (st.finish e r f n).a = st.a := rfl
@[simp] theorem State.finish_s (st : State) (e : Status) (r : Option Word64) (f : Option F32) (n : Option Word64) :
    (st.finish e r f n).s = st.s := rfl
@[simp] theorem State.finish_bcap (st : State) (e : Status) (r : Option Word64) (f : Option F32) (n : Option Word64) :
    (st.finish e r f n).bcap = st.bcap := rfl
@[simp] theorem State.finish_scap (st : State) (e : Status) (r : Option Word64) (f : Option F32) (n : Option Word64) :
    (st.finish e r f n).scap = st.scap := rfl
@[simp] theorem State.finish_bytes (st : State) (e : Status) (r : Option Word64) (f : Option F32) (n : Option Word64) :
    (st.finish e r f n).bytes = st.bytes := rfl
@[simp] theorem State.finish_samples (st : State) (e : Status) (r : Option Word64) (f : Option F32) (n : Option Word64) :
    (st.finish e r f n).samples = st.samples := rfl
@[simp] theorem State.finish_status (st : State) (e : Status) (r : Option Word64) (f : Option F32) (n : Option Word64) :
    (st.finish e r f n).status = some e := rfl
@[simp] theorem State.finish_r (st : State) (e : Status) (r : Option Word64) (f : Option F32) (n : Option Word64) :
    (st.finish e r f n).r = r := rfl
@[simp] theorem State.finish_f (st : State) (e : Status) (r : Option Word64) (f : Option F32) (n : Option Word64) :
    (st.finish e r f n).f = f := rfl
@[simp] theorem State.finish_n (st : State) (e : Status) (r : Option Word64) (f : Option F32) (n : Option Word64) :
    (st.finish e r f n).n = n := rfl
@[simp] theorem State.finish_legacyFloatZero (st : State) (e : Status) (r : Option Word64) (f : Option F32) (n : Option Word64) :
    (st.finish e r f n).legacyFloatZero = st.legacyFloatZero := rfl
@[simp] theorem State.finish_pending (st : State) (e : Status) (r : Option Word64) (f : Option F32) (n : Option Word64) :
    (st.finish e r f n).pending = st.pending := rfl
@[simp] theorem State.finish_draws (st : State) (e : Status) (r : Option Word64) (f : Option F32) (n : Option Word64) :
    (st.finish e r f n).draws = st.draws := rfl

@[simp] theorem State.resetBlock_cmd (st : State) : st.resetBlock.cmd = st.cmd := rfl
@[simp] theorem State.resetBlock_bits (st : State) : st.resetBlock.bits = st.bits := rfl
@[simp] theorem State.resetBlock_width (st : State) : st.resetBlock.width = st.width := rfl
@[simp] theorem State.resetBlock_offset (st : State) : st.resetBlock.offset = st.offset := rfl
@[simp] theorem State.resetBlock_len (st : State) : st.resetBlock.len = st.len := rfl
@[simp] theorem State.resetBlock_a (st : State) : st.resetBlock.a = st.a := rfl
@[simp] theorem State.resetBlock_s (st : State) : st.resetBlock.s = st.s := rfl
@[simp] theorem State.resetBlock_bcap (st : State) : st.resetBlock.bcap = st.bcap := rfl
@[simp] theorem State.resetBlock_scap (st : State) : st.resetBlock.scap = st.scap := rfl
@[simp] theorem State.resetBlock_bytes (st : State) : st.resetBlock.bytes = st.bytes := rfl
@[simp] theorem State.resetBlock_samples (st : State) : st.resetBlock.samples = st.samples := rfl
@[simp] theorem State.resetBlock_status (st : State) : st.resetBlock.status = none := rfl
@[simp] theorem State.resetBlock_r (st : State) : st.resetBlock.r = none := rfl
@[simp] theorem State.resetBlock_f (st : State) : st.resetBlock.f = none := rfl
@[simp] theorem State.resetBlock_n (st : State) : st.resetBlock.n = none := rfl
@[simp] theorem State.resetBlock_legacyFloatZero (st : State) : st.resetBlock.legacyFloatZero = st.legacyFloatZero := rfl
@[simp] theorem State.resetBlock_pending (st : State) : st.resetBlock.pending = st.pending := rfl
@[simp] theorem State.resetBlock_draws (st : State) : st.resetBlock.draws = st.draws := rfl

@[simp] theorem State.drivePort_bcap (st : State) (p : InputPort) (v : Word64) : (st.drivePort p v).bcap = st.bcap := by
  cases p <;> rfl
@[simp] theorem State.drivePort_scap (st : State) (p : InputPort) (v : Word64) : (st.drivePort p v).scap = st.scap := by
  cases p <;> rfl
@[simp] theorem State.drivePort_bytes (st : State) (p : InputPort) (v : Word64) : (st.drivePort p v).bytes = st.bytes := by
  cases p <;> rfl
@[simp] theorem State.drivePort_samples (st : State) (p : InputPort) (v : Word64) : (st.drivePort p v).samples = st.samples := by
  cases p <;> rfl
@[simp] theorem State.drivePort_status (st : State) (p : InputPort) (v : Word64) : (st.drivePort p v).status = st.status := by
  cases p <;> rfl
@[simp] theorem State.drivePort_r (st : State) (p : InputPort) (v : Word64) : (st.drivePort p v).r = st.r := by
  cases p <;> rfl
@[simp] theorem State.drivePort_f (st : State) (p : InputPort) (v : Word64) : (st.drivePort p v).f = st.f := by
  cases p <;> rfl
@[simp] theorem State.drivePort_n (st : State) (p : InputPort) (v : Word64) : (st.drivePort p v).n = st.n := by
  cases p <;> rfl
@[simp] theorem State.drivePort_legacyFloatZero (st : State) (p : InputPort) (v : Word64) : (st.drivePort p v).legacyFloatZero = st.legacyFloatZero := by
  cases p <;> rfl
@[simp] theorem State.drivePort_pending (st : State) (p : InputPort) (v : Word64) : (st.drivePort p v).pending = st.pending := by
  cases p <;> rfl
@[simp] theorem State.drivePort_draws (st : State) (p : InputPort) (v : Word64) : (st.drivePort p v).draws = st.draws := by
  cases p <;> rfl
@[simp] theorem State.drivePort_cmd_eq (st : State) (v : Word64) : (st.drivePort .cmd v).cmd = v.setWidth 32 := rfl
@[simp] theorem State.drivePort_bits_eq (st : State) (v : Word64) : (st.drivePort .bits v).bits = v.setWidth 32 := rfl
@[simp] theorem State.drivePort_width_eq (st : State) (v : Word64) : (st.drivePort .width v).width = v.setWidth 32 := rfl
@[simp] theorem State.drivePort_offset_eq (st : State) (v : Word64) : (st.drivePort .offset v).offset = v.setWidth 32 := rfl
@[simp] theorem State.drivePort_len_eq (st : State) (v : Word64) : (st.drivePort .len v).len = v.setWidth 32 := rfl
@[simp] theorem State.drivePort_a_eq (st : State) (v : Word64) : (st.drivePort .a v).a = v := rfl
@[simp] theorem State.drivePort_s_eq (st : State) (v : Word64) : (st.drivePort .s v).s = v.setWidth 32 := rfl

/-- `scramble` changes the two buffers at most. -/
theorem scramble_frame (i : Instr) (st : State) :
    { scramble i st with bytes := st.bytes, samples := st.samples } = st := rfl
@[simp] theorem scramble_cmd (i : Instr) (st : State) : (scramble i st).cmd = st.cmd := rfl
@[simp] theorem scramble_bits (i : Instr) (st : State) : (scramble i st).bits = st.bits := rfl
@[simp] theorem scramble_width (i : Instr) (st : State) : (scramble i st).width = st.width := rfl
@[simp] theorem scramble_offset (i : Instr) (st : State) : (scramble i st).offset = st.offset := rfl
@[simp] theorem scramble_len (i : Instr) (st : State) : (scramble i st).len = st.len := rfl
@[simp] theorem scramble_a (i : Instr) (st : State) : (scramble i st).a = st.a := rfl
@[simp] theorem scramble_s (i : Instr) (st : State) : (scramble i st).s = st.s := rfl
@[simp] theorem scramble_bcap (i : Instr) (st : State) : (scramble i st).bcap = st.bcap := rfl
@[simp] theorem scramble_scap (i : Instr) (st : State) : (scramble i st).scap = st.scap := rfl
@[simp] theorem scramble_status (i : Instr) (st : State) : (scramble i st).status = st.status := rfl
@[simp] theorem scramble_r (i : Instr) (st : State) : (scramble i st).r = st.r := rfl
@[simp] theorem scramble_f (i : Instr) (st : State) : (scramble i st).f = st.f := rfl
@[simp] theorem scramble_n (i : Instr) (st : State) : (scramble i st).n = st.n := rfl
@[simp] theorem scramble_legacyFloatZero (i : Instr) (st : State) :
    (scramble i st).legacyFloatZero = st.legacyFloatZero := rfl
@[simp] theorem scramble_pending (i : Instr) (st : State) : (scramble i st).pending = st.pending := rfl
@[simp] theorem scramble_draws (i : Instr) (st : State) : (scramble i st).draws = st.draws := rfl

/-- A second completion hides the first. -/
@[simp] theorem State.finish_finish (st : State) (e e' : Status) (r r' : Option Word64) (f f' : Option F32)
    (n n' : Option Word64) : (st.finish e r f n).finish e' r' f' n' = st.finish e' r' f' n' := rfl

end Sys2Proof.Machine
end

