-- ==== Sys2Proof/Laws/Meanings.lean ====
section
/-! SUPPORT. What the checks of Operands.lean and Flags.lean do, and the one inversion lemma of the meanings: what a
state looks like after an operation (`exec_cases`). Later proofs cite these and unfold no meaning. -/

namespace Sys2Proof.Machine

open Sys2Proof

/-! ### The checks -/

theorem bitsInRange_iff (st : State) : bitsInRange st.bits = true ↔ st.bitsOk := by
  simp [bitsInRange, State.bitsOk]

/-- A `BITS` in range is the same number signed and unsigned. -/
theorem bitsOk_toNat {st : State} (h : st.bitsOk) : 1 ≤ st.bits.toNat ∧ st.bits.toNat ≤ 64 := by
  obtain ⟨h1, h2⟩ := h
  rw [BitVec.toInt_eq_toNat_cond] at h1 h2
  split at h1 <;> omega

theorem bitsOk_of_toNat {st : State} (h1 : 1 ≤ st.bits.toNat) (h2 : st.bits.toNat ≤ 64) : st.bitsOk := by
  unfold State.bitsOk
  rw [BitVec.toInt_eq_toNat_cond]
  split <;> omega

theorem withBits_ok {st : State} (h : st.bitsOk) (use : Nat → Result) : withBits st use = use st.bits.toNat :=
  if_pos ((bitsInRange_iff st).2 h)

theorem withBits_bad {st : State} (h : ¬ st.bitsOk) (use : Nat → Result) :
    withBits st use = raise .invalidFormat st :=
  if_neg fun hb => h ((bitsInRange_iff st).1 hb)

theorem withBytes_ok {st : State} (h : st.bcap.val ≤ st.bytes.size) (use : Nat → Result) :
    withBytes st use = use st.bcap.val :=
  if_neg (Nat.not_lt.2 h)

theorem withSamples_ok {st : State} (h : st.scap.val ≤ st.samples.size) (use : Nat → Result) :
    withSamples st use = use st.scap.val :=
  if_neg (Nat.not_lt.2 h)

@[simp] theorem withKind_of (k : Kind) (st : State) (use : Kind → Result) : withKind (.of k) st use = use k := rfl

theorem withFormat_ok {kind : Kind} {dir : Direction} {st : State} (h : st.bitsOk)
    (he : kindError kind st.bits.toNat dir st.legacyFloatZero = none) (use : Nat → Result) :
    withFormat kind dir st use = use st.bits.toNat := by
  rw [withFormat, withBits_ok h]
  simp only [he]

theorem withFormat_error {kind : Kind} {dir : Direction} {st : State} (h : st.bitsOk) {e : Status}
    (he : kindError kind st.bits.toNat dir st.legacyFloatZero = some e) (use : Nat → Result) :
    withFormat kind dir st use = raise e st := by
  rw [withFormat, withBits_ok h]
  simp only [he]

theorem withFormat_bad {kind : Kind} {dir : Direction} {st : State} (h : ¬ st.bitsOk) (use : Nat → Result) :
    withFormat kind dir st use = raise .invalidFormat st :=
  withBits_bad h _

/-- When a kind's width error applies (rule R180). -/
theorem kindError_eq_none {kind : Kind} {bits : Nat} {dir : Direction} {legacy : Bool} :
    kindError kind bits dir legacy = none ↔
      (kind = .pcmFloat → bits = 32 ∨ bits = 64 ∨ (dir = .dec ∧ legacy = true)) ∧
        (kind = .muLaw ∨ kind = .aLaw → bits = 8) := by
  cases kind <;> simp [kindError, floatWidthOk, or_assoc]
  tauto

/-- Which width error applies (rule R180). -/
theorem kindError_eq_some {kind : Kind} {bits : Nat} {dir : Direction} {legacy : Bool} {e : Status}
    (h : kindError kind bits dir legacy = some e) :
    (e = .unsupportedFloatWidth ∧ kind = .pcmFloat ∧ bits ≠ 32 ∧ bits ≠ 64 ∧ ¬ (dir = .dec ∧ legacy = true)) ∨
      (e = .unsupportedCompandedWidth ∧ (kind = .muLaw ∨ kind = .aLaw) ∧ bits ≠ 8) := by
  cases kind <;> simp_all [kindError, floatWidthOk]

theorem withWord_ok {st : State} (hb : st.bcap.val ≤ st.bytes.size) (h1 : 1 ≤ st.width.toNat)
    (h2 : st.width.toNat ≤ 8) (h3 : st.offset.toNat + st.width.toNat ≤ st.bcap.val) (use : Nat → Nat → Result) :
    withWord st use = use st.offset.toNat st.width.toNat := by
  rw [withWord, withBytes_ok hb, if_pos (by simp [widthInRange, h1, h2]), if_neg (by omega)]

/-! ### What each operation answers where no check stops it -/

theorem exec_bps_ok (enc : Enc) (be : Bool) {st : State} (h : st.bitsOk) :
    exec (.bps enc be) st = .next (st.finish .ok (some (BitVec.ofNat 64 (bytesPerSample st.bits.toNat))) none none) := by
  simp only [exec, execBps, withBits_ok h]
  rfl

theorem exec_fscale_ok (enc : Enc) (be : Bool) {st : State} (h : st.bitsOk) :
    exec (.fscale enc be) st = .next (st.finish .ok (some (fullScale st.bits.toNat)) none none) := by
  simp only [exec, execFscale, withBits_ok h]
  rfl

theorem exec_sext_ok (enc : Enc) (be : Bool) {st : State} (h : st.bitsOk) :
    exec (.sext enc be) st = .next (st.finish .ok (some (signExtendWord st.a st.bits.toNat)) none none) := by
  simp only [exec, execSext, withBits_ok h]
  rfl

theorem exec_toob_ok (enc : Enc) (be : Bool) {st : State} (h : st.bitsOk) :
    exec (.toob enc be) st = .next (st.finish .ok (some (toOffsetBinary st.a st.bits.toNat)) none none) := by
  simp only [exec, execToob, withBits_ok h]
  rfl

theorem exec_fromob_ok (enc : Enc) (be : Bool) {st : State} (h : st.bitsOk) :
    exec (.fromob enc be) st = .next (st.finish .ok (some (fromOffsetBinary st.a st.bits.toNat)) none none) := by
  simp only [exec, execFromob, withBits_ok h]
  rfl

theorem exec_pcmsDec_ok (enc : Enc) (be : Bool) {st : State} (h : st.bitsOk) :
    exec (.pcmsDec enc be) st = .next (st.finish .ok none (some (pcmSignedDecode st.a st.bits.toNat)) none) := by
  simp only [exec, execPcmsDec, withBits_ok h]
  rfl

theorem exec_pcmuDec_ok (enc : Enc) (be : Bool) {st : State} (h : st.bitsOk) :
    exec (.pcmuDec enc be) st = .next (st.finish .ok none (some (pcmUnsignedDecode st.a st.bits.toNat)) none) := by
  simp only [exec, execPcmuDec, withBits_ok h]
  rfl

theorem exec_pcmsEnc_ok (enc : Enc) (be : Bool) {st : State} (h : st.bitsOk) :
    exec (.pcmsEnc enc be) st = .next (st.finish .ok (some (pcmSignedEncode st.s st.bits.toNat)) none none) := by
  simp only [exec, execPcmsEnc, withBits_ok h]
  rfl

theorem exec_pcmuEnc_ok (enc : Enc) (be : Bool) {st : State} (h : st.bitsOk) :
    exec (.pcmuEnc enc be) st = .next (st.finish .ok (some (pcmUnsignedEncode st.s st.bits.toNat)) none none) := by
  simp only [exec, execPcmuEnc, withBits_ok h]
  rfl

theorem exec_rdword_ok (enc : Enc) (be : Bool) {st : State} (hb : st.bcap.val ≤ st.bytes.size)
    (h1 : 1 ≤ st.width.toNat) (h2 : st.width.toNat ≤ 8) (h3 : st.offset.toNat + st.width.toNat ≤ st.bcap.val) :
    exec (.rdword enc be) st =
      .next (st.finish .ok (some (readWord st.bytes st.offset.toNat st.width.toNat be)) none none) := by
  simp only [exec, execRdword, withWord_ok hb h1 h2 h3]
  rfl

theorem exec_wrword_ok (enc : Enc) (be : Bool) {st : State} (hb : st.bcap.val ≤ st.bytes.size)
    (h1 : 1 ≤ st.width.toNat) (h2 : st.width.toNat ≤ 8) (h3 : st.offset.toNat + st.width.toNat ≤ st.bcap.val) :
    exec (.wrword enc be) st =
      .next ({ st with bytes := writeWord st.bytes st.offset.toNat st.a st.width.toNat be }.finish
        .ok none none none) := by
  simp only [exec, execWrword, withWord_ok hb h1 h2 h3]
  rfl

theorem exec_fltDec_ok (enc : Enc) (be : Bool) {st : State} (h : st.bitsOk)
    (he : kindError .pcmFloat st.bits.toNat .dec st.legacyFloatZero = none) :
    exec (.fltDec enc be) st = .next (st.finish .ok none (some (floatDecode st.a st.bits.toNat)) none) := by
  simp only [exec, execFltDec, withFormat_ok h he]
  rfl

theorem exec_fltEnc_ok (enc : Enc) (be : Bool) {st : State} (h : st.bitsOk)
    (he : kindError .pcmFloat st.bits.toNat .enc st.legacyFloatZero = none) :
    exec (.fltEnc enc be) st = .next (st.finish .ok (some (floatEncode st.s st.bits.toNat)) none none) := by
  simp only [exec, execFltEnc, withFormat_ok h he]
  rfl

theorem exec_decode_ok (k : Kind) (be : Bool) {st : State} (h : st.bitsOk)
    (he : kindError k st.bits.toNat .dec st.legacyFloatZero = none) :
    exec (.decode (.of k) be) st = .next (st.finish .ok none (some (decodeSample k st.a st.bits.toNat)) none) := by
  simp only [exec, execDecode, withKind_of, withFormat_ok h he]
  rfl

theorem exec_encode_ok (k : Kind) (be : Bool) {st : State} (h : st.bitsOk)
    (he : kindError k st.bits.toNat .enc st.legacyFloatZero = none) :
    exec (.encode (.of k) be) st = .next (st.finish .ok (some (encodeSample k st.s st.bits.toNat)) none none) := by
  simp only [exec, execEncode, withKind_of, withFormat_ok h he]
  rfl

theorem exec_unpack_ok (k : Kind) (be : Bool) {st : State} (hc : st.capacitiesTrue) (h : st.bitsOk)
    (he : kindError k st.bits.toNat .dec st.legacyFloatZero = none) {n : Nat}
    (hn : n = ceilDiv st.len.toNat (bytesPerSample st.bits.toNat))
    (h1 : n * bytesPerSample st.bits.toNat ≤ st.bcap.val) (h2 : n ≤ st.scap.val) :
    exec (.unpack (.of k) be) st =
      .next ({ st with samples := unpackBlocks k be st.bits.toNat st.bytes st.samples n }.finish .ok none none
        (some (BitVec.ofNat 64 n))) := by
  subst hn
  simp only [exec, execUnpack, withKind_of, withBytes_ok hc.1, withSamples_ok hc.2, withFormat_ok h he]
  rw [if_neg (by omega), if_neg (by omega)]
  rfl

theorem exec_pack_ok (k : Kind) (be : Bool) {st : State} (hc : st.capacitiesTrue) (h : st.bitsOk)
    (he : kindError k st.bits.toNat .enc st.legacyFloatZero = none)
    (h1 : st.len.toNat * bytesPerSample st.bits.toNat ≤ st.bcap.val) (h2 : st.len.toNat ≤ st.scap.val) :
    exec (.pack (.of k) be) st =
      .next ({ st with bytes := packBlocks k be st.bits.toNat st.samples st.bytes st.len.toNat }.finish .ok none none
        (some (BitVec.ofNat 64 (st.len.toNat * bytesPerSample st.bits.toNat)))) := by
  simp only [exec, execPack, withKind_of, withBytes_ok hc.1, withSamples_ok hc.2, withFormat_ok h he]
  rw [if_neg (by omega), if_neg (by omega)]
  rfl

/-- A request does not see the result ports of an earlier one (rule R27). -/
theorem exec_finish (i : Instr) (st : State) (e : Status) (r : Option Word64) (f : Option F32) (n : Option Word64) :
    exec i (st.finish e r f n) = exec i st := by
  cases i <;> rfl

/-! ### Inversion -/

/-- The ways a check can let a next state through: its own error, or what stands behind it. -/
theorem withBits_next {st t : State} {use : Nat → Result} (h : withBits st use = .next t) :
    (¬ st.bitsOk ∧ t = st.finish .invalidFormat none none none) ∨ (st.bitsOk ∧ use st.bits.toNat = .next t) := by
  by_cases hb : st.bitsOk
  · exact .inr ⟨hb, by rwa [withBits_ok hb] at h⟩
  · rw [withBits_bad hb] at h
    exact .inl ⟨hb, by simpa [raise] using h.symm⟩

theorem withFormat_next {kind : Kind} {dir : Direction} {st t : State} {use : Nat → Result}
    (h : withFormat kind dir st use = .next t) :
    (∃ e, e ≠ .ok ∧ t = st.finish e none none none) ∨
      (st.bitsOk ∧ kindError kind st.bits.toNat dir st.legacyFloatZero = none ∧ use st.bits.toNat = .next t) := by
  rcases withBits_next h with ⟨-, rfl⟩ | ⟨hb, h⟩
  · exact .inl ⟨_, by decide, rfl⟩
  · cases he : kindError kind st.bits.toNat dir st.legacyFloatZero with
    | none => exact .inr ⟨hb, rfl, by simpa [he] using h⟩
    | some e =>
      refine .inl ⟨e, ?_, by simpa [he, raise] using h.symm⟩
      rcases kindError_eq_some he with ⟨rfl, -⟩ | ⟨rfl, -⟩ <;> decide

theorem withKind_next {enc : Enc} {st t : State} {use : Kind → Result} (h : withKind enc st use = .next t) :
    (∃ e, e ≠ .ok ∧ t = st.finish e none none none) ∨ ∃ k, enc = .of k ∧ use k = .next t := by
  cases enc with
  | of k => exact .inr ⟨k, rfl, h⟩
  | _ => exact .inl ⟨.illegalCommand, by decide, by simpa [withKind, Enc.kind?, raise] using h.symm⟩

theorem withBytes_next {st t : State} {use : Nat → Result} (h : withBytes st use = .next t) :
    st.bcap.val ≤ st.bytes.size ∧ use st.bcap.val = .next t := by
  unfold withBytes at h
  split at h
  · cases h
  · exact ⟨by omega, h⟩

theorem withSamples_next {st t : State} {use : Nat → Result} (h : withSamples st use = .next t) :
    st.scap.val ≤ st.samples.size ∧ use st.scap.val = .next t := by
  unfold withSamples at h
  split at h
  · cases h
  · exact ⟨by omega, h⟩

theorem withWord_next {st t : State} {use : Nat → Nat → Result} (h : withWord st use = .next t) :
    (∃ e, e ≠ .ok ∧ t = st.finish e none none none) ∨
      (st.bcap.val ≤ st.bytes.size ∧ 1 ≤ st.width.toNat ∧ st.width.toNat ≤ 8 ∧
        st.offset.toNat + st.width.toNat ≤ st.bcap.val ∧ use st.offset.toNat st.width.toNat = .next t) := by
  obtain ⟨hb, h⟩ := withBytes_next h
  split at h
  · rename_i hw
    simp only [widthInRange, Bool.and_eq_true, decide_eq_true_eq] at hw
    split at h
    · exact .inl ⟨.bufferTooShort, by decide, by simpa [raise] using h.symm⟩
    · exact .inr ⟨hb, hw.1, hw.2, by omega, h⟩
  · exact .inl ⟨.invalidWidth, by decide, by simpa [raise] using h.symm⟩

theorem bytesPerSample_pos {bits : Nat} (h : 1 ≤ bits) : 0 < bytesPerSample bits := by
  unfold bytesPerSample ceilDiv
  omega

/-- An operation of the block either raises an error, or completes with `OK`: exactly the ports of rule R66 carry a
value, a buffer it does not write stays as it was, and a buffer it writes keeps its size and its canonical form. -/
def Completed (i : Instr) (st t : State) : Prop :=
  ∃ (buf : Buffer 8) (smp : Buffer 32) (r : Option Word64) (f : Option F32) (n : Option Word64),
    t = { st with bytes := buf, samples := smp }.finish .ok r f n ∧
    r.isSome = writesR i ∧ f.isSome = writesF i ∧ n.isSome = writesN i ∧
    (writesBytes i = false → buf = st.bytes) ∧ (writesSamples i = false → smp = st.samples) ∧
    buf.size = st.bytes.size ∧ smp.size = st.samples.size ∧
    (st.bytes.wf → buf.wf) ∧ (st.samples.wf → smp.wf)

theorem writeBytes_size (buf : Buffer 8) (off : Nat) (v : Word64) (W : Nat) (be : Bool) (k : Nat) :
    (writeBytes buf off v W be k).size = buf.size := by
  induction k with
  | zero => rfl
  | succ k ih => exact ih

theorem unpackBlocks_size (kind : Kind) (be : Bool) (bits : Nat) (bytes : Buffer 8) (samples : Buffer 32) (n : Nat) :
    (unpackBlocks kind be bits bytes samples n).size = samples.size := by
  induction n with
  | zero => rfl
  | succ k ih => exact ih

theorem packBlocks_size (kind : Kind) (be : Bool) (bits : Nat) (samples : Buffer 32) (bytes : Buffer 8) (n : Nat) :
    (packBlocks kind be bits samples bytes n).size = bytes.size := by
  induction n with
  | zero => rfl
  | succ k ih => exact (writeBytes_size _ _ _ _ _ _).trans ih

theorem fill_size {w : Nat} (b : Buffer w) (start : Nat) (value : Nat → BitVec w) (count : Nat) :
    (b.fill start value count).size = b.size := by
  induction count with
  | zero => rfl
  | succ k ih => exact ih

theorem execUnpack_next {enc : Enc} {be : Bool} {st t : State} (h : execUnpack enc be st = .next t) :
    (∃ e, e ≠ .ok ∧ t = st.finish e none none none) ∨
      ∃ k, enc = .of k ∧ st.capacitiesTrue ∧ st.bitsOk ∧
        kindError k st.bits.toNat .dec st.legacyFloatZero = none ∧
        ceilDiv st.len.toNat (bytesPerSample st.bits.toNat) * bytesPerSample st.bits.toNat ≤ st.bcap.val ∧
        ceilDiv st.len.toNat (bytesPerSample st.bits.toNat) ≤ st.scap.val ∧
        completeSamplesN (unpackBlocks k be st.bits.toNat st.bytes st.samples
          (ceilDiv st.len.toNat (bytesPerSample st.bits.toNat)))
          (ceilDiv st.len.toNat (bytesPerSample st.bits.toNat)) st = .next t := by
  unfold execUnpack at h
  rcases withKind_next h with he | ⟨k, rfl, h⟩
  · exact .inl he
  rw [withKind_of] at h
  obtain ⟨hb, h⟩ := withBytes_next h
  obtain ⟨hs, h⟩ := withSamples_next h
  rcases withFormat_next h with he | ⟨hok, hk, h⟩
  · exact .inl he
  simp only at h
  split at h
  · exact .inl ⟨.bufferTooShort, by decide, by simpa [raise] using h.symm⟩
  · split at h
    · exact .inl ⟨.bufferTooShort, by decide, by simpa [raise] using h.symm⟩
    · exact .inr ⟨k, rfl, ⟨hb, hs⟩, hok, hk, by omega, by omega, h⟩

theorem execPack_next {enc : Enc} {be : Bool} {st t : State} (h : execPack enc be st = .next t) :
    (∃ e, e ≠ .ok ∧ t = st.finish e none none none) ∨
      ∃ k, enc = .of k ∧ st.capacitiesTrue ∧ st.bitsOk ∧
        kindError k st.bits.toNat .enc st.legacyFloatZero = none ∧
        st.len.toNat * bytesPerSample st.bits.toNat ≤ st.bcap.val ∧ st.len.toNat ≤ st.scap.val ∧
        completeBytesN (packBlocks k be st.bits.toNat st.samples st.bytes st.len.toNat)
          (st.len.toNat * bytesPerSample st.bits.toNat) st = .next t := by
  unfold execPack at h
  rcases withKind_next h with he | ⟨k, rfl, h⟩
  · exact .inl he
  rw [withKind_of] at h
  obtain ⟨hb, h⟩ := withBytes_next h
  obtain ⟨hs, h⟩ := withSamples_next h
  rcases withFormat_next h with he | ⟨hok, hk, h⟩
  · exact .inl he
  simp only at h
  split at h
  · exact .inl ⟨.bufferTooShort, by decide, by simpa [raise] using h.symm⟩
  · split at h
    · exact .inl ⟨.bufferTooShort, by decide, by simpa [raise] using h.symm⟩
    · exact .inr ⟨k, rfl, ⟨hb, hs⟩, hok, hk, by omega, by omega, h⟩

theorem completed_R {i : Instr} {st t : State} {v : Word64} (h : completeR v st = .next t)
    (hi : writesR i = true ∧ writesF i = false ∧ writesN i = false) : Completed i st t := by
  obtain ⟨h1, h2, h3⟩ := hi
  refine ⟨st.bytes, st.samples, some v, none, none, ?_, by simp [h1], by simp [h2], by simp [h3], fun _ => rfl,
    fun _ => rfl, rfl, rfl, id, id⟩
  simpa [completeR] using h.symm

theorem completed_F {i : Instr} {st t : State} {v : F32} (h : completeF v st = .next t)
    (hi : writesR i = false ∧ writesF i = true ∧ writesN i = false) : Completed i st t := by
  obtain ⟨h1, h2, h3⟩ := hi
  refine ⟨st.bytes, st.samples, none, some v, none, ?_, by simp [h1], by simp [h2], by simp [h3], fun _ => rfl,
    fun _ => rfl, rfl, rfl, id, id⟩
  simpa [completeF] using h.symm

/-- The one inversion lemma of the meanings. -/
theorem exec_cases {i : Instr} {st t : State} (h : exec i st = .next t) :
    (∃ e, e ≠ .ok ∧ t = st.finish e none none none) ∨ Completed i st t := by
  have bitsR : ∀ {use : Nat → Word64}, withBits st (fun bits => completeR (use bits) st) = .next t →
      writesR i = true ∧ writesF i = false ∧ writesN i = false →
      (∃ e, e ≠ .ok ∧ t = st.finish e none none none) ∨ Completed i st t := by
    intro use h hi
    rcases withBits_next h with ⟨-, rfl⟩ | ⟨-, h⟩
    · exact .inl ⟨_, by decide, rfl⟩
    · exact .inr (completed_R h hi)
  have bitsF : ∀ {use : Nat → F32}, withBits st (fun bits => completeF (use bits) st) = .next t →
      writesR i = false ∧ writesF i = true ∧ writesN i = false →
      (∃ e, e ≠ .ok ∧ t = st.finish e none none none) ∨ Completed i st t := by
    intro use h hi
    rcases withBits_next h with ⟨-, rfl⟩ | ⟨-, h⟩
    · exact .inl ⟨_, by decide, rfl⟩
    · exact .inr (completed_F h hi)
  cases i with
  | bps enc be =>
    simp only [exec, execBps] at h
    exact bitsR h ⟨rfl, rfl, rfl⟩
  | fscale enc be =>
    simp only [exec, execFscale] at h
    exact bitsR h ⟨rfl, rfl, rfl⟩
  | sext enc be =>
    simp only [exec, execSext] at h
    exact bitsR h ⟨rfl, rfl, rfl⟩
  | toob enc be =>
    simp only [exec, execToob] at h
    exact bitsR h ⟨rfl, rfl, rfl⟩
  | fromob enc be =>
    simp only [exec, execFromob] at h
    exact bitsR h ⟨rfl, rfl, rfl⟩
  | pcmsDec enc be =>
    simp only [exec, execPcmsDec] at h
    exact bitsF h ⟨rfl, rfl, rfl⟩
  | pcmuDec enc be =>
    simp only [exec, execPcmuDec] at h
    exact bitsF h ⟨rfl, rfl, rfl⟩
  | pcmsEnc enc be =>
    simp only [exec, execPcmsEnc] at h
    exact bitsR h ⟨rfl, rfl, rfl⟩
  | pcmuEnc enc be =>
    simp only [exec, execPcmuEnc] at h
    exact bitsR h ⟨rfl, rfl, rfl⟩
  | fltDec enc be =>
    simp only [exec, execFltDec] at h
    rcases withFormat_next h with he | ⟨-, -, h⟩
    · exact .inl he
    · exact .inr (completed_F h ⟨rfl, rfl, rfl⟩)
  | fltEnc enc be =>
    simp only [exec, execFltEnc] at h
    rcases withFormat_next h with he | ⟨-, -, h⟩
    · exact .inl he
    · exact .inr (completed_R h ⟨rfl, rfl, rfl⟩)
  | ulawDec enc be =>
    simp only [exec, execUlawDec] at h
    exact .inr (completed_F h ⟨rfl, rfl, rfl⟩)
  | ulawEnc enc be =>
    simp only [exec, execUlawEnc] at h
    exact .inr (completed_R h ⟨rfl, rfl, rfl⟩)
  | alawDec enc be =>
    simp only [exec, execAlawDec] at h
    exact .inr (completed_F h ⟨rfl, rfl, rfl⟩)
  | alawEnc enc be =>
    simp only [exec, execAlawEnc] at h
    exact .inr (completed_R h ⟨rfl, rfl, rfl⟩)
  | decode enc be =>
    simp only [exec, execDecode] at h
    rcases withKind_next h with he | ⟨k, rfl, h⟩
    · exact .inl he
    rcases withFormat_next h with he | ⟨-, -, h⟩
    · exact .inl he
    · exact .inr (completed_F h ⟨rfl, rfl, rfl⟩)
  | encode enc be =>
    simp only [exec, execEncode] at h
    rcases withKind_next h with he | ⟨k, rfl, h⟩
    · exact .inl he
    rcases withFormat_next h with he | ⟨-, -, h⟩
    · exact .inl he
    · exact .inr (completed_R h ⟨rfl, rfl, rfl⟩)
  | rdword enc be =>
    simp only [exec, execRdword] at h
    rcases withWord_next h with he | ⟨-, -, -, -, h⟩
    · exact .inl he
    · exact .inr (completed_R h ⟨rfl, rfl, rfl⟩)
  | wrword enc be =>
    simp only [exec, execWrword] at h
    rcases withWord_next h with he | ⟨hb, -, -, hin, h⟩
    · exact .inl he
    · refine .inr ⟨writeWord st.bytes st.offset.toNat st.a st.width.toNat be, st.samples, none, none, none, ?_, rfl,
        rfl, rfl, fun hw => by simp [writesBytes] at hw, fun _ => rfl, writeBytes_size _ _ _ _ _ _, rfl,
        fun hw => (writeWord_spec hw _ _ _ _ (by omega)).1, id⟩
      simpa [completeBytes] using h.symm
  | unpack enc be =>
    rcases execUnpack_next h with he | ⟨k, rfl, hc, -, -, -, hs, h⟩
    · exact .inl he
    · refine .inr ⟨st.bytes, _, none, none, some _, by simpa [completeSamplesN] using h.symm, rfl, rfl, rfl,
        fun _ => rfl, fun hw => by simp [writesSamples] at hw, rfl, unpackBlocks_size _ _ _ _ _ _, id,
        fun hw => (unpackBlocks_spec _ _ _ _ hw (hs.trans hc.2)).1⟩
  | pack enc be =>
    rcases execPack_next h with he | ⟨k, rfl, hc, hok, -, hb, -, h⟩
    · exact .inl he
    · refine .inr ⟨_, st.samples, none, none, some _, by simpa [completeBytesN] using h.symm, rfl, rfl, rfl,
        fun hw => by simp [writesBytes] at hw, fun _ => rfl, packBlocks_size _ _ _ _ _ _, rfl,
        fun hw => (packBlocks_spec _ _ _ _ hw (bytesPerSample_pos (bitsOk_toNat hok).1) (hb.trans hc.1)).1, id⟩

/-! ### Every operation answers a next state where the capacities it reaches are stated truly -/

theorem withBits_completes {st : State} {use : Nat → Result} (h : ∀ n, ∃ t, use n = .next t) :
    ∃ t, withBits st use = .next t := by
  unfold withBits
  split
  · exact h _
  · exact ⟨_, rfl⟩

theorem withFormat_completes {k : Kind} {d : Direction} {st : State} {use : Nat → Result}
    (h : ∀ n, ∃ t, use n = .next t) : ∃ t, withFormat k d st use = .next t := by
  refine withBits_completes fun n => ?_
  cases kindError k n d st.legacyFloatZero with
  | none => exact h n
  | some e => exact ⟨_, rfl⟩

theorem withKind_completes {enc : Enc} {st : State} {use : Kind → Result} (h : ∀ k, ∃ t, use k = .next t) :
    ∃ t, withKind enc st use = .next t := by
  cases enc with
  | of k => exact h k
  | _ => exact ⟨_, rfl⟩

theorem withWord_completes {st : State} {use : Nat → Nat → Result} (hb : st.bcap.val ≤ st.bytes.size)
    (h : ∀ off w, ∃ t, use off w = .next t) : ∃ t, withWord st use = .next t := by
  rw [withWord, withBytes_ok hb]
  split
  · split
    · exact ⟨_, rfl⟩
    · exact h _ _
  · exact ⟨_, rfl⟩

theorem exec_completes {i : Instr} {st : State} (hc : ReachedCapacitiesTrue i st) : ∃ t, exec i st = .next t := by
  cases i <;> simp only [exec, execBps, execFscale, execSext, execToob, execFromob, execPcmsDec, execPcmuDec,
    execPcmsEnc, execPcmuEnc, execFltDec, execFltEnc, execUlawDec, execUlawEnc, execAlawDec, execAlawEnc, execDecode,
    execEncode, execRdword, execWrword, execUnpack, execPack]
  case rdword => exact withWord_completes (hc.1 rfl) fun _ _ => ⟨_, rfl⟩
  case wrword => exact withWord_completes (hc.1 rfl) fun _ _ => ⟨_, rfl⟩
  case decode => exact withKind_completes fun _ => withFormat_completes fun _ => ⟨_, rfl⟩
  case encode => exact withKind_completes fun _ => withFormat_completes fun _ => ⟨_, rfl⟩
  case fltDec => exact withFormat_completes fun _ => ⟨_, rfl⟩
  case fltEnc => exact withFormat_completes fun _ => ⟨_, rfl⟩
  case ulawDec => exact ⟨_, rfl⟩
  case ulawEnc => exact ⟨_, rfl⟩
  case alawDec => exact ⟨_, rfl⟩
  case alawEnc => exact ⟨_, rfl⟩
  case unpack =>
    refine withKind_completes fun k => ?_
    rw [withBytes_ok (hc.1 rfl), withSamples_ok (hc.2 rfl)]
    refine withFormat_completes fun n => ?_
    split
    · exact ⟨_, rfl⟩
    split <;> exact ⟨_, rfl⟩
  case pack =>
    refine withKind_completes fun k => ?_
    rw [withBytes_ok (hc.1 rfl), withSamples_ok (hc.2 rfl)]
    refine withFormat_completes fun n => ?_
    split
    · exact ⟨_, rfl⟩
    split <;> exact ⟨_, rfl⟩
  all_goals exact withBits_completes fun _ => ⟨_, rfl⟩

end Sys2Proof.Machine
end

