-- ==== Sys2Proof/Laws/CutRequest.lean ====
section
/-! SUPPORT. Requests cut by reset (70_reset_and_hazards.md rule R221): what `scramble` does to the buffers, and what a
cut request answers. -/

namespace Sys2Proof.Machine

open Sys2Proof

theorem decode_legal_wellFormed {cmd : Word32} {i : Instr} (h : decode cmd = .legal i) : i.wellFormed = true := by
  unfold decode at h
  split at h
  · cases h
  split at h
  · cases h
  split at h
  · cases h; assumption
  · cases h

theorem withKind_wellFormed {enc : Enc} {st t : State} {use : Kind → Result} (hw : enc.kind?.isSome = true)
    (h : withKind enc st use = .next t) : ∃ k, use k = .next t := by
  cases enc with
  | of k => exact ⟨k, h⟩
  | _ => cases hw

/-- A well-formed operation that answers a next state has those capacities stated truly. -/
theorem exec_next_capacities {i : Instr} {st t : State} (hw : i.wellFormed = true) (h : exec i st = .next t) :
    ReachedCapacitiesTrue i st := by
  cases i with
  | rdword enc be =>
    exact ⟨fun _ => (withBytes_next (by simpa only [exec, execRdword, withWord] using h)).1, nofun⟩
  | wrword enc be =>
    exact ⟨fun _ => (withBytes_next (by simpa only [exec, execWrword, withWord] using h)).1, nofun⟩
  | unpack enc be =>
    obtain ⟨k, h⟩ := withKind_wellFormed hw (show withKind enc st _ = _ from h)
    obtain ⟨hb, h⟩ := withBytes_next h
    exact ⟨fun _ => hb, fun _ => (withSamples_next h).1⟩
  | pack enc be =>
    obtain ⟨k, h⟩ := withKind_wellFormed hw (show withKind enc st _ = _ from h)
    obtain ⟨hb, h⟩ := withBytes_next h
    exact ⟨fun _ => hb, fun _ => (withSamples_next h).1⟩
  | _ => exact ⟨nofun, nofun⟩

/-- The output region in BYTES lies below the capacity and is empty for an operation that does not reach BYTES. -/
theorem bytesRegion_le (i : Instr) (st : State) :
    (bytesRegion i st).2 ≤ st.bcap.val ∧ (reachesBytes i = false → bytesRegion i st = (0, 0)) := by
  cases i with
  | wrword enc be => exact ⟨Nat.min_le_right _ _, nofun⟩
  | pack enc be =>
    refine ⟨?_, nofun⟩
    simp only [bytesRegion]
    split
    · exact Nat.min_le_right _ _
    · exact le_refl _
  | _ => exact ⟨Nat.zero_le _, fun _ => rfl⟩

/-- The same of the output region in SAMPLES. -/
theorem samplesRegion_le (i : Instr) (st : State) :
    samplesRegion i st ≤ st.scap.val ∧ (reachesSamples i = false → samplesRegion i st = 0) := by
  cases i with
  | unpack enc be =>
    refine ⟨?_, nofun⟩
    simp only [samplesRegion]
    split
    · exact Nat.min_le_right _ _
    · exact le_refl _
  | _ => exact ⟨Nat.zero_le _, fun _ => rfl⟩

/-- The region the model fills is the region of rule R221 as the statements say it. -/
theorem bytesRegion_iff (i : Instr) (st : State) (k : Nat) :
    ((bytesRegion i st).1 ≤ k ∧ k < (bytesRegion i st).2) ↔ inBytesRegion i st k := by
  cases i with
  | wrword e b => simp only [bytesRegion, inBytesRegion]; omega
  | pack e b =>
    simp only [bytesRegion, inBytesRegion]
    by_cases h : st.bitsOk
    · rw [if_pos ((bitsInRange_iff st).2 h)]
      simp only [h, bytesPerSample, ceilDiv, true_imp_iff]
      show _ ∧ k < min (st.len.toNat * ((st.bits.toNat + 7) / 8)) _ ↔ _
      omega
    · rw [if_neg (mt (bitsInRange_iff st).1 h)]; simp [h]
  | _ => simp [bytesRegion, inBytesRegion]

/-- The same in SAMPLES. -/
theorem samplesRegion_iff (i : Instr) (st : State) (k : Nat) :
    k < samplesRegion i st ↔ inSamplesRegion i st k := by
  cases i with
  | unpack e b =>
    simp only [samplesRegion, inSamplesRegion]
    by_cases h : st.bitsOk
    · rw [if_pos ((bitsInRange_iff st).2 h)]
      have hpos := bytesPerSample_pos (bitsOk_toNat h).1
      simp only [h, true_imp_iff]
      change _ ↔ _ ∧ k * bytesPerSample st.bits.toNat < _
      generalize bytesPerSample st.bits.toNat = w at *
      have : k < ceilDiv st.len.toNat w ↔ k * w < st.len.toNat := by
        unfold ceilDiv
        rw [Nat.lt_div_iff_mul_lt hpos]; omega
      rw [← this]; omega
    · rw [if_neg (mt (bitsInRange_iff st).1 h)]; simp [h]
  | _ => simp [samplesRegion, inSamplesRegion]

/-- `scramble` keeps the canonical form and the sizes, puts a free value into each element of the output region and
leaves every other element alone. -/
theorem scramble_spec {i : Instr} {st : State} (hb : st.bytes.wf) (hs : st.samples.wf)
    (hc : ReachedCapacitiesTrue i st) :
    ((scramble i st).bytes.wf ∧ (scramble i st).bytes.size = st.bytes.size ∧
      ∀ k, (scramble i st).bytes.get k =
        if (bytesRegion i st).1 ≤ k ∧ k < (bytesRegion i st).2 then Config.resetByte st.draws k else st.bytes.get k) ∧
    ((scramble i st).samples.wf ∧ (scramble i st).samples.size = st.samples.size ∧
      ∀ k, (scramble i st).samples.get k =
        if k < samplesRegion i st then Config.resetSample st.draws k else st.samples.get k) := by
  have hbytes : ∀ k, k < (bytesRegion i st).2 - (bytesRegion i st).1 → (bytesRegion i st).1 + k < st.bytes.size := by
    intro k hk
    have hle := bytesRegion_le i st
    cases hr : reachesBytes i with
    | true => have := hc.1 hr; omega
    | false => rw [hle.2 hr] at hk; simp at hk
  have hsamples : ∀ k, k < samplesRegion i st → 0 + k < st.samples.size := by
    intro k hk
    have hle := samplesRegion_le i st
    cases hr : reachesSamples i with
    | true => have := hc.2 hr; omega
    | false => rw [hle.2 hr] at hk; simp at hk
  obtain ⟨b1, b2, b3⟩ := Buffer.fill_spec hb (bytesRegion i st).1 (Config.resetByte st.draws) hbytes
  obtain ⟨s1, s2, s3⟩ := Buffer.fill_spec hs 0 (Config.resetSample st.draws) hsamples
  refine ⟨⟨b1, b2, fun k => (b3 k).trans (if_congr ?_ rfl rfl)⟩, s1, s2, fun k => (s3 k).trans (if_congr ?_ rfl rfl)⟩
  · omega
  · omega

/-- What a cut request answers, where it answers a next state. -/
theorem runCutRequest_next {st t : State} (h : runCutRequest st = .next t) :
    (∃ why, decode st.cmd = .illegal why ∧ t = st.resetBlock) ∨
      ∃ i, decode st.cmd = .legal i ∧ ReachedCapacitiesTrue i st ∧
        t = { (scramble i st).resetBlock with draws := st.draws + 1 } := by
  unfold runCutRequest at h
  split at h
  · rename_i why hd
    cases h
    exact .inl ⟨why, hd, rfl⟩
  · rename_i i hd
    split at h
    · rename_i done hdone
      cases h
      exact .inr ⟨i, hd, exec_next_capacities (decode_legal_wellFormed hd) hdone, rfl⟩
    · cases h
    · cases h

end Sys2Proof.Machine
end

