-- ==== Sys2Proof/Laws/LinearPcm.lean ====
section
/-! SUPPORT. Scaling by full scale is exact (rules R110 and R113), the values an integer of a word takes, and what the
linear decoders and encoders compute in terms of them. -/

namespace Sys2Proof.Machine

open Sys2Proof

theorem units_lt_of_mag {fmt : FloatFormat} (hf : 0 < fmt.fracBits) {m n : Nat} :
    fmt.magUnits m < fmt.magUnits n ↔ m < n :=
  (FloatFormat.magUnits_strictMono hf).lt_iff_lt

theorem magUnits_infMag64 : binary64.magUnits binary64.infMag = 2 ^ 2098 := by decide +kernel

theorem magUnits_infMag32 : binary32.magUnits binary32.infMag = 2 ^ 277 := by decide +kernel

/-- The magnitude of a value below `2 ^ 1024`, in units, is finite. -/
theorem finite64_iff_units (x : F64) (hN : isNaN64 x = false) : Finite64 x ↔ (units64 x).natAbs < 2 ^ 2098 := by
  rw [natAbs_units64, ← magUnits_mag64, ← magUnits_infMag64, units_lt_of_mag frac64, finite64_iff, infMag64]

theorem finite32_iff_units (s : F32) (hN : isNaN32 s = false) : Finite32 s ↔ (units32 s).natAbs < 2 ^ 277 := by
  rw [natAbs_units32, ← magUnits_mag32, ← magUnits_infMag32, units_lt_of_mag frac32, finite32_iff, infMag32]

/-- A significand times a power of two, in range, has an encoding. -/
theorem exists_mag64 {m j : Nat} (hm : m ≤ 2 ^ 53) (h : m * 2 ^ j < 2 ^ 2098) :
    ∃ p, p ≤ binary64.infMag ∧ binary64.magUnits p = m * 2 ^ j := by
  have key : ∃ p, binary64.magUnits p = m * 2 ^ j := by
    rcases Nat.lt_or_ge m (2 ^ 53) with hlt | hge
    · exact FloatFormat.exists_magUnits frac64 hlt
    · obtain ⟨p, hp⟩ := FloatFormat.exists_magUnits (fmt := binary64) frac64 (m := 1) (j := 53 + j)
        (by norm_num [binary64])
      exact ⟨p, by rw [hp, show m = 2 ^ 53 by omega, pow_add, Nat.one_mul]⟩
  obtain ⟨p, hp⟩ := key
  refine ⟨p, ?_, hp⟩
  rw [← hp, ← magUnits_infMag64, units_lt_of_mag frac64] at h
  exact h.le

theorem exists_mag32 {m j : Nat} (hm : m ≤ 2 ^ 24) (h : m * 2 ^ j < 2 ^ 277) :
    ∃ p, p ≤ binary32.infMag ∧ binary32.magUnits p = m * 2 ^ j := by
  have key : ∃ p, binary32.magUnits p = m * 2 ^ j := by
    rcases Nat.lt_or_ge m (2 ^ 24) with hlt | hge
    · exact FloatFormat.exists_magUnits frac32 hlt
    · obtain ⟨p, hp⟩ := FloatFormat.exists_magUnits (fmt := binary32) frac32 (m := 1) (j := 24 + j)
        (by norm_num [binary32])
      exact ⟨p, by rw [hp, show m = 2 ^ 24 by omega, pow_add, Nat.one_mul]⟩
  obtain ⟨p, hp⟩ := key
  refine ⟨p, ?_, hp⟩
  rw [← hp, ← magUnits_infMag32, units_lt_of_mag frac32] at h
  exact h.le

/-- A binary64 with the magnitude of an encoded value has that value. -/
theorem natAbs_units64_of_roundsTo {x : F64} {num den m j : Nat} (hd : 0 < den)
    (h : RoundsTo binary64 num den (mag64 x)) (hm : m ≤ 2 ^ 53) (hlt : m * 2 ^ j < 2 ^ 2098)
    (he : m * 2 ^ j * den = num) : (units64 x).natAbs = m * 2 ^ j := by
  obtain ⟨p, hp, hu⟩ := exists_mag64 hm hlt
  rw [natAbs_units64, ← magUnits_mag64, h.eq_of_magUnits frac64 hd (by rw [hu, he]) hp, hu]

theorem natAbs_units32_of_roundsTo {s : F32} {num den m j : Nat} (hd : 0 < den)
    (h : RoundsTo binary32 num den (mag32 s)) (hm : m ≤ 2 ^ 24) (hlt : m * 2 ^ j < 2 ^ 277)
    (he : m * 2 ^ j * den = num) : (units32 s).natAbs = m * 2 ^ j := by
  obtain ⟨p, hp, hu⟩ := exists_mag32 hm hlt
  rw [natAbs_units32, ← magUnits_mag32, h.eq_of_magUnits frac32 hd (by rw [hu, he]) hp, hu]

theorem natAbs_units64_fullScale {bits : Nat} (h1 : 1 ≤ bits) (h : bits ≤ 64) :
    (units64 (fullScale bits)).natAbs = 2 ^ (bits - 1) * 2 ^ 1074 := by
  rw [units64_fullScale h1 h, Int.natAbs_mul, Int.natAbs_pow, Int.natAbs_pow]
  rfl

/-- Two numbers of one sign with one magnitude. -/
theorem int_eq_of_sign {a b : Int} {s t : Bool} (ha : a = if s then -(a.natAbs : Int) else a.natAbs)
    (hb : b = if t then -(b.natAbs : Int) else b.natAbs) (hs : s = t) (h : a.natAbs = b.natAbs) : a = b := by
  rw [ha, hb, hs, h]

/-- Division by full scale is exact (rule R110), for a zero or a value that stays normal. -/
theorem div64_fullScale {x : F64} (hx : Finite64 x) (hm : mag64 x = 0 ∨ 64 * 2 ^ 52 ≤ mag64 x) {bits : Nat}
    (h1 : 1 ≤ bits) (h : bits ≤ 64) :
    Finite64 (div64 x (fullScale bits)) ∧ sign64 (div64 x (fullScale bits)) = sign64 x ∧
      units64 (div64 x (fullScale bits)) * 2 ^ (bits - 1) = units64 x := by
  have h0 : units64 (fullScale bits) ≠ 0 := by
    rw [units64_fullScale h1 h]; positivity
  obtain ⟨hs, hN, hr⟩ := div64_spec hx (finite64_fullScale h) h0
  rw [sign64_fullScale h, Bool.bne_false] at hs
  have hsc : sig64 x = 0 ∨ bits - 1 ≤ scale64 x := by
    rcases hm with hm | hm
    · exact .inl ((sig64_eq_zero x).2 hm)
    · right; unfold scale64; omega
  have hfin := (finite64_iff_units x hx.1).1 hx
  have hu : (units64 (div64 x (fullScale bits))).natAbs = sig64 x * 2 ^ (scale64 x - (bits - 1)) := by
    refine natAbs_units64_of_roundsTo ?_ hr (sig64_lt x).le ?_ ?_
    · omega
    · rw [natAbs_units64] at hfin
      exact lt_of_le_of_lt (Nat.mul_le_mul_left _ (Nat.pow_le_pow_right (by omega) (Nat.sub_le _ _))) hfin
    · rw [natAbs_units64_fullScale h1 h, natAbs_units64]
      rcases hsc with h2 | h2
      · simp [h2]
      · have : 2 ^ scale64 x = 2 ^ (scale64 x - (bits - 1)) * 2 ^ (bits - 1) := by
          rw [← pow_add]; congr 1; omega
        rw [this]; ring
  have hmul : (units64 (div64 x (fullScale bits)) * 2 ^ (bits - 1)).natAbs = (units64 x).natAbs := by
    rw [Int.natAbs_mul, Int.natAbs_pow, hu, natAbs_units64]
    rcases hsc with h2 | h2
    · simp [h2]
    · rw [Nat.mul_assoc]
      congr 1
      change 2 ^ _ * 2 ^ _ = _
      rw [← pow_add]; congr 1; omega
  refine ⟨(finite64_iff_units _ hN).2 ?_, hs, ?_⟩
  · refine lt_of_le_of_lt ?_ hfin
    rw [← hmul, Int.natAbs_mul, Int.natAbs_pow]
    exact Nat.le_mul_of_pos_right _ (by positivity)
  · refine int_eq_of_sign (s := sign64 x) (t := sign64 x) ?_ (units64_sign x) rfl hmul
    conv_lhs => rw [units64_sign, hs]
    rw [Int.natAbs_mul, Int.natAbs_pow]
    split <;> push_cast <;> ring

/-- Multiplication by full scale is exact (rule R113) where the product is in range. -/
theorem mul64_fullScale {x : F64} (hx : Finite64 x) {bits : Nat} (h1 : 1 ≤ bits) (h : bits ≤ 64)
    (hlt : (units64 x).natAbs * 2 ^ (bits - 1) < 2 ^ 2098) :
    Finite64 (mul64 x (fullScale bits)) ∧ sign64 (mul64 x (fullScale bits)) = sign64 x ∧
      units64 (mul64 x (fullScale bits)) = units64 x * 2 ^ (bits - 1) := by
  obtain ⟨hs, hN, hr⟩ := mul64_spec hx (finite64_fullScale h)
  rw [sign64_fullScale h, Bool.bne_false] at hs
  have hu : (units64 (mul64 x (fullScale bits))).natAbs = (units64 x).natAbs * 2 ^ (bits - 1) := by
    rw [natAbs_units64 x, Nat.mul_assoc, ← pow_add] at hlt ⊢
    refine natAbs_units64_of_roundsTo (by positivity) hr (sig64_lt x).le hlt ?_
    rw [Int.natAbs_mul, natAbs_units64_fullScale h1 h, natAbs_units64, pow_add]
    ring
  refine ⟨(finite64_iff_units _ hN).2 (by rwa [hu]), hs, ?_⟩
  refine int_eq_of_sign (s := sign64 x) (t := sign64 x) ?_ ?_ rfl ?_
  · conv_lhs => rw [units64_sign, hs]
  · conv_lhs => rw [units64_sign]
    rw [Int.natAbs_mul, Int.natAbs_pow]
    split <;> push_cast <;> ring
  · rw [hu, Int.natAbs_mul, Int.natAbs_pow]
    rfl

/-- An integer of 64 bits converts to a zero or a value between `1` and `2 ^ 63`. -/
theorem f64OfInt_range {k : Int} (h1 : -(2 ^ 63) ≤ k) (h2 : k < 2 ^ 63) :
    Finite64 (f64OfInt k) ∧ (units64 (f64OfInt k)).natAbs ≤ 2 ^ 63 * 2 ^ 1074 ∧
      (mag64 (f64OfInt k) = 0 ∨ 1023 * 2 ^ 52 ≤ mag64 (f64OfInt k)) := by
  obtain ⟨-, hN, hr⟩ := f64OfInt_spec k
  have hU : ∀ b, 1 ≤ b → b ≤ 64 → binary64.magUnits ((1022 + b) * 2 ^ 52) = 2 ^ (b - 1) * 2 ^ 1074 := fun b a c => by
    rw [← natAbs_units64_fullScale a c, natAbs_units64, ← magUnits_mag64, mag64_fullScale c]
  have hle : mag64 (f64OfInt k) ≤ (1022 + 64) * 2 ^ 52 := by
    refine hr.le frac64 (by norm_num) ?_
    rw [hU 64 (by norm_num) le_rfl, Nat.mul_one]
    exact Nat.mul_le_mul_right _ (by omega)
  refine ⟨(finite64_iff _).2 (by omega), ?_, ?_⟩
  · rw [natAbs_units64, ← magUnits_mag64]
    refine le_trans ((FloatFormat.magUnits_strictMono frac64).monotone hle) ?_
    rw [hU 64 (by norm_num) le_rfl]
  · rcases eq_or_ne k 0 with rfl | hk
    · left; decide
    · right
      have := hr.ge frac64 (by norm_num) (P := (1022 + 1) * 2 ^ 52) ?_ (by rw [infMag64]; norm_num)
      · omega
      · rw [hU 1 (by norm_num) (by norm_num), Nat.mul_one]
        exact Nat.mul_le_mul_right _ (by omega)

/-- An integer of few significant bits converts exactly. -/
theorem f64OfInt_exact {k : Int} {m j : Nat} (hk : k.natAbs = m * 2 ^ j) (hm : m ≤ 2 ^ 53) (h : k.natAbs ≤ 2 ^ 63) :
    units64 (f64OfInt k) = k * 2 ^ 1074 := by
  obtain ⟨hs, hN, hr⟩ := f64OfInt_spec k
  have hu : (units64 (f64OfInt k)).natAbs = m * 2 ^ (j + 1074) := by
    refine natAbs_units64_of_roundsTo (by norm_num) hr hm ?_ ?_
    · rw [pow_add, ← Nat.mul_assoc, ← hk]
      calc k.natAbs * 2 ^ 1074 ≤ 2 ^ 63 * 2 ^ 1074 := Nat.mul_le_mul_right _ h
        _ = 2 ^ 1137 := by rw [← pow_add]
        _ < 2 ^ 2098 := Nat.pow_lt_pow_right (by omega) (by omega)
    · rw [Nat.mul_one, hk, pow_add]; ring
  refine int_eq_of_sign (s := decide (k < 0)) (t := decide (k < 0)) ?_ ?_ rfl ?_
  · conv_lhs => rw [units64_sign, hs]
  · rw [Int.natAbs_mul, Int.natAbs_pow]
    by_cases h0 : k < 0
    · simp only [h0, decide_true, if_true]
      push_cast
      rw [abs_of_neg h0]
      ring
    · simp only [h0, decide_false, Bool.false_eq_true, if_false]
      push_cast
      rw [abs_of_nonneg (by omega)]
  · rw [hu, Int.natAbs_mul, Int.natAbs_pow, hk, pow_add, Nat.mul_assoc]
    rfl

/-! ### The integers of a word -/

theorem two_pow_pred {bits : Nat} (h1 : 1 ≤ bits) : 2 ^ bits = 2 * 2 ^ (bits - 1) := by
  rw [← pow_succ']
  congr 1
  omega

/-- Sign extension is the bit test (rule R101). -/
theorem signExtendWord_toInt (raw : Word64) {bits : Nat} (h1 : 1 ≤ bits) (h2 : bits ≤ 64) :
    (signExtendWord raw bits).toInt = signedValue raw bits := by
  have hp := two_pow_pred h1
  have hlt : raw.toNat % 2 ^ bits < 2 ^ bits := Nat.mod_lt _ (by positivity)
  have hpos : 0 < 2 ^ (64 - bits) := by positivity
  have hP : 2 ^ 64 = 2 ^ bits * 2 ^ (64 - bits) := by rw [← pow_add]; congr 1; omega
  have hbit : raw.getLsbD (bits - 1) = decide (2 ^ (bits - 1) ≤ raw.toNat % 2 ^ bits) := by
    have e : raw.getLsbD (bits - 1) = (raw.toNat % 2 ^ bits).testBit (bits - 1) := by
      rw [Nat.testBit_mod_two_pow, decide_eq_true (by omega : bits - 1 < bits), Bool.true_and]
      rfl
    rw [e, Nat.testBit_eq_decide_div_mod_eq]
    congr 1
    rw [eq_iff_iff]
    generalize raw.toNat % 2 ^ bits = x at *
    have : 0 < 2 ^ (bits - 1) := by positivity
    rcases Nat.lt_or_ge x (2 ^ (bits - 1)) with h | h
    · rw [Nat.div_eq_of_lt h]; omega
    · rw [show x / 2 ^ (bits - 1) = 1 from Nat.div_eq_of_lt_le (by omega) (by omega)]; omega
  have hmod : raw.toNat * 2 ^ (64 - bits) % 2 ^ 64 = raw.toNat % 2 ^ bits * 2 ^ (64 - bits) := by
    rw [hP, Nat.mul_mod_mul_right]
  unfold signExtendWord signedValue
  rw [BitVec.toInt_sshiftRight, BitVec.toInt_eq_toNat_cond, BitVec.toNat_shiftLeft, Nat.shiftLeft_eq, hmod, hbit,
    Int.shiftRight_eq_div_pow]
  generalize raw.toNat % 2 ^ bits = x at *
  have hPz : ((2 ^ 64 : Nat) : Int) = (2 ^ bits : Int) * 2 ^ (64 - bits) := by rw [hP]; push_cast; rfl
  rw [hPz, hP]
  by_cases h6 : 2 ^ (bits - 1) ≤ x
  · have : ¬ 2 * (x * 2 ^ (64 - bits)) < 2 ^ bits * 2 ^ (64 - bits) := by
      rw [← Nat.mul_assoc]; exact Nat.not_lt.2 (Nat.mul_le_mul_right _ (by omega))
    rw [if_neg this, if_pos (by simpa using h6)]
    push_cast
    rw [← Int.sub_mul, Int.mul_ediv_cancel _ (by positivity)]
  · have : 2 * (x * 2 ^ (64 - bits)) < 2 ^ bits * 2 ^ (64 - bits) := by
      rw [← Nat.mul_assoc]; exact Nat.mul_lt_mul_of_pos_right (by omega) hpos
    rw [if_pos this, if_neg (by simpa using h6)]
    push_cast
    rw [Int.mul_ediv_cancel _ (by positivity)]

theorem one_shiftLeft {bits : Nat} : 1#64 <<< bits = BitVec.ofNat 64 (2 ^ bits) := by
  apply BitVec.eq_of_toNat_eq
  rw [BitVec.toNat_shiftLeft, BitVec.toNat_ofNat, BitVec.toNat_ofNat, Nat.shiftLeft_eq]
  simp

/-- Offset binary is a subtraction modulo `2 ^ 64` (rule R104). -/
theorem fromOffsetBinary_toInt (raw : Word64) {bits : Nat} (h1 : 1 ≤ bits) (h2 : bits ≤ 64) :
    (fromOffsetBinary raw bits).toInt = offsetValue raw bits := by
  have hle : 2 ^ (bits - 1) < 2 ^ 64 := Nat.pow_lt_pow_right (by omega) (by omega)
  unfold fromOffsetBinary offsetValue
  rw [BitVec.toInt_sub, one_shiftLeft, BitVec.toInt_eq_toNat_bmod, BitVec.toInt_eq_toNat_bmod, Int.sub_bmod_bmod,
    Int.bmod_sub_bmod, BitVec.toNat_ofNat, Nat.mod_eq_of_lt hle]
  push_cast
  rfl

theorem signedValue_range (raw : Word64) {bits : Nat} (h1 : 1 ≤ bits) (h2 : bits ≤ 64) :
    -(2 ^ 63) ≤ signedValue raw bits ∧ signedValue raw bits < 2 ^ 63 := by
  rw [← signExtendWord_toInt raw h1 h2]
  exact ⟨BitVec.le_toInt _, BitVec.toInt_lt⟩

theorem offsetValue_range (raw : Word64) {bits : Nat} (h1 : 1 ≤ bits) (h2 : bits ≤ 64) :
    -(2 ^ 63) ≤ offsetValue raw bits ∧ offsetValue raw bits < 2 ^ 63 := by
  rw [← fromOffsetBinary_toInt raw h1 h2]
  exact ⟨BitVec.le_toInt _, BitVec.toInt_lt⟩

/-! ### Samples -/

/-- Everything the linear decoders do with their integer (rules R110 and R112). -/
theorem pcmSample_spec {k : Word64} {bits : Nat} (h1 : 1 ≤ bits) (h : bits ≤ 64) :
    Finite64 (div64 (f64OfInt k.toInt) (fullScale bits)) ∧
      units64 (div64 (f64OfInt k.toInt) (fullScale bits)) * 2 ^ (bits - 1) = units64 (f64OfInt k.toInt) ∧
      Finite32 (pcmSample k bits) ∧ sign32 (pcmSample k bits) = decide (k.toInt < 0) ∧
      (k.toInt = 0 → pcmSample k bits = 0) ∧
      (Representable32 k.toInt → units32 (pcmSample k bits) * 2 ^ (bits - 1) = k.toInt * 2 ^ 149) := by
  have hk1 : -(2 ^ 63) ≤ k.toInt := BitVec.le_toInt k
  have hk2 : k.toInt < 2 ^ 63 := BitVec.toInt_lt
  obtain ⟨hs0, -, -⟩ := f64OfInt_spec k.toInt
  obtain ⟨hfin, hbound, hmag⟩ := f64OfInt_range hk1 hk2
  obtain ⟨q1, q2, q3⟩ := div64_fullScale hfin (by omega) h1 h
  obtain ⟨v1, v2, v3⟩ := f32OfF64_spec q1
  have hqb : (units64 (div64 (f64OfInt k.toInt) (fullScale bits))).natAbs ≤ 2 ^ 63 * 2 ^ 1074 := by
    refine le_trans ?_ hbound
    rw [← q3, Int.natAbs_mul, Int.natAbs_pow]
    exact Nat.le_mul_of_pos_right _ (by positivity)
  have hfin32 : Finite32 (pcmSample k bits) := by
    rw [finite32_iff]
    have hle := v3.le (P := (127 + 63) * 2 ^ 23) frac32 (by positivity) ?_
    · unfold pcmSample; omega
    · refine le_trans hqb ?_
      have hU : binary32.magUnits ((127 + 63) * 2 ^ 23) = 2 ^ 63 * 2 ^ 149 := by decide +kernel
      rw [hU, Nat.mul_assoc, ← pow_add, ← pow_add, ← pow_add]
  have hsign : sign32 (pcmSample k bits) = decide (k.toInt < 0) := by
    unfold pcmSample; rw [v1, q2, hs0]
  refine ⟨q1, q3, hfin32, hsign, fun h0 => ?_, ?_⟩
  · have hq0 : (units64 (div64 (f64OfInt k.toInt) (fullScale bits))).natAbs = 0 := by
      have hz : units64 (f64OfInt k.toInt) = 0 := by rw [h0]; decide
      rw [hz] at q3
      rcases mul_eq_zero.1 q3 with h5 | h5
      · rw [h5]; rfl
      · exact absurd h5 (by positivity)
    rw [hq0] at v3
    have hm0 := v3.eq_of_magUnits (P := 0) frac32 (by positivity) (by simp) (Nat.zero_le _)
    refine eq_of_sign_mag32 ?_ (hm0.trans (by decide))
    rw [hsign, h0]
    decide
  · rintro ⟨m, j, hm, hmj⟩
    have hex := f64OfInt_exact hmj (by omega) (by omega)
    rw [hex] at q3
    have hmj63 : m * 2 ^ j ≤ 2 ^ 63 := by omega
    have hu : (units32 (pcmSample k bits)).natAbs = m * 2 ^ (j + 149 - (bits - 1)) := by
      refine natAbs_units32_of_roundsTo (by positivity) v3 hm ?_ ?_
      · calc m * 2 ^ (j + 149 - (bits - 1)) ≤ m * 2 ^ (j + 149) :=
              Nat.mul_le_mul_left _ (Nat.pow_le_pow_right (by omega) (Nat.sub_le _ _))
          _ = m * 2 ^ j * 2 ^ 149 := by rw [pow_add, Nat.mul_assoc]
          _ ≤ 2 ^ 63 * 2 ^ 149 := Nat.mul_le_mul_right _ hmj63
          _ = 2 ^ 212 := by rw [← pow_add]
          _ < 2 ^ 277 := Nat.pow_lt_pow_right (by omega) (by omega)
      · have hpos : 0 < 2 ^ (bits - 1) := by positivity
        refine Nat.eq_of_mul_eq_mul_right hpos ?_
        have hn := congrArg Int.natAbs q3
        rw [Int.natAbs_mul, Int.natAbs_mul, Int.natAbs_pow, Int.natAbs_pow, hmj] at hn
        refine Eq.trans ?_ hn.symm
        change _ = m * 2 ^ j * 2 ^ 1074
        have e : 2 ^ (j + 149 - (bits - 1)) * 2 ^ (bits - 1) = 2 ^ j * 2 ^ 149 := by
          rw [← pow_add, ← pow_add]; congr 1; omega
        calc m * 2 ^ (j + 149 - (bits - 1)) * 2 ^ 925 * 2 ^ (bits - 1)
            = m * 2 ^ 925 * (2 ^ (j + 149 - (bits - 1)) * 2 ^ (bits - 1)) := by ring
          _ = m * 2 ^ j * (2 ^ 149 * 2 ^ 925) := by rw [e]; ring
          _ = m * 2 ^ j * 2 ^ 1074 := by rw [← pow_add]
    refine int_eq_of_sign (s := decide (k.toInt < 0)) (t := decide (k.toInt < 0)) ?_ ?_ rfl ?_
    · conv_lhs => rw [units32_sign, hsign]
      rw [Int.natAbs_mul, Int.natAbs_pow]
      split <;> push_cast <;> ring
    · rw [Int.natAbs_mul, Int.natAbs_pow]
      by_cases h0 : k.toInt < 0
      · simp only [h0, decide_true, if_true]
        push_cast
        rw [abs_of_neg h0]
        ring
      · simp only [h0, decide_false, Bool.false_eq_true, if_false]
        push_cast
        rw [abs_of_nonneg (by omega)]
    · rw [Int.natAbs_mul, Int.natAbs_mul, hu, Int.natAbs_pow, Int.natAbs_pow, hmj, Nat.mul_assoc, Nat.mul_assoc]
      congr 1
      change 2 ^ _ * 2 ^ _ = 2 ^ _ * 2 ^ _
      rw [← pow_add, ← pow_add]; congr 1; omega

/-- Everything the linear encoders compute before they write their word (rules R113, R114 and R116). -/
theorem truncI64_mul_fullScale (s : F32) {bits : Nat} (h1 : 1 ≤ bits) (h : bits ≤ 64) :
    truncInt (mul64 (f64OfF32 s) (fullScale bits)) = encodedInteger s bits := by
  unfold encodedInteger
  by_cases hN : isNaN32 s = true
  · have hw : isNaN64 (f64OfF32 s) = true := by unfold f64OfF32; rw [if_pos hN]; exact isNaN64_toNaN64 _
    have hm : isNaN64 (mul64 (f64OfF32 s) (fullScale bits)) = true := by
      unfold mul64; simp only [hw, Bool.true_or, if_true]; exact isNaN64_toNaN64 _
    rw [if_pos hN, truncInt, if_pos hm]
  rw [Bool.not_eq_true] at hN
  by_cases hI : isInf32 s = true
  · have hinf : ∀ b, mag64 (inf64 b) = 0x7FF0000000000000 ∧ sign64 (inf64 b) = b := fun b => by
      unfold inf64
      rw [mag64_pack64 (by rw [infMag64]; norm_num), sign64_pack64 (by rw [infMag64]; norm_num), infMag64]
      exact ⟨rfl, rfl⟩
    have hw : f64OfF32 s = inf64 (sign32 s) := by
      unfold f64OfF32; simp only [hN, hI, Bool.false_eq_true, if_false, if_true]
    have h2 : ∀ b, isNaN64 (inf64 b) = false ∧ isInf64 (inf64 b) = true ∧ isZero64 (inf64 b) = false := fun b => by
      rw [isNaN64_iff, isInf64_iff, isZero64_iff, (hinf b).1]; decide
    have hz : isZero64 (fullScale bits) = false := by
      rw [isZero64_iff, mag64_fullScale h, decide_eq_false_iff_not]; omega
    have hm : mul64 (f64OfF32 s) (fullScale bits) = inf64 (sign32 s) := by
      rw [hw]
      unfold mul64
      simp only [h2, hz, (finite64_fullScale h).1, (finite64_fullScale h).2, (hinf _).2, sign64_fullScale h,
        Bool.or_false, Bool.or_self, Bool.false_eq_true, if_false, if_true, Bool.bne_false]
    rw [hm, truncInt]
    simp only [h2, hN, hI, (hinf _).2, Bool.false_eq_true, if_false, if_true]
  rw [Bool.not_eq_true] at hI
  obtain ⟨-, hf, hu⟩ := f64OfF32_spec (s := s) ⟨hN, hI⟩
  have hlt := (finite32_iff_units s hN).1 ⟨hN, hI⟩
  obtain ⟨m1, -, m3⟩ := mul64_fullScale hf h1 h (by
    rw [hu, Int.natAbs_mul, Int.natAbs_pow]
    calc (units32 s).natAbs * 2 ^ 925 * 2 ^ (bits - 1)
        ≤ 2 ^ 277 * 2 ^ 925 * 2 ^ 63 := by
          refine Nat.mul_le_mul (Nat.mul_le_mul_right _ hlt.le) (Nat.pow_le_pow_right (by omega) (by omega))
      _ = 2 ^ 1265 := by rw [← pow_add, ← pow_add]
      _ < 2 ^ 2098 := Nat.pow_lt_pow_right (by omega) (by omega))
  rw [truncInt_finite m1, m3, hu]
  simp only [hN, hI, Bool.false_eq_true, if_false]
  have e : units32 s * 2 ^ 925 * 2 ^ (bits - 1) = units32 s * 2 ^ (bits - 1) * 2 ^ 925 := by ring
  have e2 : (2 : Int) ^ 1074 = 2 ^ 149 * 2 ^ 925 := by rw [← pow_add]
  rw [e, e2, Int.mul_tdiv_mul_of_pos_left _ _ (by positivity)]

end Sys2Proof.Machine
end

