-- ==== Sys2Proof/Laws/PerInstr.lean ====
section
/-! SUPPORT. Statements about every instruction as syntax, one lemma per constructor. -/

namespace Sys2Proof.Laws.EncodeFields

open Sys2Proof

/-- The encoded word of an instruction has its `OP` code, its `ENC` code and its `BE` bit in their fields, and zero in
the reserved bits (rules R60 to R64). -/
def Statement (i : Instr) : Prop :=
  (Sys2Proof.encode i).extractLsb' 0 5 = i.fields.1 ∧ (Sys2Proof.encode i).extractLsb' 5 3 = i.fields.2.1.toBits ∧
    (Sys2Proof.encode i).getLsbD 8 = i.fields.2.2 ∧ (Sys2Proof.encode i).extractLsb' 9 23 = 0

/-- The fields of a word put together as rule R73 says. -/
theorem fields_of_word : ∀ (op : BitVec 5) (enc : BitVec 3) (be : Bool),
    let w : Word32 := (if be then 0x100 else 0) ||| (enc.setWidth 32 <<< 5) ||| op.setWidth 32
    w.extractLsb' 0 5 = op ∧ w.extractLsb' 5 3 = enc ∧ w.getLsbD 8 = be ∧ w.extractLsb' 9 23 = 0 := by
  decide +kernel

theorem bps (enc : Enc) (be : Bool) : Statement (.bps enc be) := fields_of_word _ _ _

theorem fscale (enc : Enc) (be : Bool) : Statement (.fscale enc be) := fields_of_word _ _ _

theorem rdword (enc : Enc) (be : Bool) : Statement (.rdword enc be) := fields_of_word _ _ _

theorem wrword (enc : Enc) (be : Bool) : Statement (.wrword enc be) := fields_of_word _ _ _

theorem sext (enc : Enc) (be : Bool) : Statement (.sext enc be) := fields_of_word _ _ _

theorem toob (enc : Enc) (be : Bool) : Statement (.toob enc be) := fields_of_word _ _ _

theorem fromob (enc : Enc) (be : Bool) : Statement (.fromob enc be) := fields_of_word _ _ _

theorem pcmsDec (enc : Enc) (be : Bool) : Statement (.pcmsDec enc be) := fields_of_word _ _ _

theorem pcmuDec (enc : Enc) (be : Bool) : Statement (.pcmuDec enc be) := fields_of_word _ _ _

theorem pcmsEnc (enc : Enc) (be : Bool) : Statement (.pcmsEnc enc be) := fields_of_word _ _ _

theorem pcmuEnc (enc : Enc) (be : Bool) : Statement (.pcmuEnc enc be) := fields_of_word _ _ _

theorem fltDec (enc : Enc) (be : Bool) : Statement (.fltDec enc be) := fields_of_word _ _ _

theorem fltEnc (enc : Enc) (be : Bool) : Statement (.fltEnc enc be) := fields_of_word _ _ _

theorem ulawDec (enc : Enc) (be : Bool) : Statement (.ulawDec enc be) := fields_of_word _ _ _

theorem ulawEnc (enc : Enc) (be : Bool) : Statement (.ulawEnc enc be) := fields_of_word _ _ _

theorem alawDec (enc : Enc) (be : Bool) : Statement (.alawDec enc be) := fields_of_word _ _ _

theorem alawEnc (enc : Enc) (be : Bool) : Statement (.alawEnc enc be) := fields_of_word _ _ _

theorem decode (enc : Enc) (be : Bool) : Statement (.decode enc be) := fields_of_word _ _ _

theorem encode (enc : Enc) (be : Bool) : Statement (.encode enc be) := fields_of_word _ _ _

theorem unpack (enc : Enc) (be : Bool) : Statement (.unpack enc be) := fields_of_word _ _ _

theorem pack (enc : Enc) (be : Bool) : Statement (.pack enc be) := fields_of_word _ _ _

end Sys2Proof.Laws.EncodeFields
end

