-- ==== Sys2Proof/Tests/Slice0.lean ====
section
/-! SUPPORT. The model's own tests. Expected values come from 95_test_vectors.md (V1 to V290, W1 to W8, P1 to P6) and
from the worked cases of the rules; each test names its source. Compander results are tested with constant functions
in the place of `LN`, `EXP` and `POW`, which rule R15 leaves open, with the value the correctly rounded function gives
(95_test_vectors.md). Last stand witnesses: for each statement with hypotheses, inputs that meet them all. -/

namespace Sys2Proof.Tests

open Sys2Proof Sys2Proof.Machine

/-! ### Helpers -/

/-- What a result port carries after a request. -/
def port (p : ResultPort) : Result → Option Word64
  | .next t => t.portValue p
  | .fault _ => none
  | .refused _ => none

/-- The first `n` bytes of BYTES after a request. -/
def bytesAfter (n : Nat) : Result → List Byte
  | .next t => (List.range n).map t.bytes.get
  | .fault _ => []
  | .refused _ => []

/-- The first `n` elements of SAMPLES after a request. -/
def samplesAfter (n : Nat) : Result → List F32
  | .next t => (List.range n).map t.samples.get
  | .fault _ => []
  | .refused _ => []

/-- The reset machine with the operand ports driven. -/
def operands (bits : Word32) (a : Word64) (s : F32) : State := { State.reset with bits := bits, a := a, s := s }

/-- The BYTES of 95_test_vectors.md section 2.2, with a word selected. -/
def wordAt (width offset : Word32) : State :=
  { State.reset with
    bytes := Buffer.ofList [0xAA, 0x12, 0x34, 0x56, 0x78, 0x9A, 0xBC, 0xDE, 0xF0], bcap := 9
    width := width, offset := offset }

/-- Four zero bytes, as for the WRWORD vectors, with a word to write. -/
def writeAt (width offset : Word32) (a : Word64) : State :=
  { State.reset with
    bytes := Buffer.ofList [0, 0, 0, 0], bcap := 4, width := width, offset := offset, a := a }

/-- Six bytes and three samples, with a format and a length. -/
def stream (bits len : Word32) : State :=
  { State.reset with
    bytes := Buffer.ofList [0xFF, 0x7F, 0x00, 0x80, 0x00, 0x00], bcap := 6
    samples := Buffer.ofList [0x3F7FFE00, 0xBF800000, 0x3F000000], scap := 3
    bits := bits, len := len }

/-- The kind that most tests use where the operation ignores it. -/
abbrev k0 : Enc := .of .pcmSigned

/-! ### WellFormed: ill-formed terms are refused (rule R69) -/

theorem test_wellFormed_refuses_decode : (Instr.decode .reserved5 false).wellFormed = false := by decide
theorem test_wellFormed_refuses_encode : (Instr.encode .reserved6 false).wellFormed = false := by decide
theorem test_wellFormed_refuses_unpack : (Instr.unpack .reserved7 true).wellFormed = false := by decide
theorem test_wellFormed_refuses_pack : (Instr.pack .reserved5 true).wellFormed = false := by decide

/-- Rule R62: an operation that ignores `ENC` takes any value there. -/
theorem test_wellFormed_ignores_enc : (Instr.ulawDec .reserved5 false).wellFormed = true := by decide

/-! ### Decode: words written out field by field, `RSV ++ BE ++ ENC ++ OP` (rules R60 to R63) -/

theorem test_decode_bps : decode (0#23 ++ 0b0#1 ++ 0b000#3 ++ 0b00000#5) = .legal (.bps (.of .pcmSigned) false) := by decide
theorem test_decode_fscale : decode (0#23 ++ 0b1#1 ++ 0b001#3 ++ 0b00001#5) = .legal (.fscale (.of .pcmUnsigned) true) := by decide
theorem test_decode_rdword : decode (0#23 ++ 0b1#1 ++ 0b000#3 ++ 0b00010#5) = .legal (.rdword (.of .pcmSigned) true) := by decide
theorem test_decode_wrword : decode (0#23 ++ 0b0#1 ++ 0b010#3 ++ 0b00011#5) = .legal (.wrword (.of .pcmFloat) false) := by decide
theorem test_decode_sext : decode (0#23 ++ 0b0#1 ++ 0b011#3 ++ 0b00100#5) = .legal (.sext (.of .muLaw) false) := by decide
theorem test_decode_toob : decode (0#23 ++ 0b1#1 ++ 0b100#3 ++ 0b00101#5) = .legal (.toob (.of .aLaw) true) := by decide
theorem test_decode_fromob : decode (0#23 ++ 0b0#1 ++ 0b110#3 ++ 0b00110#5) = .legal (.fromob .reserved6 false) := by decide
theorem test_decode_pcmsDec : decode (0#23 ++ 0b0#1 ++ 0b000#3 ++ 0b00111#5) = .legal (.pcmsDec (.of .pcmSigned) false) := by decide
theorem test_decode_pcmuDec : decode (0#23 ++ 0b1#1 ++ 0b001#3 ++ 0b01000#5) = .legal (.pcmuDec (.of .pcmUnsigned) true) := by decide
theorem test_decode_pcmsEnc : decode (0#23 ++ 0b0#1 ++ 0b111#3 ++ 0b01001#5) = .legal (.pcmsEnc .reserved7 false) := by decide
theorem test_decode_pcmuEnc : decode (0#23 ++ 0b1#1 ++ 0b000#3 ++ 0b01010#5) = .legal (.pcmuEnc (.of .pcmSigned) true) := by decide
theorem test_decode_fltDec : decode (0#23 ++ 0b0#1 ++ 0b010#3 ++ 0b01011#5) = .legal (.fltDec (.of .pcmFloat) false) := by decide
theorem test_decode_fltEnc : decode (0#23 ++ 0b1#1 ++ 0b010#3 ++ 0b01100#5) = .legal (.fltEnc (.of .pcmFloat) true) := by decide
/-- V287: `0x000000AD`, with `ENC = 5` ignored. -/
theorem test_decode_ulawDec : decode (0#23 ++ 0b0#1 ++ 0b101#3 ++ 0b01101#5) = .legal (.ulawDec .reserved5 false) := by decide
theorem test_decode_ulawEnc : decode (0#23 ++ 0b1#1 ++ 0b011#3 ++ 0b01110#5) = .legal (.ulawEnc (.of .muLaw) true) := by decide
theorem test_decode_alawDec : decode (0#23 ++ 0b0#1 ++ 0b100#3 ++ 0b01111#5) = .legal (.alawDec (.of .aLaw) false) := by decide
theorem test_decode_alawEnc : decode (0#23 ++ 0b1#1 ++ 0b000#3 ++ 0b10000#5) = .legal (.alawEnc (.of .pcmSigned) true) := by decide
theorem test_decode_decode : decode (0#23 ++ 0b0#1 ++ 0b100#3 ++ 0b10001#5) = .legal (.decode (.of .aLaw) false) := by decide
theorem test_decode_encode : decode (0#23 ++ 0b1#1 ++ 0b011#3 ++ 0b10010#5) = .legal (.encode (.of .muLaw) true) := by decide
theorem test_decode_unpack : decode (0#23 ++ 0b0#1 ++ 0b001#3 ++ 0b10011#5) = .legal (.unpack (.of .pcmUnsigned) false) := by decide
theorem test_decode_pack : decode (0#23 ++ 0b1#1 ++ 0b011#3 ++ 0b10100#5) = .legal (.pack (.of .muLaw) true) := by decide

/-- V286, V288, V289, V290 and the last reserved `OP`. -/
theorem test_decode_illegal :
    decode 0x000000B1 = .illegal .reservedEnc ∧ decode 0x00000015 = .illegal .reservedOp ∧
    decode 0x0000001F = .illegal .reservedOp ∧ decode 0x00000200 = .illegal .reservedBits ∧
    decode 0x80000000 = .illegal .reservedBits := by decide

/-- Rule R73: `(1 << 8) | (3 << 5) | 0x14`. -/
theorem test_encode_pack : encode (.pack (.of .muLaw) true) = 0x00000174 := by decide

/-- Rule R72: `PCMS.ENC bits=16 s=-0.3` and `FLT.ENC bits=64 s=0.1` as in 95_test_vectors.md (V113; `0x3DCCCCCD`), and a
line with an operand that BPS does not read. -/
theorem test_assemble :
    assemble ⟨0x09, none, none, [(.bits, .decimal false 16 0), (.s, .decimal true 3 1)]⟩ =
      some [.drive .cmd 9, .drive .bits 16, .drive .s 0xBE99999A, .request] ∧
    assemble ⟨0x0C, none, none, [(.s, .decimal false 1 1), (.bits, .decimal false 64 0)]⟩ =
      some [.drive .cmd 0xC, .drive .s 0x3DCCCCCD, .drive .bits 64, .request] ∧
    assemble ⟨0x00, none, none, [(.bits, .decimal false 8 0), (.a, .hex 1)]⟩ = none := by decide +kernel

/-- The opcode table's numbering is that of the command word. -/
theorem test_decodeTableWord :
    decodeTableWord 32 0x00000091 = some (.decode (.of .aLaw) false) ∧ decodeTableWord 32 0x00000015 = none := by decide

/-- The word put on `CMD` is the one the next step runs (V9). -/
theorem test_withFetchWord :
    port .r (step ({ State.reset with bits := 64 }.withFetchWord 32 0)) = some 8 := by decide

/-! ### One request each -/

/-- V6 and V12. -/
theorem test_bps : port .r (exec (.bps k0 false) (operands 31 0 0)) = some 4 ∧
    port .status (exec (.bps k0 false) (operands 65 0 0)) = some 1 := by decide
/-- V13 and V18. -/
theorem test_fscale : port .r (exec (.fscale k0 false) (operands 1 0 0)) = some 0x3FF0000000000000 ∧
    port .r (exec (.fscale k0 false) (operands 64 0 0)) = some 0x43E0000000000000 := by decide
/-- V30 and V25. -/
theorem test_rdword : port .r (exec (.rdword k0 true) (wordAt 8 0)) = some 0xAA123456789ABCDE ∧
    port .r (exec (.rdword k0 false) (wordAt 3 1)) = some 0x563412 := by decide
/-- V32 and V34. -/
theorem test_rdword_errors : port .status (exec (.rdword k0 false) (wordAt 2 8)) = some 2 ∧
    port .status (exec (.rdword k0 false) (wordAt 9 0)) = some 5 := by decide
/-- V38 and V41. -/
theorem test_wrword : bytesAfter 4 (exec (.wrword k0 true) (writeAt 3 1 0x123456)) = [0x00, 0x12, 0x34, 0x56] ∧
    bytesAfter 4 (exec (.wrword k0 false) (writeAt 1 3 0x1FF)) = [0x00, 0x00, 0x00, 0xFF] := by decide
/-- V42: an error writes no byte. -/
theorem test_wrword_error : port .status (exec (.wrword k0 false) (writeAt 4 1 0x11223344)) = some 2 ∧
    bytesAfter 4 (exec (.wrword k0 false) (writeAt 4 1 0x11223344)) = [0, 0, 0, 0] := by decide
/-- V47 and V50. -/
theorem test_sext : port .r (exec (.sext k0 false) (operands 12 0xF7FF 0)) = some 0x7FF ∧
    port .r (exec (.sext k0 false) (operands 1 1 0)) = some 0xFFFFFFFFFFFFFFFF := by decide
/-- V57 and V62. -/
theorem test_toob : port .r (exec (.toob k0 false) (operands 8 0xFFFFFFFFFFFFFF80 0)) = some 0 ∧
    port .r (exec (.toob k0 false) (operands 8 0x80 0)) = some 0x100 := by decide
/-- V70 and V73. -/
theorem test_fromob : port .r (exec (.fromob k0 false) (operands 12 0xF7FF 0)) = some 0xEFFF ∧
    port .r (exec (.fromob k0 false) (operands 64 0 0)) = some 0x8000000000000000 := by decide
/-- V77 and V87. -/
theorem test_pcmsDec : port .f (exec (.pcmsDec k0 false) (operands 16 0x7FFF 0)) = some 0x3F7FFE00 ∧
    port .f (exec (.pcmsDec k0 false) (operands 26 0x1FFFFFF 0)) = some 0x3F800000 := by decide +kernel
/-- V90: the double rounding of rule R111. -/
theorem test_pcmsDec_twice :
    port .f (exec (.pcmsDec k0 false) (operands 64 0x4000004000000001 0)) = some 0x3F000000 := by decide +kernel
/-- V101 and V97. -/
theorem test_pcmuDec : port .f (exec (.pcmuDec k0 false) (operands 12 0xF7FF 0)) = some 0x41EFFF00 ∧
    port .f (exec (.pcmuDec k0 false) (operands 8 0x80 0)) = some 0 := by decide +kernel
/-- V112, and V113 with `-0.3` as `0xBE99999A`. -/
theorem test_pcmsEnc : port .r (exec (.pcmsEnc k0 false) (operands 16 0 0x3F7FFFFF)) = some 0x7FFF ∧
    port .r (exec (.pcmsEnc k0 false) (operands 16 0 0xBE99999A)) = some 0xFFFFFFFFFFFFD99A := by decide +kernel
/-- Rule R114: `+1.0` at 64 bits saturates. -/
theorem test_pcmsEnc_saturates :
    port .r (exec (.pcmsEnc k0 false) (operands 64 0 0x3F800000)) = some 0x7FFFFFFFFFFFFFFF := by decide +kernel
/-- Rule R116: `PCMU.ENC bits=16 s=0x3F7FFFFF`, and `+1.0` at 12 bits. -/
theorem test_pcmuEnc : port .r (exec (.pcmuEnc k0 false) (operands 16 0 0x3F7FFFFF)) = some 0xFFFF ∧
    port .r (exec (.pcmuEnc k0 false) (operands 12 0 0x3F800000)) = some 0x1000 := by decide +kernel
/-- V162 and V164. -/
theorem test_fltDec : port .f (exec (.fltDec k0 false) (operands 64 0x369000001AD7F29B 0)) = some 1 ∧
    port .f (exec (.fltDec k0 false) (operands 64 0x47EFFFFFEFFFFFFF 0)) = some 0x7F7FFFFF := by decide +kernel
/-- V166 and V169. -/
theorem test_fltDec_legacy : port .status (exec (.fltDec k0 false) (operands 16 0x3C00 0)) = some 3 ∧
    port .f (exec (.fltDec k0 false) { operands 16 0x3C00 0 with legacyFloatZero := true }) = some 0 := by decide
/-- V173 and V178. -/
theorem test_fltEnc : port .r (exec (.fltEnc k0 false) (operands 32 0 0x7FA00001)) = some 0x7FA00001 ∧
    port .r (exec (.fltEnc k0 false) (operands 64 0 1)) = some 0x36A0000000000000 := by decide +kernel
/-- V184 and V186, with `256^(112/128) = 128` and `256^(1/128)` correctly rounded. -/
theorem test_ulawDec : ulawDecodeBy (fun _ _ => 0x4060000000000000) 0x8F = 0x3EFEFEFF ∧
    ulawDecodeBy (fun _ _ => 0x3FF0B5586CF9890F) 0x7E = 0xB9360E7B := by decide +kernel
/-- V206 and V207: full scale gives silence, whatever `LN(256)` is; here its correctly rounded value (rule R140). -/
theorem test_ulawEnc : ulawEncodeBy (fun _ => 0x40162E42FEFA39EF) 0x3F800000 = 0x7F ∧
    ulawEncodeBy (fun _ => 0x40162E42FEFA39EF) 0xBF800000 = 0xFF := by decide +kernel
/-- V221 and V223: the linear segment, with `LN_A` correctly rounded (rule R160). -/
theorem test_alawDec : alawDecodeBy (fun _ => 0x4011E54BC84ABFCC) (fun _ => 0) 0x54 = 0x39FFA862 ∧
    alawDecodeBy (fun _ => 0x4011E54BC84ABFCC) (fun _ => 0) 0x42 = 0x3C37C106 := by decide +kernel
/-- V237 and V242: the linear segment up to the threshold of rule R161. -/
theorem test_alawEnc : alawEncodeBy (fun _ => 0x4011E54BC84ABFCC) 0x39FFA862 = 0x54 ∧
    alawEncodeBy (fun _ => 0x4011E54BC84ABFCC) 0x3C3AD196 = 0x42 := by decide +kernel
/-- V266 and V269. -/
theorem test_decode : port .f (exec (.decode (.of .pcmFloat) false) (operands 64 0x3FF0000000000000 0)) = some 0x3F800000 ∧
    port .status (exec (.decode (.of .muLaw) false) (operands 16 0x8F 0)) = some 4 := by decide +kernel
/-- V275 and V280. -/
theorem test_encode : port .r (exec (.encode (.of .pcmSigned) false) (operands 24 0 0xBF800000)) = some 0xFFFFFFFFFF800000 ∧
    port .status (exec (.encode (.of .pcmFloat) false) (operands 16 0 0)) = some 3 := by decide +kernel
/-- Rule R184, the example (W3). -/
theorem test_unpack :
    samplesAfter 3 (exec (.unpack (.of .pcmSigned) false) (stream 16 6)) = [0x3F7FFE00, 0xBF800000, 0] ∧
    port .n (exec (.unpack (.of .pcmSigned) false) (stream 16 6)) = some 3 := by decide +kernel
/-- Rule R184: a `LEN` of 3 takes two whole blocks of two bytes (decision D21), and one of 9 is too long. -/
theorem test_unpack_partial : port .n (exec (.unpack (.of .pcmSigned) false) (stream 16 3)) = some 2 ∧
    port .status (exec (.unpack (.of .pcmSigned) false) (stream 16 9)) = some 2 := by decide +kernel
/-- The samples of rule R184's example packed again. -/
theorem test_pack :
    bytesAfter 6 (exec (.pack (.of .pcmSigned) true) (stream 16 2)) = [0x7F, 0xFF, 0x80, 0x00, 0x00, 0x00] ∧
    port .n (exec (.pack (.of .pcmSigned) true) (stream 16 2)) = some 4 := by decide +kernel
/-- V286: an illegal word completes with its code. -/
theorem test_step_illegal : port .status (step { State.reset with cmd := 0xB1, pending := [.request] }) = some 6 := by decide
/-- Rule R27: reading a port without a value is a fault. -/
theorem test_step_read :
    (match step { State.reset with pending := [.read .r] } with | .fault (.portWithoutValue .r) => true | _ => false) =
      true := by decide
/-- Rules R140 and R160: the constants that IEEE-754 arithmetic fixes. -/
theorem test_constants : INV_MU = 0x3F70101010101010 ∧ MU1 = 0x4070000000000000 ∧ RE_A = 0x3F875A32CA94DF04 ∧
    FS8 = 0x4060000000000000 := by decide +kernel

/-- Rule R221: the output region of a request that reset cuts is that of the operation, whatever the request would have
ended with: WRWORD that ends past `BCAP` (V42), PACK and UNPACK that are too long for their buffers, and a PACK of a
companding kind at a width that is none. -/
theorem test_cut_regions :
    bytesRegion (.wrword k0 false) (writeAt 4 1 0x11223344) = (1, 4) ∧
    bytesRegion (.wrword k0 false) (writeAt 2 0 0) = (0, 2) ∧
    bytesRegion (.pack (.of .pcmSigned) false) (stream 16 9) = (0, 6) ∧
    bytesRegion (.pack (.of .muLaw) false) (stream 16 2) = (0, 4) ∧
    samplesRegion (.unpack (.of .pcmSigned) false) (stream 16 9) = 3 ∧
    samplesRegion (.unpack (.of .pcmSigned) false) (stream 16 3) = 2 := by decide

/-! ### Witnesses: inputs that meet the hypotheses of each statement -/

/-- A state that meets the invariant, with both capacities stated truly and a request pending. -/
def demo : State := { stream 16 6 with cmd := 0x00000013, width := 2, offset := 4, a := 0x7FFF, pending := [.request] }

theorem demo_inv : demo.Inv := ⟨by decide, by decide, rfl, rfl, rfl⟩
theorem demo_capacitiesTrue : demo.capacitiesTrue := ⟨by decide, by decide⟩
theorem demo_bitsOk : demo.bitsOk := ⟨by decide, by decide⟩

theorem witness_DecodeOfEncodeIsTheInstruction :
    (Instr.unpack (.of .aLaw) true).wellFormed = true ∧ (Instr.fromob .reserved7 true).wellFormed = true := by decide

theorem witness_EncodeOfDecodedWordIsTheWord : decode 0x000000AD = .legal (.ulawDec .reserved5 false) := by decide

/-- Each cause at its boundary, and legal words next to it. -/
theorem witness_DecodeIsTotalAndRejectsExactlyTheReservedWords :
    (0x00000200#32).toNat / 2 ^ 9 ≠ 0 ∧ 0x15 ≤ (0x00000015#32).toNat % 2 ^ 5 ∧
    (0x11 ≤ (0x000000B1#32).toNat % 2 ^ 5 ∧ 5 ≤ (0x000000B1#32).toNat / 2 ^ 5 % 2 ^ 3) ∧
    ¬ ((0x00000194#32).toNat / 2 ^ 9 ≠ 0 ∨ 0x15 ≤ (0x00000194#32).toNat % 2 ^ 5 ∨
      (0x11 ≤ (0x00000194#32).toNat % 2 ^ 5 ∧ 5 ≤ (0x00000194#32).toNat / 2 ^ 5 % 2 ^ 3)) ∧
    ¬ ((0x000000B0#32).toNat / 2 ^ 9 ≠ 0 ∨ 0x15 ≤ (0x000000B0#32).toNat % 2 ^ 5 ∨
      (0x11 ≤ (0x000000B0#32).toNat % 2 ^ 5 ∧ 5 ≤ (0x000000B0#32).toNat / 2 ^ 5 % 2 ^ 3)) ∧
    { demo with cmd := 0x000000B1 }.pending = .request :: [] := by decide

theorem witness_StepRunsTheDecodedInstruction :
    demo.pending = .request :: [] ∧ decode demo.cmd = .legal (.unpack (.of .pcmSigned) false) := by decide

theorem witness_ResetClearsTheResultPortsOnly : { demo with pending := [.reset] }.pending = .reset :: [] := by decide

/-- A read and a copy of a port without a value and of one with a value, a drive, and a stated capacity. -/
theorem witness_ReadingAPortWithoutValueFaults :
    ({ demo with pending := [.read .n] }.pending = .read .n :: [] ∧ demo.portValue .n = none) ∧
    ({ demo with status := some .ok }.portValue .status ≠ none) ∧
    ({ demo with pending := [.copy .f .s] }.pending = .copy .f .s :: [] ∧ demo.portValue .f = none) ∧
    ({ demo with n := some 5 }.portValue .n = some 5) ∧
    ({ demo with pending := [.drive .len 7] }.pending = .drive .len 7 :: []) ∧
    ({ demo with pending := [.stateBcap 6] }.pending = .stateBcap 6 :: []) := by decide

theorem witness_SuppliedBuffersHoldTheirContents :
    { demo with pending := [.supplyBytes [1, 0, 2]] }.pending = .supplyBytes [1, 0, 2] :: [] ∧
    { demo with pending := [.supplySamples [0x3F800000]] }.pending = .supplySamples [0x3F800000] :: [] := by decide

/-- A request of each writing operation, cut by reset, that would complete with `OK`; one of each that would fail; and an
illegal word. The capacities are stated truly. -/
theorem witness_CutRequestChangesItsOutputRegionOnly :
    demo.bytes.wf = true ∧ demo.samples.wf = true ∧ ReachedCapacitiesTrue (.unpack (.of .pcmSigned) false) demo ∧
    { demo with pending := [.requestCutByReset] }.pending = .requestCutByReset :: [] ∧
    (∀ p ∈ [(0x00000013#32, Instr.unpack (.of .pcmSigned) false, 3#32), (0x00000003#32, Instr.wrword k0 false, 0#32),
        (0x00000014#32, Instr.pack (.of .pcmSigned) false, 2#32)],
      decode p.1 = .legal p.2.1 ∧
      port .status (exec p.2.1 { demo with cmd := p.1, len := p.2.2, pending := [] }) = some 0) ∧
    (∀ i ∈ [Instr.unpack (.of .pcmSigned) false, .wrword k0 false, .pack (.of .pcmSigned) false],
      port .status (exec i { demo with len := 9, offset := 5 }) = some 2) ∧
    decode 0x000000B3 = .illegal .reservedEnc :=
  ⟨by decide, by decide, ⟨fun _ => by decide, fun _ => by decide⟩, rfl, by decide +kernel, by decide +kernel, by decide⟩

theorem witness_StepKeepsTheInvariant : demo.Inv ∧ ∃ t, step demo = .next t := ⟨demo_inv, _, rfl⟩

/-- RequestsLeaveTheInputsAlone, OnlyListedOperationsWriteABuffer and ResultPortsCarryExactlyTheListedOutputs: a
request that completes with `OK`, and one that completes with an error. -/
theorem witness_requests_complete :
    port .status (exec (.unpack (.of .pcmSigned) false) demo) = some 0 ∧
    port .status (exec (.unpack (.of .muLaw) false) demo) = some 4 ∧
    writesBytes (.unpack (.of .pcmSigned) false) = false ∧ writesSamples (.wrword k0 false) = false := by decide +kernel

/-- Two SEXT requests that differ in the ignored `ENC` and `BE`, in `S`, `LEN` and `SCAP`, and two UNPACK requests that
differ in `A` and in the bytes at and above the capacity. -/
theorem witness_UnreadInputsHaveNoEffect :
    AgreeOnInputs (.sext (.of .aLaw) true) (.sext .reserved5 false) demo { demo with s := 1, len := 0, scap := 0 } ∧
    AgreeOnInputs (.unpack (.of .pcmSigned) false) (.unpack (.of .pcmSigned) false) { demo with bcap := 2, len := 2 }
      { demo with bcap := 2, len := 2, a := 9, bytes := Buffer.ofList [0xFF, 0x7F, 1, 1, 1, 1] } ∧
    port .status (exec (.unpack (.of .pcmSigned) false) { demo with bcap := 2, len := 2 }) = some 0 ∧
    { demo with bytes := Buffer.ofList [0xFF, 0x7F, 1, 1, 1, 1] }.Inv := by
  refine ⟨?_, ?_, by decide +kernel, by decide, by decide, rfl, rfl, rfl⟩
  · simp [AgreeOnInputs, Instr.fields, Instr.readEnc, readsBe, readsBits, readsWidth, readsLen, readsA, readsS,
      reachesBytes, reachesSamples, readsBytes, readsSamples]
  · refine ⟨rfl, rfl, fun _ => rfl, fun _ => rfl, fun h => ?_, fun _ => rfl, fun h => ?_, fun _ => rfl,
      fun _ => ⟨rfl, rfl⟩, fun _ => ⟨rfl, rfl⟩, fun _ => ?_, fun h => ?_, rfl⟩
    · exact absurd h (by decide)
    · exact absurd h (by decide)
    · decide
    · exact absurd h (by decide)

theorem witness_RequestsCompleteWithTheFirstStatusThatApplies : demo.capacitiesTrue := demo_capacitiesTrue

/-- ErrorCompletionChangesTheStatusOnly and ReissuedErrorIsTheSameError. -/
theorem witness_errors : ∃ t, exec (.pack (.of .pcmFloat) false) demo = .next t ∧ t.status ≠ some .ok :=
  ⟨_, rfl, by decide⟩

/-- The bounds of `BITS`: 0, 65 and -1 are out. -/
theorem witness_BitsOutOfRangeGivesInvalidFormat :
    (Instr.bps k0 false).wellFormed = true ∧ readsBits (.bps k0 false) = true ∧
    { demo with bits := 0 }.capacitiesTrue ∧
    ¬ { demo with bits := 0 }.bitsOk ∧ ¬ { demo with bits := 65 }.bitsOk ∧ ¬ { demo with bits := 0xFFFFFFFF }.bitsOk := by
  refine ⟨rfl, rfl, demo_capacitiesTrue, ?_⟩
  unfold State.bitsOk
  decide

/-- 16 is a width of neither a companding kind nor PcmFloat. -/
theorem witness_FormatErrorsComeBeforeDataAndBuffers :
    demo.capacitiesTrue ∧ demo.bitsOk ∧ demo.bits ≠ 8 ∧ demo.bits ≠ 32 ∧ demo.bits ≠ 64 ∧
    demo.legacyFloatZero = false :=
  ⟨demo_capacitiesTrue, demo_bitsOk, by decide, by decide, by decide, rfl⟩

/-- A capacity stated one larger than the buffer, for each buffer. -/
theorem witness_FalseCapacityHasNoStep :
    (reachesBytes (.rdword k0 false) = true ∧ { demo with bcap := 7 }.bytes.size < (7 : Capacity).val) ∧
    (reachesSamples (.pack k0 false) = true ∧ demo.bcap.val ≤ demo.bytes.size ∧
      { demo with scap := 4 }.samples.size < (4 : Capacity).val) := by decide

theorem witness_WorkedPriorityCases :
    { demo with bcap := 0, bits := 0, len := 9, width := 9, offset := 0 }.capacitiesTrue ∧
    { demo with len := 0 }.capacitiesTrue ∧ { demo with cmd := 0x00000233 }.pending = .request :: [] :=
  ⟨⟨by decide, by decide⟩, demo_capacitiesTrue, rfl⟩

/-- The bounds of `BITS` that are in: 1 and 64 (BPS, FSCALE, SEXT, TOOB, FROMOB, the linear PCM statements). -/
theorem witness_bitsOk : { demo with bits := 1 }.bitsOk ∧ { demo with bits := 64 }.bitsOk := by
  unfold State.bitsOk
  decide

/-- ToobAddsFullScale: the two ends of the signed range at 8 bits. -/
theorem witness_ToobAddsFullScale :
    (-(2 ^ ((operands 8 0xFFFFFFFFFFFFFF80 0).bits.toNat - 1)) ≤ (operands 8 0xFFFFFFFFFFFFFF80 0).a.toInt ∧
      (operands 8 0xFFFFFFFFFFFFFF80 0).a.toInt < 2 ^ ((operands 8 0xFFFFFFFFFFFFFF80 0).bits.toNat - 1)) ∧
    (-(2 ^ ((operands 8 0x7F 0).bits.toNat - 1)) ≤ (operands 8 0x7F 0).a.toInt ∧
      (operands 8 0x7F 0).a.toInt < 2 ^ ((operands 8 0x7F 0).bits.toNat - 1)) := by decide

/-- RdwordReadsTheWord and WrwordStoresTheWordAndNothingElse: a word of 8 bytes and one of 1 that end at the capacity. -/
theorem witness_words :
    (wordAt 8 1).Inv ∧ (wordAt 8 1).capacitiesTrue ∧
    (1 ≤ (wordAt 8 1).width.toNat ∧ (wordAt 8 1).width.toNat ≤ 8 ∧
      (wordAt 8 1).offset.toNat + (wordAt 8 1).width.toNat ≤ (wordAt 8 1).bcap.val) ∧
    (1 ≤ (wordAt 1 8).width.toNat ∧ (wordAt 1 8).width.toNat ≤ 8 ∧
      (wordAt 1 8).offset.toNat + (wordAt 1 8).width.toNat ≤ (wordAt 1 8).bcap.val) :=
  ⟨⟨by decide, by decide, rfl, rfl, rfl⟩, ⟨by decide, by decide⟩, by decide, by decide⟩

theorem witness_WordReadAndWriteAreInverse :
    demo.bytes.wf = true ∧ 3 + 3 ≤ demo.bytes.size ∧
    ∀ b, b < 3 → (Buffer.ofList [0#8, 0, 0, 0x00, 0x00, 0x80]).get (3 + b) = demo.bytes.get (3 + (3 - 1 - b)) := by
  decide

/-- PcmDecodeDividesByFullScale and PcmRoundTripRestoresRepresentableWords: the word `0x7FFF` at 16 bits. -/
theorem witness_Representable :
    signedValue demo.a demo.bits.toNat = 32767 ∧ offsetValue demo.a demo.bits.toNat = -1 ∧
    Representable32 32767 ∧ Representable32 (-1) ∧ Representable32 0 :=
  ⟨by decide, by decide, ⟨32767, 0, by decide, by decide⟩, ⟨1, 0, by decide, by decide⟩, ⟨0, 0, by decide, by decide⟩⟩

theorem witness_WideDecodeRoundsTwice :
    (operands 64 0x4000004000000001 0).bits = 64 ∧ (operands 64 0x4000004000000001 0).a = 0x4000004000000001#64 := by
  decide

theorem witness_PlusOneReturnsAsMinusOne :
    (operands 16 0x8000 0x3F800000).bits = 16 ∧ (operands 16 0x8000 0x3F800000).s = 0x3F800000#32 ∧
    (operands 16 0x8000 0x3F800000).a = 0x8000 := by decide

/-- A power of two of the integers is that of the natural numbers, which the kernel computes at once. -/
theorem two_pow_int (n : Nat) : (2 : Int) ^ n = ((2 ^ n : Nat) : Int) := by
  push_cast
  rfl

/-- `-1.0` and the largest binary32 below `1.0`, at 25 bits. -/
theorem witness_PcmQuantizationErrorIsBelowOneLsb :
    (operands 25 0 0).bitsOk ∧ (operands 25 0 0).bits.toNat ≤ 25 ∧
    (Finite32 0xBF800000 ∧ -(2 ^ 149) ≤ units32 0xBF800000 ∧ units32 0xBF800000 < 2 ^ 149) ∧
    (Finite32 0x3F7FFFFF ∧ -(2 ^ 149) ≤ units32 0x3F7FFFFF ∧ units32 0x3F7FFFFF < 2 ^ 149) := by
  unfold State.bitsOk Finite32
  simp only [two_pow_int]
  decide +kernel

/-- FltDecReinterpretsTheWord and FltEncReinterpretsTheSample: every clause, with a NaN, an infinity and a finite value. -/
theorem witness_floats :
    ((operands 32 0 0).bits = 32 ∧ (operands 64 0 0).bits = 64) ∧
    ((operands 31 0 0).bitsOk ∧ (operands 31 0 0).bits ≠ 32 ∧ (operands 31 0 0).bits ≠ 64 ∧ ¬ (operands 0 0 0).bitsOk) ∧
    (isNaN64 0x7FF0000000000001 = true ∧ isNaN64 0x7FF0000000000000 = false ∧ isInf64 0x7FF0000000000000 = true ∧
      isInf64 0x7FEFFFFFFFFFFFFF = false) ∧
    (isNaN32 0x7F800001 = true ∧ isNaN32 0x7F800000 = false ∧ isInf32 0x7F800000 = true ∧
      isInf32 0x7F7FFFFF = false) := by
  unfold State.bitsOk
  decide

/-- FloatRoundTrips: `0.1f` widened is such a word, and the nearest binary64 to 0.1 is not. -/
theorem witness_FloatRoundTrips :
    isNaN32 0x3DCCCCCD = false ∧ isNaN64 0x3FB99999A0000000 = false ∧
    (0x3FB99999A0000000 : F64) = f64OfF32 0x3DCCCCCD ∧ isNaN64 0x3FB999999999999A = false := by decide +kernel

/-- BinaryOperationsAreCorrectlyRounded, ComparisonIsTheOrderOfTheValues: finite operands, a divisor that is not zero,
an exact zero sum, a zero divisor and a NaN; infinities need no premise. -/
theorem witness_finite64 :
    Finite64 0x7FEFFFFFFFFFFFFF ∧ Finite64 1 ∧ units64 1 ≠ 0 ∧
    units64 0x3FF0000000000000 + units64 0xBFF0000000000000 = 0 ∧ (Finite64 0 ∧ units64 0 = 0) ∧ isNaN64 0xFFF8000000000000 = true := by
  unfold Finite64
  decide +kernel

/-- ConversionsRoundToNearest: the ends of the integer range, finite operands, and a NaN of each format. -/
theorem witness_ConversionsRoundToNearest :
    ((-(2 ^ 63) : Int) ≤ 2 ^ 63 - 1 ∧ ((2 ^ 53 : Int).natAbs ≤ 2 ^ 53)) ∧ Finite32 1 ∧ Finite64 1 ∧
    (2 ^ 128 - 2 ^ 103) * 2 ^ 1074 ≤ (units64 0x47EFFFFFF0000000).natAbs ∧ isNaN32 0xFFC00000 = true ∧
    isNaN64 0xFFF8000000000000 = true := by
  unfold Finite64 Finite32
  simp only [two_pow_int]
  decide +kernel

/-- TruncationIsTowardZeroAndSaturates: both saturation bounds, and the largest magnitudes below them. -/
theorem witness_TruncationIsTowardZeroAndSaturates :
    (Finite64 0x43E0000000000000 ∧ 2 ^ 63 * 2 ^ 1074 ≤ units64 0x43E0000000000000) ∧
    (Finite64 0xC3E0000000000000 ∧ units64 0xC3E0000000000000 ≤ -(2 ^ 63 * 2 ^ 1074)) ∧
    (Finite64 0xC3DFFFFFFFFFFFFF ∧ units64 0xC3DFFFFFFFFFFFFF < 2 ^ 63 * 2 ^ 1074 ∧
      -(2 ^ 63 * 2 ^ 1074) < units64 0xC3DFFFFFFFFFFFFF) := by
  unfold Finite64
  simp only [two_pow_int]
  decide +kernel

theorem witness_SignumKeepsZerosAndNans :
    lt64 0 1 = true ∧ lt64 0x8000000000000001 0 = true ∧ isNaN64 0x7FF0000000000001 = true := by decide

theorem witness_TranscendentalLaws : isNaN64 0x7FF0000000000001 = true := by decide

/-- SignMagnitudeEncode: both ends of the magnitudes that return, and both signs beyond. -/
theorem witness_SignMagnitudeEncode :
    (-127 ≤ (127#64).toInt ∧ (127#64).toInt ≤ 127) ∧
    (-127 ≤ (0xFFFFFFFFFFFFFF81#64).toInt ∧ (0xFFFFFFFFFFFFFF81#64).toInt ≤ 127) ∧ (0 : Int) ≤ (300#64).toInt ∧
    (0x8000000000000000#64).toInt < 0 := by decide

/-- UlawDecExpandsTheByte, UlawEncCompressesTheSample, AlawEncCompressesTheSample: the zero bytes and the silent samples. -/
theorem witness_silence :
    (operands 0 0x1FF 0).a.toNat % 256 = 0xFF ∧ (operands 0 0x7F 0).a.toNat % 256 = 0x7F ∧
    (operands 0 0 0x80000000).s = 0x80000000#32 ∧ isNaN32 (operands 0 0 0x7FC00000).s = true := by decide

/-- ExpansionIsOdd: parameters under which the least code of each law gives a sample that is no NaN. -/
theorem witness_ExpansionIsOdd :
    isNaN32 (ulawDecodeBy (fun _ _ => 0x4060000000000000) 0x8F) = false ∧
    isNaN32 (alawDecodeBy (fun _ => 0x4011E54BC84ABFCC) (fun _ => 0x3FF0000000000000) 0x54) = false := by decide +kernel

/-- FullScaleEncodesToSilence: the correctly rounded `LN(256)` and `LN(87.7)`, with `LN(+inf) = +inf`. -/
theorem witness_FullScaleEncodesToSilence :
    (Finite64 0x40162E42FEFA39EF ∧ 0 < units64 0x40162E42FEFA39EF) ∧
    (let ln : F64 → F64 := fun x => if x = inf64 false then inf64 false else 0x40162E42FEFA39EF
     ln (inf64 false) = inf64 false ∧ ln MU1 = 0x40162E42FEFA39EF) ∧
    (let ln : F64 → F64 := fun x => if x = inf64 false then inf64 false else 0x4011E54BC84ABFCC
     ln (inf64 false) = inf64 false ∧ Finite64 (OPL ln) ∧ 0 < units64 (OPL ln) ∧ lt64 0 (EXP_0 ln) = true) := by
  unfold Finite64
  decide +kernel

theorem witness_DispatchEqualsTheSingleUnits : (operands 8 0 0).bits = 8 := by decide

/-- DecodeAndEncodeComplete, for each kind and for the legacy form, and the format premises of UnpackDecodesEveryBlock
and PackEncodesEverySample. -/
theorem witness_formats :
    ((operands 32 0 0).bitsOk ∧ (operands 32 0 0).bits = 32) ∧ ((operands 64 0 0).bitsOk ∧ (operands 64 0 0).bits = 64) ∧
    ((operands 8 0 0).bitsOk ∧ (operands 8 0 0).bits = 8) ∧
    ({ operands 24 0 0 with legacyFloatZero := true }.bitsOk ∧
      { operands 24 0 0 with legacyFloatZero := true }.legacyFloatZero = true) := by
  unfold State.bitsOk
  decide

/-- UnpackDecodesEveryBlock and PackEncodesEverySample: three blocks of two bytes that fill both buffers. -/
theorem witness_blocks :
    demo.Inv ∧ demo.capacitiesTrue ∧ demo.bitsOk ∧ (demo.bits.toNat + 7) / 8 = 2 ∧ (demo.len.toNat + 2 - 1) / 2 = 3 ∧
    3 * 2 ≤ demo.bcap.val ∧ 3 ≤ demo.scap.val ∧ { demo with len := 3 }.len.toNat ≤ demo.scap.val ∧
    { demo with len := 3 }.len.toNat * 2 ≤ demo.bcap.val :=
  ⟨demo_inv, demo_capacitiesTrue, demo_bitsOk, by decide, by decide, by decide, by decide, by decide, by decide⟩

/-- The second part of `demo`'s bytes and samples, in buffers of their own. -/
def demoTail (len : Word32) : State :=
  { demo with
    bytes := Buffer.ofList [0x00, 0x80, 0x00, 0x00], bcap := 4
    samples := Buffer.ofList [0xBF800000, 0x3F000000], scap := 2, len := len }

/-- StreamsSplitAtBlockBoundaries: `demo` split after its first block, for UNPACK and for PACK. -/
theorem witness_StreamsSplitAtBlockBoundaries :
    (demo.Inv ∧ (demoTail 4).Inv) ∧
    (∀ p ∈ [demo, { demo with len := 2 }, demoTail 4],
      port .status (exec (.unpack (.of .pcmSigned) false) p) = some 0) ∧
    (∀ p ∈ [{ demo with len := 3 }, { demo with len := 1 }, demoTail 2],
      port .status (exec (.pack (.of .pcmSigned) false) p) = some 0) ∧
    (∀ i, i < (demoTail 4).bcap.val → demo.bytes.get (1 * 2 + i) = (demoTail 4).bytes.get i) ∧
    (∀ i, i < (demoTail 2).len.toNat → demo.samples.get (1 + i) = (demoTail 2).samples.get i) :=
  ⟨⟨demo_inv, by decide, by decide, rfl, rfl, rfl⟩, by decide +kernel, by decide +kernel, by decide, by decide⟩

end Sys2Proof.Tests
end

section
/-! SUPPORT. The binary64 operations beyond finite operands (rule R9, log entry 18): the class of a value, NaN operands,
infinities, and zero divisors. -/

namespace Sys2Proof.Machine

open Sys2Proof

/-! ### Classes of values -/

theorem isInf64_neg64 (x : F64) : isInf64 (neg64 x) = isInf64 x := by
  rw [isInf64_iff, isInf64_iff, mag64_neg64]

/-- An infinity is the infinity of its sign. -/
theorem eq_inf64_of_isInf64 {x : F64} (h : isInf64 x = true) : x = inf64 (sign64 x) := by
  rw [isInf64_iff, decide_eq_true_eq] at h
  exact eq_of_sign_mag64 (sign64_inf64 _).symm (h.trans (mag64_inf64 _).symm)

theorem eq_pack32_of_isInf32 {s : F32} (h : isInf32 s = true) : s = pack32 (sign32 s) binary32.infMag := by
  rw [isInf32_iff, decide_eq_true_eq, ← infMag32] at h
  rw [← h, pack32_sign_mag]

theorem isZero64_eq_false_iff (x : F64) : isZero64 x = false ↔ units64 x ≠ 0 := by
  rw [ne_eq, units64_eq_zero_iff_isZero64, Bool.not_eq_true]

/-! ### NaN operands -/

theorem mul64_nan {x y : F64} (h : isNaN64 x = true ∨ isNaN64 y = true) : isNaN64 (mul64 x y) = true := by
  simp [mul64, h]

theorem div64_nan {x y : F64} (h : isNaN64 x = true ∨ isNaN64 y = true) : isNaN64 (div64 x y) = true := by
  simp [div64, h]

theorem add64_nan {x y : F64} (h : isNaN64 x = true ∨ isNaN64 y = true) : isNaN64 (add64 x y) = true := by
  simp [add64, h]

theorem sub64_nan {x y : F64} (h : isNaN64 x = true ∨ isNaN64 y = true) : isNaN64 (sub64 x y) = true := by
  simp [sub64, h]

/-! ### Infinite operands -/

theorem mul64_inf_left (s : Bool) {y : F64} (hN : isNaN64 y = false) (hz : isZero64 y = false) :
    mul64 (inf64 s) y = inf64 (s != sign64 y) := by
  simp [mul64, hN, hz]

theorem mul64_inf_right {x : F64} (s : Bool) (hN : isNaN64 x = false) (hz : isZero64 x = false) :
    mul64 x (inf64 s) = inf64 (sign64 x != s) := by
  simp [mul64, hN, hz]

theorem mul64_inf_zero (s : Bool) {y : F64} (hN : isNaN64 y = false) (hz : isZero64 y = true) :
    isNaN64 (mul64 (inf64 s) y) = true ∧ isNaN64 (mul64 y (inf64 s)) = true := by
  simp [mul64, hN, hz]

theorem div64_inf_left (s : Bool) {y : F64} (hy : Finite64 y) : div64 (inf64 s) y = inf64 (s != sign64 y) := by
  simp [div64, hy.1, hy.2]

theorem div64_inf_right {x : F64} (s : Bool) (hx : Finite64 x) : div64 x (inf64 s) = pack64 (sign64 x != s) 0 := by
  simp [div64, hx.1, hx.2]

theorem div64_inf_inf (s t : Bool) : isNaN64 (div64 (inf64 s) (inf64 t)) = true := by
  simp [div64]

/-- A finite number over zero is an infinity, and zero over zero a NaN. -/
theorem div64_zero {x y : F64} (hx : Finite64 x) (hy : Finite64 y) (hz : isZero64 y = true) :
    (isZero64 x = false → div64 x y = inf64 (sign64 x != sign64 y)) ∧
      (isZero64 x = true → isNaN64 (div64 x y) = true) := by
  constructor <;> intro h <;> simp [div64, hx.1, hx.2, hy.1, hy.2, hz, h]

/-- An infinity absorbs every addend but a NaN and the opposite infinity. -/
theorem addCore64_inf_left (nan : F64) (s : Bool) {y : F64} (h : isInf64 y = true → sign64 y = s) :
    addCore64 nan (inf64 s) y = inf64 s := by
  by_cases hy : isInf64 y = true
  · simp [addCore64, hy, h hy]
  · simp [addCore64, hy]

theorem addCore64_inf_right (nan : F64) {x : F64} (s : Bool) (hx : isInf64 x = false) :
    addCore64 nan x (inf64 s) = inf64 s := by
  simp [addCore64, hx]

theorem addCore64_inf_opposite (nan : F64) {s t : Bool} (h : s ≠ t) : addCore64 nan (inf64 s) (inf64 t) = nan := by
  simp [addCore64, h]

theorem add64_eq_addCore64 {x y : F64} (hx : isNaN64 x = false) (hy : isNaN64 y = false) :
    add64 x y = addCore64 (nanResult .add x y) x y := by
  simp [add64, hx, hy]

theorem sub64_eq_addCore64 {x y : F64} (hx : isNaN64 x = false) (hy : isNaN64 y = false) :
    sub64 x y = addCore64 (nanResult .sub x y) x (neg64 y) := by
  simp [sub64, hx, hy]

end Sys2Proof.Machine
end

section
/-! PROOFS. The binary64 arithmetic of 00_scope.md rules R9 and R13 to R15: the operations, comparison, truncation,
`signum`, and the laws of the parameters. -/

namespace Sys2Proof.Machine

open Sys2Proof

/-! ### Arithmetic -/

theorem infinite_with_finite (s : Bool) {y : F64} (hy : Finite64 y) :
    (units64 y ≠ 0 → mul64 (inf64 s) y = inf64 (s != sign64 y) ∧ mul64 y (inf64 s) = inf64 (sign64 y != s)) ∧
      (units64 y = 0 → isNaN64 (mul64 (inf64 s) y) = true ∧ isNaN64 (mul64 y (inf64 s)) = true) ∧
      div64 (inf64 s) y = inf64 (s != sign64 y) ∧ div64 y (inf64 s) = pack64 (sign64 y != s) 0 ∧
      add64 (inf64 s) y = inf64 s ∧ add64 y (inf64 s) = inf64 s ∧
      sub64 (inf64 s) y = inf64 s ∧ sub64 y (inf64 s) = inf64 (!s) := by
  have hN := hy.1
  have hI := hy.2
  have hI' : isInf64 (neg64 y) = false := by rw [isInf64_neg64, hI]
  refine ⟨fun h => ?_, fun h => ?_, div64_inf_left s hy, div64_inf_right s hy, ?_, ?_, ?_, ?_⟩
  · have hz := (isZero64_eq_false_iff y).2 h
    exact ⟨mul64_inf_left s hN hz, mul64_inf_right s hN hz⟩
  · exact mul64_inf_zero s hN ((units64_eq_zero_iff_isZero64 y).1 h)
  · rw [add64_eq_addCore64 (isNaN64_inf64 s) hN, addCore64_inf_left _ s (by simp [hI])]
  · rw [add64_eq_addCore64 hN (isNaN64_inf64 s), addCore64_inf_right _ s hI]
  · rw [sub64_eq_addCore64 (isNaN64_inf64 s) hN, addCore64_inf_left _ s (by simp [hI'])]
  · rw [sub64_eq_addCore64 hN (isNaN64_inf64 s), neg64_inf64, addCore64_inf_right _ _ hI]

theorem infinite_with_infinite (s t : Bool) :
    mul64 (inf64 s) (inf64 t) = inf64 (s != t) ∧ isNaN64 (div64 (inf64 s) (inf64 t)) = true ∧
      (s = t → add64 (inf64 s) (inf64 t) = inf64 s ∧ isNaN64 (sub64 (inf64 s) (inf64 t)) = true) ∧
      (s ≠ t → isNaN64 (add64 (inf64 s) (inf64 t)) = true ∧ sub64 (inf64 s) (inf64 t) = inf64 s) := by
  rw [add64_eq_addCore64 (isNaN64_inf64 s) (isNaN64_inf64 t), sub64_eq_addCore64 (isNaN64_inf64 s) (isNaN64_inf64 t),
    neg64_inf64]
  refine ⟨?_, div64_inf_inf s t, fun h => ⟨?_, ?_⟩, fun h => ⟨?_, ?_⟩⟩
  · rw [mul64_inf_left s (isNaN64_inf64 t) (isZero64_inf64 t), sign64_inf64]
  · exact addCore64_inf_left _ s (by simp [h])
  · rw [addCore64_inf_opposite _ (by simp [h]), isNaN64_nanResult]
  · rw [addCore64_inf_opposite _ h, isNaN64_nanResult]
  · exact addCore64_inf_left _ s fun _ => by rw [sign64_inf64, ← Bool.eq_not.2 h]

/-- Settles O42: each operation by its spec lemma on finite operands, and by the laws of the special values. -/
theorem binaryOperationsAreCorrectlyRounded : Obligations.BinaryOperationsAreCorrectlyRounded := by
  intro x y
  refine ⟨fun hx hy => ?_, fun h => ⟨mul64_nan h, div64_nan h, add64_nan h, sub64_nan h⟩,
    fun s => infinite_with_finite s, infinite_with_infinite⟩
  obtain ⟨hms, -, hmr⟩ := mul64_spec hx hy
  obtain ⟨-, har, has, haz⟩ := add64_spec hx hy
  obtain ⟨-, hsr, hss, hsz⟩ := sub64_spec hx hy
  refine ⟨⟨hmr, hms⟩, fun h0 => ?_, fun h0 => ?_, ⟨har, has, haz⟩, hsr, hss, hsz⟩
  · obtain ⟨hds, -, hdr⟩ := div64_spec hx hy h0
    exact ⟨hdr, hds⟩
  · obtain ⟨hinf, hnan⟩ := div64_zero hx hy ((units64_eq_zero_iff_isZero64 y).1 h0)
    exact ⟨fun h => hinf ((isZero64_eq_false_iff x).2 h), fun h => hnan ((units64_eq_zero_iff_isZero64 x).1 h)⟩

/-! ### Comparison -/

theorem key64_bounds {x : F64} (hx : Finite64 x) :
    -0x7FF0000000000000 < key64 x ∧ key64 x < 0x7FF0000000000000 := by
  have h := (finite64_iff x).1 hx
  unfold key64
  split <;> omega

theorem key64_inf64 (s : Bool) : key64 (inf64 s) = if s then -0x7FF0000000000000 else 0x7FF0000000000000 := by
  simp [key64]

theorem lt64_eq_key {x y : F64} (hx : isNaN64 x = false) (hy : isNaN64 y = false) :
    lt64 x y = decide (key64 x < key64 y) := by
  simp [lt64, hx, hy]

theorem lt64_nan {x y : F64} (h : isNaN64 x = true ∨ isNaN64 y = true) : lt64 x y = false := by
  rcases h with h | h <;> simp [lt64, h]

/-- Settles O43: the order of the keys is the order of the values, and an infinity's key lies beyond them. -/
theorem comparisonIsTheOrderOfTheValues : Obligations.ComparisonIsTheOrderOfTheValues := by
  intro x y
  refine ⟨lt64_nan, fun hx hy => lt64_iff hx.1 hy.1, fun hx => ?_, fun s t => ?_, mag64_abs64 x, sign64_abs64 x⟩
  · obtain ⟨hlo, hhi⟩ := key64_bounds hx
    simp only [lt64_eq_key hx.1 (isNaN64_inf64 _), lt64_eq_key (isNaN64_inf64 _) hx.1, key64_inf64]
    simp only [Bool.false_eq_true, if_false, if_true, decide_eq_true_eq, decide_eq_false_iff_not]
    omega
  · rw [lt64_eq_key (isNaN64_inf64 s) (isNaN64_inf64 t), key64_inf64, key64_inf64]
    cases s <;> cases t <;> rfl

/-! ### Truncation -/

theorem truncInt_nan {x : F64} (h : isNaN64 x = true) : truncInt x = 0 := by
  simp [truncInt, h]

theorem truncInt_inf64 (s : Bool) : truncInt (inf64 s) = if s then -(2 ^ 63) else 2 ^ 63 - 1 := by
  simp [truncInt]

/-- A quotient toward zero stays below a positive bound that its dividend stays below. -/
theorem tdiv_lt_of_lt_mul {u n K : Int} (hK : 0 < K) (hn : 0 < n) (h : u < n * K) : u.tdiv K < n := by
  rcases le_total 0 u with hu | hu
  · rw [Int.tdiv_eq_ediv_of_nonneg hu]
    exact Int.ediv_lt_of_lt_mul hK h
  · have := Int.tdiv_le_tdiv hK hu
    rw [Int.zero_tdiv] at this
    omega

/-- Settles O45: on a finite value the quotient toward zero is clamped to the signed range. -/
theorem truncationIsTowardZeroAndSaturates : Obligations.TruncationIsTowardZeroAndSaturates := by
  intro x
  have hK : (0 : Int) < 2 ^ 1074 := by positivity
  rw [truncI64_toInt]
  refine ⟨fun h => ?_, ?_, ?_, fun hx h => ?_, fun hx h => ?_, fun hx h1 h2 => ?_⟩
  · rw [truncI64, truncInt_nan h]; rfl
  · rintro rfl; exact truncInt_inf64 false
  · rintro rfl; exact truncInt_inf64 true
  · have := Int.le_tdiv_of_mul_le hK h
    rw [truncInt_finite hx]
    omega
  · have := Int.le_tdiv_of_mul_le hK (Int.le_neg_of_le_neg h)
    rw [Int.neg_tdiv] at this
    rw [truncInt_finite hx]
    omega
  · have hhi := tdiv_lt_of_lt_mul hK (by norm_num) h1
    have hlo := tdiv_lt_of_lt_mul (u := -units64 x) hK (by norm_num) (Int.neg_lt_of_neg_lt h2)
    rw [Int.neg_tdiv] at hlo
    rw [truncInt_finite hx]
    omega

/-! ### Signum -/

theorem eq_zero_of_isZero64 {x : F64} (h : isZero64 x = true) : x = 0 ∨ x = 0x8000000000000000#64 := by
  rw [isZero64_iff, decide_eq_true_eq] at h
  rw [← pack64_sign_mag x, h]
  cases sign64 x
  · exact .inl rfl
  · exact .inr rfl

theorem lt64_zero_left {x : F64} :
    lt64 0 x = true ↔ isNaN64 x = false ∧ isZero64 x = false ∧ sign64 x = false := by
  have hk : key64 0 = 0 := by decide
  have hN : isNaN64 0 = false := by decide
  rw [isZero64_iff, lt64, hk, hN]
  cases h : sign64 x with
  | false => simp [key64, h, Nat.pos_iff_ne_zero]
  | true => simp [key64, h]

theorem lt64_zero_right {x : F64} :
    lt64 x 0 = true ↔ isNaN64 x = false ∧ isZero64 x = false ∧ sign64 x = true := by
  have hk : key64 0 = 0 := by decide
  have hN : isNaN64 0 = false := by decide
  rw [isZero64_iff, lt64, hk, hN]
  cases h : sign64 x with
  | false => simp [key64, h]
  | true => simp [key64, h, Nat.pos_iff_ne_zero]

theorem signum64_self {x : F64} (h : isNaN64 x = true ∨ isZero64 x = true) : signum64 x = x := by
  rcases h with h | h <;> simp [signum64, h]

theorem signum64_of_nonzero {x : F64} (hN : isNaN64 x = false) (hz : isZero64 x = false) :
    signum64 x = if sign64 x then neg64 one64 else one64 := by
  simp [signum64, hN, hz]

/-- Settles O46: the cases are a NaN, a zero, and a value of either sign. -/
theorem signumKeepsZerosAndNans : Obligations.SignumKeepsZerosAndNans := by
  intro x
  refine ⟨fun h => ?_, fun h => ?_, fun h => ?_, ?_⟩
  · obtain ⟨hN, hz, hs⟩ := lt64_zero_left.1 h
    rw [signum64_of_nonzero hN hz, hs]
    rfl
  · obtain ⟨hN, hz, hs⟩ := lt64_zero_right.1 h
    rw [signum64_of_nonzero hN hz, hs]
    decide
  · refine signum64_self ?_
    rcases h with rfl | rfl | h
    · exact .inr rfl
    · exact .inr rfl
    · exact .inl h
  · cases hN : isNaN64 x with
    | true => simp
    | false =>
      cases hz : isZero64 x with
      | true => rcases eq_zero_of_isZero64 hz with h | h <;> simp [h]
      | false =>
        cases hs : sign64 x with
        | false => exact .inl (lt64_zero_left.2 ⟨hN, hz, hs⟩)
        | true => exact .inr (.inl (lt64_zero_right.2 ⟨hN, hz, hs⟩))

/-! ### The parameters LN, EXP and POW -/

theorem ne_inf64_of_isNaN64 {x : F64} (h : isNaN64 x = true) (s : Bool) : x ≠ inf64 s := by
  rintro rfl
  simp at h

theorem POW_zero (b : F64) : POW b 0 = one64 := if_pos rfl

theorem LN_inf64 : LN (inf64 false) = inf64 false := by
  have : inf64 false ≠ one64 := by decide
  simp [LN, this]

theorem LN_nan {x : F64} (h : isNaN64 x = true) : isNaN64 (LN x) = true := by
  have h1 : x ≠ one64 := by rintro rfl; revert h; decide
  simp [LN, h1, ne_inf64_of_isNaN64 h, h, isNaN64_toNaN64]

theorem EXP_nan {x : F64} (h : isNaN64 x = true) : isNaN64 (EXP x) = true := by
  simp [EXP, ne_inf64_of_isNaN64 h, h, isNaN64_toNaN64]

/-- Settles O47: one branch of the definitions for each law. -/
theorem transcendentalLaws : Obligations.TranscendentalLaws :=
  ⟨POW_zero, if_pos rfl, LN_inf64, if_pos rfl, fun _ h => ⟨LN_nan h, EXP_nan h⟩⟩

end Sys2Proof.Machine
end

section
/-! PROOFS. A request runs its decoded instruction (rules R19 and R60), and the linear encoders (rules R113 to R116). -/

namespace Sys2Proof.Machine

open Sys2Proof

/-! ### The step -/

/-- Settles O5: the next action is a request, and `runRequest` runs what the word decodes to. -/
theorem stepRunsTheDecodedInstruction : Obligations.StepRunsTheDecodedInstruction := by
  intro st rest i hp hd
  simp only [step, hp, runAction, runRequest, hd]

/-! ### Linear encoders -/

theorem toOffsetBinary_ofInt (k : Int) (bits : Nat) :
    toOffsetBinary (BitVec.ofInt 64 k) bits = BitVec.ofInt 64 (k + 2 ^ (bits - 1)) := by
  rw [toOffsetBinary, one_shiftLeft, BitVec.ofInt_add, ← BitVec.ofInt_natCast, Nat.cast_pow]
  rfl

/-- Settles O35: both encoders write the integer of `truncI64_mul_fullScale`. -/
theorem pcmEncodeTruncatesTheExactProduct : Obligations.PcmEncodeTruncatesTheExactProduct := by
  intro enc be st hb
  obtain ⟨h1, h2⟩ := bitsOk_toNat hb
  have hk : truncI64 (mul64 (f64OfF32 st.s) (fullScale st.bits.toNat)) =
      BitVec.ofInt 64 (encodedInteger st.s st.bits.toNat) := by
    rw [truncI64, truncI64_mul_fullScale st.s h1 h2]
  constructor
  · rw [exec_pcmsEnc_ok enc be hb, pcmSignedEncode, hk]
  · rw [exec_pcmuEnc_ok enc be hb, pcmUnsignedEncode, hk, toOffsetBinary_ofInt]

end Sys2Proof.Machine
end

section
/-! PROOFS. The conversions between the formats (rules R11 and R12) and the operations that reinterpret them (rules R130
to R132). -/

namespace Sys2Proof.Machine

open Sys2Proof

/-! ### Conversions -/

/-- Rounding gives an infinity exactly from half way between the largest finite value and the next encoding on: the
largest finite encoding is odd, so the tie goes up. -/
theorem RoundsTo.eq_infMag_iff {fmt : FloatFormat} {num den mag P : Nat} (hf : 0 < fmt.fracBits) (hd : 0 < den)
    (h : RoundsTo fmt num den mag) (hP : fmt.infMag = P + 1) (hodd : P % 2 = 1) :
    mag = fmt.infMag ↔ (fmt.magUnits P + fmt.magUnits (P + 1)) * den ≤ 2 * num := by
  obtain ⟨r, rfl, hr⟩ := h
  have hmono := (FloatFormat.magUnits_strictMono (fmt := fmt) hf).monotone
  have hle : ∀ {a b : Nat}, a ≤ b → fmt.magUnits a * den ≤ fmt.magUnits b * den :=
    fun hab => Nat.mul_le_mul_right _ (hmono hab)
  have hlt : fmt.magUnits P * den < fmt.magUnits (P + 1) * den :=
    Nat.mul_lt_mul_of_pos_right (FloatFormat.magUnits_strictMono hf (Nat.lt_succ_self P)) hd
  obtain ⟨hP0, -⟩ := hr P
  obtain ⟨hP1, htie⟩ := hr (P + 1)
  simp only [← Nat.cast_mul] at hP0 hP1 htie
  rw [hP, Nat.add_mul]
  constructor
  · -- below the half way mark `P` would be nearer than an encoding past it
    intro hm
    have hge := hle (show P + 1 ≤ r by omega)
    by_contra hnot
    rw [abs_of_nonneg (a := ((fmt.magUnits r * den : Nat) : Int) - num) (by omega)] at hP0
    rcases abs_cases (((fmt.magUnits P * den : Nat) : Int) - num) with ⟨e, _⟩ | ⟨e, _⟩ <;> omega
  · -- from the half way mark on `P + 1` is at least as near as `r ≤ P`, and as near only where `r = P`, which is odd
    intro hnum
    by_contra hm
    have hrP : r ≤ P := by omega
    have hge := hle hrP
    rw [abs_of_nonpos (a := ((fmt.magUnits r * den : Nat) : Int) - num) (by omega)] at hP1 htie
    rcases abs_cases (((fmt.magUnits (P + 1) * den : Nat) : Int) - num) with ⟨e, _⟩ | ⟨e, _⟩
    · have heven := htie (by omega) (by omega)
      have : r ≠ P := by rintro rfl; omega
      have := Nat.mul_lt_mul_of_pos_right (FloatFormat.magUnits_strictMono hf (show r < P by omega)) hd
      omega
    · omega

/-- A narrowing overflows exactly from `2^128 - 2^103` on (rule R11). -/
theorem isInf32_f32OfF64 {x : F64} (hx : Finite64 x) :
    (2 ^ 128 - 2 ^ 103) * 2 ^ 1074 ≤ (units64 x).natAbs ↔ isInf32 (f32OfF64 x) = true := by
  obtain ⟨-, -, hr⟩ := f32OfF64_spec hx
  have hP : binary32.infMag = 0x7F7FFFFF + 1 := by decide
  have hsum : binary32.magUnits 0x7F7FFFFF + binary32.magUnits (0x7F7FFFFF + 1) =
      2 * ((2 ^ 128 - 2 ^ 103) * 2 ^ 149) := by decide
  have hpow : 2 ^ 1074 = 2 ^ 149 * 2 ^ 925 := by rw [← pow_add]
  rw [isInf32_iff, decide_eq_true_eq, ← infMag32, hr.eq_infMag_iff frac32 (by positivity) hP (by decide), hsum, hpow,
    Nat.mul_assoc, Nat.mul_assoc]
  omega

theorem f64OfF32_nan {s : F32} (h : isNaN32 s = true) : isNaN64 (f64OfF32 s) = true := by
  rw [f64OfF32, if_pos h]
  exact isNaN64_toNaN64 _

theorem f32OfF64_nan {x : F64} (h : isNaN64 x = true) : isNaN32 (f32OfF64 x) = true := by
  rw [f32OfF64, if_pos h]
  exact isNaN32_toNaN32 _

theorem isNaN32_inf (s : Bool) : isNaN32 (pack32 s binary32.infMag) = false := by cases s <;> decide

theorem isInf32_inf (s : Bool) : isInf32 (pack32 s binary32.infMag) = true := by cases s <;> decide

theorem sign32_inf (s : Bool) : sign32 (pack32 s binary32.infMag) = s := by cases s <;> decide

theorem f64OfF32_inf (s : Bool) : f64OfF32 (pack32 s binary32.infMag) = inf64 s := by
  simp [f64OfF32, isNaN32_inf, isInf32_inf, sign32_inf]

theorem f32OfF64_inf (s : Bool) : f32OfF64 (inf64 s) = pack32 s binary32.infMag := by
  simp [f32OfF64]

/-- Settles O44: each conversion by its spec lemma, its exact cases, and its special values. -/
theorem conversionsRoundToNearest : Obligations.ConversionsRoundToNearest := by
  refine ⟨fun k h1 h2 => ?_, fun s hs => ?_, fun x hx => ?_, fun s => ⟨f64OfF32_inf s, f32OfF64_inf s⟩,
    fun s => f64OfF32_nan, fun x => f32OfF64_nan⟩
  · obtain ⟨hs, -, hr⟩ := f64OfInt_spec k
    exact ⟨(f64OfInt_range h1 h2).1, hs, hr, fun h => f64OfInt_exact (j := 0) (by simp) h (by omega)⟩
  · obtain ⟨hsign, hfin, hu⟩ := f64OfF32_spec hs
    exact ⟨hfin, hu, hsign⟩
  · obtain ⟨hs, -, hr⟩ := f32OfF64_spec hx
    exact ⟨hs, hr, isInf32_f32OfF64 hx⟩

/-! ### Float formats -/

theorem floatDecode_32 (raw : Word64) : floatDecode raw 32 = BitVec.ofNat 32 (raw.toNat % 2 ^ 32) := by
  apply BitVec.eq_of_toNat_eq
  simp [floatDecode]

theorem floatEncode_32 (s : F32) : floatEncode s 32 = BitVec.ofNat 64 s.toNat := by
  apply BitVec.eq_of_toNat_eq
  simp [floatEncode]

theorem floatDecode_other (raw : Word64) {bits : Nat} (h1 : bits ≠ 32) (h2 : bits ≠ 64) :
    floatDecode raw bits = 0 := by
  rw [floatDecode, if_neg h1, if_neg h2]

/-- At a width that is not 32 or 64 the float kind has its width error, unless a decode has `LEGACY_FLOAT_ZERO`. -/
theorem kindError_pcmFloat_other {bits : Nat} (h1 : bits ≠ 32) (h2 : bits ≠ 64) (dir : Direction) (legacy : Bool) :
    kindError .pcmFloat bits dir legacy =
      if dir = .dec ∧ legacy = true then none else some .unsupportedFloatWidth := by
  simp [kindError, floatWidthOk, h1, h2]

theorem exec_fltDec_bad (enc : Enc) (be : Bool) {st : State} (h : ¬ st.bitsOk) :
    exec (.fltDec enc be) st = .next (st.finish .invalidFormat none none none) := by
  simp only [exec, execFltDec, withFormat_bad h]
  rfl

theorem exec_fltEnc_bad (enc : Enc) (be : Bool) {st : State} (h : ¬ st.bitsOk) :
    exec (.fltEnc enc be) st = .next (st.finish .invalidFormat none none none) := by
  simp only [exec, execFltEnc, withFormat_bad h]
  rfl

theorem exec_fltDec_error (enc : Enc) (be : Bool) {st : State} (h : st.bitsOk) {e : Status}
    (he : kindError .pcmFloat st.bits.toNat .dec st.legacyFloatZero = some e) :
    exec (.fltDec enc be) st = .next (st.finish e none none none) := by
  simp only [exec, execFltDec, withFormat_error h he]
  rfl

theorem exec_fltEnc_error (enc : Enc) (be : Bool) {st : State} (h : st.bitsOk) {e : Status}
    (he : kindError .pcmFloat st.bits.toNat .enc st.legacyFloatZero = some e) :
    exec (.fltEnc enc be) st = .next (st.finish e none none none) := by
  simp only [exec, execFltEnc, withFormat_error h he]
  rfl

/-- What narrowing does, by the class of the word. -/
theorem f32OfF64_class {x : F64} (hN : isNaN64 x = false) :
    sign32 (f32OfF64 x) = sign64 x ∧ isNaN32 (f32OfF64 x) = false ∧
      (isInf64 x = true → isInf32 (f32OfF64 x) = true) ∧
      (isInf64 x = false → RoundsTo binary32 (binary64.magUnits (mag64 x)) (2 ^ 925) (mag32 (f32OfF64 x))) := by
  cases hI : isInf64 x with
  | true =>
    rw [eq_inf64_of_isInf64 hI, f32OfF64_inf, sign64_inf64]
    exact ⟨sign32_inf _, isNaN32_inf _, fun _ => isInf32_inf _, by simp⟩
  | false =>
    obtain ⟨hs, hn, hr⟩ := f32OfF64_spec ⟨hN, hI⟩
    rw [natAbs_units64, ← magUnits_mag64] at hr
    exact ⟨hs, hn, by simp, fun _ => hr⟩

/-- What widening does, by the class of the sample. -/
theorem f64OfF32_class {s : F32} (hN : isNaN32 s = false) :
    sign64 (f64OfF32 s) = sign32 s ∧ isNaN64 (f64OfF32 s) = false ∧
      (isInf32 s = true → isInf64 (f64OfF32 s) = true) ∧
      (isInf32 s = false → isInf64 (f64OfF32 s) = false ∧ units64 (f64OfF32 s) = units32 s * 2 ^ 925) := by
  cases hI : isInf32 s with
  | true =>
    rw [eq_pack32_of_isInf32 hI, f64OfF32_inf, sign32_inf]
    exact ⟨sign64_inf64 _, isNaN64_inf64 _, fun _ => isInf64_inf64 _, by simp⟩
  | false =>
    obtain ⟨hs, hf, hu⟩ := f64OfF32_spec ⟨hN, hI⟩
    exact ⟨hs, hf.1, by simp, fun _ => ⟨hf.2, hu⟩⟩

theorem bits_toNat_ne {st : State} {b : Word32} (h : st.bits ≠ b) : st.bits.toNat ≠ b.toNat :=
  fun he => h (BitVec.eq_of_toNat_eq he)

/-- Settles O39: the widths the check lets through, and the two errors. -/
theorem fltDecReinterpretsTheWord : Obligations.FltDecReinterpretsTheWord := by
  intro enc be st
  refine ⟨fun h => ?_, fun h => ⟨f32OfF64 st.a, ?_, f32OfF64_nan, f32OfF64_class⟩, fun hb h1 h2 => ?_,
    exec_fltDec_bad enc be⟩
  · have hb : st.bits.toNat = 32 := by rw [h]; rfl
    rw [exec_fltDec_ok enc be (bitsOk_of_toNat (by omega) (by omega)) (by rw [hb]; rfl), hb, floatDecode_32]
  · have hb : st.bits.toNat = 64 := by rw [h]; rfl
    rw [exec_fltDec_ok enc be (bitsOk_of_toNat (by omega) (by omega)) (by rw [hb]; rfl), hb]
    rfl
  · have n1 : st.bits.toNat ≠ 32 := bits_toNat_ne h1
    have n2 : st.bits.toNat ≠ 64 := bits_toNat_ne h2
    have he := kindError_pcmFloat_other n1 n2 .dec st.legacyFloatZero
    cases hl : st.legacyFloatZero with
    | true => rw [exec_fltDec_ok enc be hb (by rw [he, hl]; rfl), floatDecode_other _ n1 n2, if_pos rfl]
    | false => rw [exec_fltDec_error enc be hb (e := .unsupportedFloatWidth) (by rw [he, hl]; rfl), if_neg (by decide)]

/-- Settles O40: the two widths the check lets through, and the two errors. -/
theorem fltEncReinterpretsTheSample : Obligations.FltEncReinterpretsTheSample := by
  intro enc be st
  refine ⟨fun h => ?_, fun h => ⟨f64OfF32 st.s, ?_, f64OfF32_nan, f64OfF32_class⟩, fun hb h1 h2 => ?_,
    exec_fltEnc_bad enc be⟩
  · have hb : st.bits.toNat = 32 := by rw [h]; rfl
    rw [exec_fltEnc_ok enc be (bitsOk_of_toNat (by omega) (by omega)) (by rw [hb]; rfl), hb, floatEncode_32]
  · have hb : st.bits.toNat = 64 := by rw [h]; rfl
    rw [exec_fltEnc_ok enc be (bitsOk_of_toNat (by omega) (by omega)) (by rw [hb]; rfl), hb]
    rfl
  · refine exec_fltEnc_error enc be hb ?_
    rw [kindError_pcmFloat_other (bits_toNat_ne h1) (bits_toNat_ne h2)]
    rfl

end Sys2Proof.Machine
end

section
/-! PROOFS. The companding operations (45_g711_mulaw_expander.md, 46_g711_alaw_expander.md), for every `LN`, `EXP` and
`POW` that rule R15 allows. -/

namespace Sys2Proof.Machine

open Sys2Proof

/-! ### The constants, and the value of a byte -/

theorem INV_MU_eq : INV_MU = 0x3F70101010101010#64 := by decide

theorem MU1_eq : MU1 = 0x4070000000000000#64 := by decide

theorem RE_A_eq : RE_A = 0x3F875A32CA94DF04#64 := by decide

theorem FS8_eq : FS8 = 0x4060000000000000#64 := by decide

/-- The value `x` that a companded byte stands for, as the decoders form it (rules R143 and R163). -/
def byteValue (b m : Byte) : F64 := div64 (f64OfInt (smDecode b m)) FS8

theorem natAbs_smDecode_lt (b m : Byte) : (smDecode b m).natAbs < 256 := by
  unfold smDecode
  simp only
  split
  · have := ((b ^^^ m) ^^^ 0x80#8).isLt
    omega
  · have := (b ^^^ m).isLt
    omega

/-- The byte's value is exactly `r / 128`. -/
theorem byteValue_exact (b m : Byte) :
    Finite64 (byteValue b m) ∧ units64 (byteValue b m) * 128 = smDecode b m * 2 ^ 1074 := by
  have hr := natAbs_smDecode_lt b m
  obtain ⟨hfin, -, hmag⟩ := f64OfInt_range (k := smDecode b m) (by omega) (by omega)
  obtain ⟨hq, -, hu⟩ := div64_fullScale hfin (by omega) (bits := 8) (by norm_num) (by norm_num)
  rw [f64OfInt_exact (m := (smDecode b m).natAbs) (j := 0) (by simp) (by omega) (by omega)] at hu
  exact ⟨hq, hu⟩

theorem ulawDecodeBy_eq (pow : F64 → F64 → F64) (b : Byte) :
    ulawDecodeBy pow b = f32OfF64 (mul64 (mul64 (signum64 (byteValue b 0xFF)) 0x3F70101010101010#64)
      (sub64 (pow 0x4070000000000000#64 (abs64 (byteValue b 0xFF))) 0x3FF0000000000000#64)) := by
  rw [← INV_MU_eq, ← MU1_eq]
  rfl

theorem compandedByte_eq (raw : Word64) : compandedByte raw = BitVec.ofNat 8 (raw.toNat % 256) := by
  apply BitVec.eq_of_toNat_eq
  simp [compandedByte]

theorem exec_ulawDec (enc : Enc) (be : Bool) (st : State) :
    exec (.ulawDec enc be) st =
      .next (st.finish .ok none (some (ulawDecodeBy POW (BitVec.ofNat 8 (st.a.toNat % 256)))) none) := by
  rw [← compandedByte_eq]
  rfl

theorem exec_alawDec (enc : Enc) (be : Bool) (st : State) :
    exec (.alawDec enc be) st =
      .next (st.finish .ok none (some (alawDecodeBy LN EXP (BitVec.ofNat 8 (st.a.toNat % 256)))) none) := by
  rw [← compandedByte_eq]
  rfl

theorem setWidth_byte (b : Byte) : b.setWidth 64 = BitVec.ofNat 64 b.toNat := by
  apply BitVec.eq_of_toNat_eq
  simp

theorem exec_ulawEnc (enc : Enc) (be : Bool) (st : State) :
    exec (.ulawEnc enc be) st =
      .next (st.finish .ok (some (BitVec.ofNat 64 (ulawEncodeBy LN st.s).toNat)) none none) := by
  rw [← setWidth_byte]
  rfl

theorem exec_alawEnc (enc : Enc) (be : Bool) (st : State) :
    exec (.alawEnc enc be) st =
      .next (st.finish .ok (some (BitVec.ofNat 64 (alawEncodeBy LN st.s).toNat)) none none) := by
  rw [← setWidth_byte]
  rfl

/-- The zero bytes of a mask have the value `+0.0`. -/
theorem byteValue_zero_bytes (m : Byte) : byteValue m m = 0 ∧ byteValue (m ^^^ 0x80) m = 0 := by
  have h1 : smDecode m m = 0 := by revert m; decide
  have h2 : smDecode (m ^^^ 0x80) m = 0 := by revert m; decide
  have h3 : div64 (f64OfInt 0) FS8 = 0 := by decide
  exact ⟨by rw [byteValue, h1, h3], by rw [byteValue, h2, h3]⟩

/-- The value `+0.0` expands to `+0.0` in µ-law, for every `POW` with `POW(256, +0.0) = 1.0`. -/
theorem ulawDecodeBy_zero {pow : F64 → F64 → F64} (hpow : pow MU1 0 = one64) {b : Byte}
    (hb : byteValue b 0xFF = 0) : ulawDecodeBy pow b = 0 := by
  have ha : abs64 0 = 0 := by decide
  have hz : f32OfF64 (mul64 (mul64 (signum64 0) 0x3F70101010101010#64) (sub64 one64 0x3FF0000000000000#64)) = 0 := by
    decide
  rw [ulawDecodeBy_eq, hb, ha, ← MU1_eq, hpow, hz]

/-- Settles O50: `byteValue` is the exact `x`, and the constants are those of rule R140. -/
theorem ulawDecExpandsTheByte : Obligations.UlawDecExpandsTheByte := by
  intro enc be st
  obtain ⟨hfin, hu⟩ := byteValue_exact (BitVec.ofNat 8 (st.a.toNat % 256)) 0xFF
  refine ⟨_, hfin, hu, ?_, fun h => ?_⟩
  · rw [exec_ulawDec, ulawDecodeBy_eq]
  · have hb : byteValue (BitVec.ofNat 8 (st.a.toNat % 256)) 0xFF = 0 := by
      rcases h with h | h <;> rw [h]
      · exact (byteValue_zero_bytes 0xFF).1
      · exact (byteValue_zero_bytes 0xFF).2
    rw [exec_ulawDec, ulawDecodeBy_zero (POW_zero _) hb]

/-- Settles O52: `byteValue` is the exact `x`. -/
theorem alawDecExpandsTheByte : Obligations.AlawDecExpandsTheByte := by
  intro enc be st
  obtain ⟨hfin, hu⟩ := byteValue_exact (BitVec.ofNat 8 (st.a.toNat % 256)) 0x55
  exact ⟨_, hfin, hu, exec_alawDec enc be st⟩

/-! ### Zero and NaN samples -/

/-- A zero or a NaN: products and quotients of such a value are such values again, and truncation makes them 0. -/
def Vanishing64 (x : F64) : Prop := isNaN64 x = true ∨ isZero64 x = true

theorem round64_zero (s : Bool) (e : Int) : round64 s 0 e = pack64 s 0 := by
  rw [round64, FloatFormat.roundMag_zero]

theorem isZero64_pack64_zero (s : Bool) : isZero64 (pack64 s 0) = true := by cases s <;> rfl

theorem sig64_of_isZero64 {x : F64} (h : isZero64 x = true) : sig64 x = 0 :=
  (sig64_eq_zero x).2 (by simpa [isZero64_iff] using h)

theorem finite64_of_isZero64 {x : F64} (h : isZero64 x = true) : Finite64 x := by
  rw [isZero64_iff, decide_eq_true_eq] at h
  rw [finite64_iff, h]
  norm_num

/-- Every value is a NaN, an infinity or finite. -/
theorem class64 (x : F64) : isNaN64 x = true ∨ (∃ s, x = inf64 s) ∨ Finite64 x := by
  cases hN : isNaN64 x with
  | true => exact .inl rfl
  | false =>
    cases hI : isInf64 x with
    | true => exact .inr (.inl ⟨_, eq_inf64_of_isInf64 hI⟩)
    | false => exact .inr (.inr ⟨hN, hI⟩)

theorem mul64_vanishing {x : F64} (hx : Vanishing64 x) (y : F64) : Vanishing64 (mul64 x y) := by
  rcases hx with hx | hx
  · exact .inl (mul64_nan (.inl hx))
  have hf := finite64_of_isZero64 hx
  rcases class64 y with hy | ⟨s, rfl⟩ | hy
  · exact .inl (mul64_nan (.inr hy))
  · exact .inl (mul64_inf_zero s hf.1 hx).2
  · rw [mul64_eq hf hy, sig64_of_isZero64 hx, Nat.zero_mul]
    exact .inr (by rw [round64_zero, isZero64_pack64_zero])

theorem div64_vanishing {x : F64} (hx : Vanishing64 x) (y : F64) : Vanishing64 (div64 x y) := by
  rcases hx with hx | hx
  · exact .inl (div64_nan (.inl hx))
  have hf := finite64_of_isZero64 hx
  rcases class64 y with hy | ⟨s, rfl⟩ | hy
  · exact .inl (div64_nan (.inr hy))
  · rw [div64_inf_right s hf]
    exact .inr (isZero64_pack64_zero _)
  · cases hz : isZero64 y with
    | true => exact .inl ((div64_zero hf hy hz).2 hx)
    | false =>
      rw [div64_eq hf hy ((isZero64_eq_false_iff y).1 hz), sig64_of_isZero64 hx]
      simp only [Nat.zero_mul, Nat.zero_div, Nat.zero_mod, Nat.mul_zero, if_true, Nat.add_zero]
      exact .inr (by rw [round64_zero, isZero64_pack64_zero])

theorem truncI64_vanishing {x : F64} (hx : Vanishing64 x) : truncI64 x = 0 := by
  have : truncInt x = 0 := by
    rcases hx with hx | hx
    · exact truncInt_nan hx
    · rw [truncInt_finite (finite64_of_isZero64 hx), (units64_eq_zero_iff_isZero64 x).2 hx, Int.zero_tdiv]
      rfl
  rw [truncI64, this]
  rfl

theorem vanishing_f64OfF32 {s : F32} (h : s = 0 ∨ s = 0x80000000#32 ∨ isNaN32 s = true) :
    Vanishing64 (f64OfF32 s) := by
  rcases h with rfl | rfl | h
  · exact .inr (by decide)
  · exact .inr (by decide)
  · exact .inl (f64OfF32_nan h)

/-- A zero or NaN sample compresses to silence, whatever `LN` is. -/
theorem ulawEncodeBy_vanishing (ln : F64 → F64) {s : F32} (h : Vanishing64 (f64OfF32 s)) :
    ulawEncodeBy ln s = 0xFF := by
  have hs : signum64 (f64OfF32 s) = f64OfF32 s := signum64_self h
  have hv := truncI64_vanishing (mul64_vanishing (div64_vanishing
    (mul64_vanishing h (ln (add64 one64 (mul64 MU (abs64 (f64OfF32 s)))))) (ln MU1)) FS8)
  simp only [ulawEncodeBy, hs, hv]
  decide

theorem alawEncodeBy_vanishing (ln : F64 → F64) {s : F32} (h : Vanishing64 (f64OfF32 s)) :
    alawEncodeBy ln s = 0x55 := by
  have hs : signum64 (f64OfF32 s) = f64OfF32 s := signum64_self h
  have hv := fun x => truncI64_vanishing (mul64_vanishing (mul64_vanishing h x) FS8)
  simp only [alawEncodeBy, hs, hv]
  decide

/-- Settles O51: the formula with the constants of rule R140; a zero or NaN factor makes the integer 0. -/
theorem ulawEncCompressesTheSample : Obligations.UlawEncCompressesTheSample := by
  intro enc be st
  refine ⟨ulawEncodeBy LN st.s, exec_ulawEnc enc be st, ?_,
    fun h => ulawEncodeBy_vanishing LN (vanishing_f64OfF32 h)⟩
  rw [← MU1_eq, ← FS8_eq]
  rfl

/-- Settles O53: the formula with the constants of rule R160; a zero or NaN factor makes the integer 0. -/
theorem alawEncCompressesTheSample : Obligations.AlawEncCompressesTheSample := by
  intro enc be st
  refine ⟨alawEncodeBy LN st.s, exec_alawEnc enc be st, ?_,
    fun h => alawEncodeBy_vanishing LN (vanishing_f64OfF32 h)⟩
  rw [← RE_A_eq, ← FS8_eq]
  rfl

/-! ### Full scale and infinities through the compressors -/

/-- `±1.0`. -/
def signedOne (b : Bool) : F64 := pack64 b 0x3FF0000000000000

@[simp] theorem sign64_signedOne (b : Bool) : sign64 (signedOne b) = b := sign64_pack64 (by norm_num)

@[simp] theorem mag64_signedOne (b : Bool) : mag64 (signedOne b) = 0x3FF0000000000000 := mag64_pack64 (by norm_num)

theorem finite64_signedOne (b : Bool) : Finite64 (signedOne b) := by
  rw [finite64_iff, mag64_signedOne]
  norm_num

/-- The value of `1.0` in units. -/
theorem magUnits_one64 : binary64.magUnits 0x3FF0000000000000 = 2 ^ 1074 :=
  calc binary64.magUnits (1022 * 2 ^ 52 + 2 ^ 52)
      = 2 ^ 52 * 2 ^ 1022 :=
        FloatFormat.magUnits_join frac64 (by norm_num [binary64]) (.inr (by norm_num [binary64]))
    _ = 2 ^ 1074 := by rw [← pow_add]

theorem natAbs_units64_signedOne (b : Bool) : (units64 (signedOne b)).natAbs = 2 ^ 1074 := by
  rw [natAbs_units64, ← magUnits_mag64, mag64_signedOne, magUnits_one64]

/-- The sign function of a value that is no zero and no NaN is the `±1.0` of its sign. -/
theorem signum64_eq_signedOne {x : F64} (hN : isNaN64 x = false) (hz : isZero64 x = false) :
    signum64 x = signedOne (sign64 x) := by
  rw [signum64_of_nonzero hN hz]
  cases sign64 x <;> decide

/-- `±1.0` times a finite number has its magnitude. -/
theorem mul64_signedOne (b : Bool) {x : F64} (hx : Finite64 x) :
    mul64 (signedOne b) x = pack64 (b != sign64 x) (mag64 x) := by
  obtain ⟨hs, -, hr⟩ := mul64_spec (finite64_signedOne b) hx
  rw [Int.natAbs_mul, natAbs_units64_signedOne, natAbs_units64, ← magUnits_mag64, Nat.mul_comm] at hr
  have hm := hr.eq_of_magUnits frac64 (by positivity) rfl (by rw [infMag64]; exact ((finite64_iff x).1 hx).le)
  rw [sign64_signedOne] at hs
  rw [← hs, ← hm, pack64_sign_mag]

/-- A finite number that is not zero, over a number of its magnitude, is `±1.0`. -/
theorem div64_same_mag (b : Bool) {x : F64} (hx : Finite64 x) (h0 : units64 x ≠ 0) :
    div64 (pack64 (b != sign64 x) (mag64 x)) x = signedOne b := by
  set y := pack64 (b != sign64 x) (mag64 x)
  have hys : sign64 y = (b != sign64 x) := sign64_pack64 (mag64_lt x)
  have hym : mag64 y = mag64 x := mag64_pack64 (mag64_lt x)
  have hyf : Finite64 y := by rwa [finite64_iff, hym, ← finite64_iff]
  obtain ⟨hs, -, hr⟩ := div64_spec hyf hx h0
  have hyu : (units64 y).natAbs = (units64 x).natAbs := by
    rw [natAbs_units64, natAbs_units64, ← magUnits_mag64, ← magUnits_mag64, hym]
  have hm := hr.eq_of_magUnits (P := 0x3FF0000000000000) frac64 (by omega) (by rw [magUnits_one64, hyu, Nat.mul_comm])
    (by rw [infMag64]; norm_num)
  refine eq_of_sign_mag64 ?_ ?_
  · rw [hs, hys, sign64_signedOne]
    cases b <;> cases sign64 x <;> rfl
  · rw [hm, mag64_signedOne]

theorem div64_self {x : F64} (hx : Finite64 x) (h0 : units64 x ≠ 0) : div64 x x = signedOne false := by
  have h := div64_same_mag false hx h0
  rwa [Bool.false_bne, pack64_sign_mag] at h

theorem abs64_signedOne (b : Bool) : abs64 (signedOne b) = one64 := by cases b <;> decide

theorem abs64_inf64 (b : Bool) : abs64 (inf64 b) = inf64 false := by cases b <;> decide

theorem signum64_signedOne (b : Bool) : signum64 (signedOne b) = signedOne b := by cases b <;> decide

theorem signum64_inf64 (b : Bool) : signum64 (inf64 b) = signedOne b := by
  rw [signum64_eq_signedOne (isNaN64_inf64 b) (isZero64_inf64 b), sign64_inf64]

theorem mul64_signedOne_signedOne (b : Bool) : mul64 (signedOne b) (signedOne false) = signedOne b := by
  rw [mul64_signedOne b (finite64_signedOne false), sign64_signedOne, mag64_signedOne, Bool.bne_false]
  rfl

theorem mul64_signedOne_inf64 (b : Bool) : mul64 (signedOne b) (inf64 false) = inf64 b := by
  cases b <;> decide

theorem mul64_inf64_FS8 (b : Bool) : mul64 (inf64 b) FS8 = inf64 b := by
  cases b <;> decide

theorem div64_inf64_pos (b : Bool) {x : F64} (hx : Finite64 x) (h0 : 0 < units64 x) : div64 (inf64 b) x = inf64 b := by
  have hs : sign64 x = false := by
    rw [units64_eq] at h0
    by_contra hs
    rw [Bool.not_eq_false] at hs
    rw [if_pos hs] at h0
    omega
  rw [div64_inf_left b hx, hs, Bool.bne_false]

/-- A full-scale sample keeps its value `±1.0` through the µ-law curve. -/
theorem ulawEncodeBy_signedOne {ln : F64 → F64} (hf : Finite64 (ln MU1)) (h0 : units64 (ln MU1) ≠ 0) {s : F32}
    {b : Bool} (hs : f64OfF32 s = signedOne b) :
    ulawEncodeBy ln s = smEncode (truncI64 (mul64 (signedOne b) FS8)) 0xFF#8 := by
  have harg : add64 one64 (mul64 MU one64) = MU1 := by decide
  simp only [ulawEncodeBy, hs, abs64_signedOne, signum64_signedOne, harg, mul64_signedOne b hf, div64_same_mag b hf h0]

/-- The same for the A-law curve. -/
theorem alawEncodeBy_signedOne {ln : F64 → F64} (hf : Finite64 (OPL ln)) (h0 : units64 (OPL ln) ≠ 0) {s : F32}
    {b : Bool} (hs : f64OfF32 s = signedOne b) :
    alawEncodeBy ln s = smEncode (truncI64 (mul64 (signedOne b) FS8)) 0x55#8 := by
  have hseg : lt64 one64 RE_A = false := by decide
  have harg : mul64 ALAW_A one64 = ALAW_A := by decide
  have hopl : add64 one64 (ln ALAW_A) = OPL ln := rfl
  simp only [alawEncodeBy, hs, abs64_signedOne, signum64_signedOne, hseg, harg, hopl, div64_self hf h0,
    mul64_signedOne_signedOne, Bool.false_eq_true, if_false]

/-- An infinite sample stays infinite through the µ-law curve. -/
theorem ulawEncodeBy_inf64 {ln : F64 → F64} (hinf : ln (inf64 false) = inf64 false) (hf : Finite64 (ln MU1))
    (h0 : 0 < units64 (ln MU1)) {s : F32} {b : Bool} (hs : f64OfF32 s = inf64 b) :
    ulawEncodeBy ln s = smEncode (truncI64 (inf64 b)) 0xFF#8 := by
  have harg : add64 one64 (mul64 MU (inf64 false)) = inf64 false := by decide
  simp only [ulawEncodeBy, hs, abs64_inf64, signum64_inf64, harg, hinf, mul64_signedOne_inf64,
    div64_inf64_pos b hf h0, mul64_inf64_FS8]

/-- The same for the A-law curve. -/
theorem alawEncodeBy_inf64 {ln : F64 → F64} (hinf : ln (inf64 false) = inf64 false) (hf : Finite64 (OPL ln))
    (h0 : 0 < units64 (OPL ln)) {s : F32} {b : Bool} (hs : f64OfF32 s = inf64 b) :
    alawEncodeBy ln s = smEncode (truncI64 (inf64 b)) 0x55#8 := by
  have hseg : lt64 (inf64 false) RE_A = false := by decide
  have harg : mul64 ALAW_A (inf64 false) = inf64 false := by decide
  have hadd : add64 one64 (inf64 false) = inf64 false := by decide
  simp only [alawEncodeBy, hs, abs64_inf64, signum64_inf64, hseg, harg, hinf, hadd, div64_inf64_pos false hf h0,
    mul64_signedOne_inf64, mul64_inf64_FS8, Bool.false_eq_true, if_false]

/-- The sign of a quotient of finite numbers whose dividend is not zero, also over a zero. -/
theorem sign64_div64 {x y : F64} (hx : Finite64 x) (hy : Finite64 y) (h0 : isZero64 x = false) :
    sign64 (div64 x y) = (sign64 x != sign64 y) := by
  cases hz : isZero64 y with
  | true => rw [(div64_zero hx hy hz).1 h0, sign64_inf64]
  | false => exact (div64_spec hx hy ((isZero64_eq_false_iff y).1 hz)).1

theorem mul64_zero_left {x : F64} (hx : Finite64 x) : mul64 0 x = pack64 (sign64 x) 0 := by
  have h0 : Finite64 0 := finite64_of_isZero64 rfl
  have hs : sign64 0 = false := rfl
  rw [mul64_eq h0 hx, sig64_of_isZero64 rfl, Nat.zero_mul, round64_zero, hs, Bool.false_bne]

/-- The value `+0.0` expands to `+0.0` in A-law where it lies in the linear segment: a positive threshold makes
`OPL` a number without a minus sign. -/
theorem alawDecodeBy_zero {ln exp : F64 → F64} (hf : Finite64 (OPL ln)) (h : lt64 0 (EXP_0 ln) = true) {b : Byte}
    (hb : byteValue b 0x55 = 0) : alawDecodeBy ln exp b = 0 := by
  have hone : Finite64 one64 ∧ isZero64 one64 = false ∧ sign64 one64 = false := by
    unfold Finite64
    decide
  have hs : sign64 (OPL ln) = false := by
    obtain ⟨-, -, hs⟩ := lt64_zero_left.1 h
    rwa [EXP_0, sign64_div64 hone.1 hf hone.2.1, hone.2.2, Bool.false_bne] at hs
  have hx : div64 (f64OfInt (smDecode b 0x55#8)) FS8 = 0 := hb
  have ha : abs64 0 = 0 := by decide
  have hm : mul64 0 (OPL ln) = 0 := by rw [mul64_zero_left hf, hs]; rfl
  have hz : f32OfF64 (mul64 (signum64 0) (div64 0 ALAW_A)) = 0 := by decide
  simp only [alawDecodeBy, hx, ha, h, if_true, hm, hz]

/-- Settles O55: a full-scale sample keeps its value `±1.0` through the curve and an infinite one its infinity, for
every `ln` of the premises; the bytes of these values are then computed. The A-law zero bytes have the value `+0.0`. -/
theorem fullScaleEncodesToSilence : Obligations.FullScaleEncodesToSilence := by
  have hp : f64OfF32 0x3F800000#32 = signedOne false := by decide
  have hn : f64OfF32 0xBF800000#32 = signedOne true := by decide
  have hpi : f64OfF32 0x7F800000#32 = inf64 false := by decide
  have hni : f64OfF32 0xFF800000#32 = inf64 true := by decide
  refine ⟨fun ln hf h0 => ?_, fun ln hf h0 => ?_, fun ln hinf hf h0 => ?_, fun ln hinf hf h0 => ?_,
    fun ln exp hf h => ?_⟩
  · rw [ulawEncodeBy_signedOne hf h0 hp, ulawEncodeBy_signedOne hf h0 hn]
    decide
  · rw [alawEncodeBy_signedOne hf h0 hp, alawEncodeBy_signedOne hf h0 hn]
    decide
  · rw [ulawEncodeBy_inf64 hinf hf h0 hpi, ulawEncodeBy_inf64 hinf hf h0 hni]
    decide
  · rw [alawEncodeBy_inf64 hinf hf h0 hpi, alawEncodeBy_inf64 hinf hf h0 hni]
    decide
  · obtain ⟨h1, h2⟩ := byteValue_zero_bytes 0x55
    exact ⟨alawDecodeBy_zero hf h h1, alawDecodeBy_zero hf h h2⟩

end Sys2Proof.Machine
end

section
/-! PROOFS. The invariant: the machine after reset meets it (rules R30 and R31), and every completion, every reset and
every other action of the host keeps it (rules R26, R27, R30 and R49). -/

namespace Sys2Proof.Machine

open Sys2Proof

/-! ### What the invariant looks at -/

/-- The invariant looks at the buffers and the result ports alone. -/
theorem State.Inv.congr {st t : State} (h : st.Inv) (hb : t.bytes = st.bytes) (hs : t.samples = st.samples)
    (hstatus : t.status = st.status) (hr : t.r = st.r) (hf : t.f = st.f) (hn : t.n = st.n) : t.Inv := by
  obtain ⟨hbytes, hsamples, hports⟩ := h
  refine ⟨hb ▸ hbytes, hs ▸ hsamples, ?_⟩
  unfold State.portsWf at hports ⊢
  rwa [hstatus, hr, hf, hn]

/-- The invariant holds of a state without result values whose buffers are canonical. -/
theorem State.inv_resetBlock {st : State} (hb : st.bytes.wf) (hs : st.samples.wf) : st.resetBlock.Inv :=
  ⟨hb, hs, rfl, rfl, rfl⟩

theorem State.portsWf_finish_error (st : State) {e : Status} (he : e ≠ .ok) :
    (st.finish e none none none).portsWf := by
  cases e with
  | ok => exact absurd rfl he
  | _ => exact ⟨rfl, rfl, rfl⟩

theorem State.inv_finish_error {st : State} (h : st.Inv) {e : Status} (he : e ≠ .ok) :
    (st.finish e none none none).Inv :=
  ⟨h.1, h.2.1, st.portsWf_finish_error he⟩

/-- The table of rule R66 lists one result port at most for each operation. -/
theorem writes_one_result_port_at_most (i : Instr) :
    (writesF i = false ∧ writesN i = false) ∨ (writesR i = false ∧ writesN i = false) ∨
      (writesR i = false ∧ writesF i = false) := by
  cases i <;> simp [writesR, writesF, writesN]

/-! ### What keeps the invariant -/

theorem Completed.inv {i : Instr} {st t : State} (hc : Completed i st t) (h : st.Inv) : t.Inv := by
  obtain ⟨buf, smp, r, f, n, rfl, hr, hf, hn, -, -, -, -, hbuf, hsmp⟩ := hc
  obtain ⟨hbytes, hsamples, -⟩ := h
  refine ⟨hbuf hbytes, hsmp hsamples, ?_⟩
  have hone := writes_one_result_port_at_most i
  rw [← hr, ← hf, ← hn] at hone
  simpa [State.portsWf] using hone

theorem exec_keeps_inv {i : Instr} {st t : State} (h : st.Inv) (he : exec i st = .next t) : t.Inv := by
  rcases exec_cases he with ⟨e, hne, rfl⟩ | hc
  · exact State.inv_finish_error h hne
  · exact hc.inv h

theorem runRequest_keeps_inv {st t : State} (h : st.Inv) (hr : runRequest st = .next t) : t.Inv := by
  unfold runRequest at hr
  split at hr
  · exact exec_keeps_inv h hr
  · cases hr
    exact State.inv_finish_error h (by decide)

theorem runCutRequest_keeps_inv {st t : State} (h : st.Inv) (hr : runCutRequest st = .next t) : t.Inv := by
  obtain ⟨hbytes, hsamples, -⟩ := h
  rcases runCutRequest_next hr with ⟨-, -, rfl⟩ | ⟨i, -, hcap, rfl⟩
  · exact State.inv_resetBlock hbytes hsamples
  · obtain ⟨⟨hb, -, -⟩, hs, -, -⟩ := scramble_spec hbytes hsamples hcap
    exact State.inv_resetBlock hb hs

theorem State.inv_drivePort {st : State} (h : st.Inv) (port : InputPort) (v : Word64) : (st.drivePort port v).Inv :=
  h.congr (by simp) (by simp) (by simp) (by simp) (by simp) (by simp)

theorem readPort_none {port : ResultPort} {st : State} (h : st.portValue port = none) (use : Word64 → State) :
    readPort port st use = .fault (.portWithoutValue port) := by
  simp only [readPort, h]

theorem readPort_some {port : ResultPort} {st : State} {v : Word64} (h : st.portValue port = some v)
    (use : Word64 → State) : readPort port st use = .next (use v) := by
  simp only [readPort, h]

theorem readPort_next {port : ResultPort} {st t : State} {use : Word64 → State} (h : readPort port st use = .next t) :
    ∃ v, st.portValue port = some v ∧ t = use v := by
  cases hv : st.portValue port with
  | none => rw [readPort_none hv] at h; cases h
  | some v => rw [readPort_some hv] at h; cases h; exact ⟨v, rfl, rfl⟩

theorem runAction_keeps_inv {act : HostAction} {st t : State} (h : st.Inv) (ha : runAction act st = .next t) :
    t.Inv := by
  have ⟨hbytes, hsamples, hports⟩ := h
  cases act with
  | drive port v => cases ha; exact State.inv_drivePort h port v
  | copy source target =>
    obtain ⟨v, -, rfl⟩ := readPort_next ha
    exact State.inv_drivePort h target v
  | read port =>
    obtain ⟨v, -, rfl⟩ := readPort_next ha
    exact h
  | supplyBytes contents => cases ha; exact ⟨(Buffer.ofList_spec contents).1, hsamples, hports⟩
  | supplySamples contents => cases ha; exact ⟨hbytes, (Buffer.ofList_spec contents).1, hports⟩
  | stateBcap capacity => cases ha; exact h
  | stateScap capacity => cases ha; exact h
  | request => exact runRequest_keeps_inv h ha
  | reset => cases ha; exact State.inv_resetBlock hbytes hsamples
  | requestCutByReset => exact runCutRequest_keeps_inv h ha

theorem step_of_pending {st : State} {act : HostAction} {rest : List HostAction} (h : st.pending = act :: rest) :
    step st = runAction act { st with pending := rest } := by
  simp only [step, h]

/-- Settles O10: a step is an action of the host or stands still, and each action keeps the invariant. -/
theorem stepKeepsTheInvariant : Obligations.StepKeepsTheInvariant := by
  intro st t hinv h
  cases hp : st.pending with
  | nil =>
    simp only [step, hp] at h
    cases h
    exact hinv
  | cons act rest =>
    have hrest : { st with pending := rest }.Inv := hinv.congr rfl rfl rfl rfl rfl rfl
    rw [step_of_pending hp] at h
    exact runAction_keeps_inv hrest h

/-- Settles O11: both buffers are empty and no result port carries a value. -/
theorem resetMeetsTheInvariant : Obligations.ResetMeetsTheInvariant :=
  ⟨⟨rfl, rfl, rfl, rfl, rfl⟩, rfl, rfl, rfl, rfl⟩

end Sys2Proof.Machine
end

section
/-! PROOFS. What a completion changes (rules R20, R25, R27, R49 and R66), and the host's side of the ports between
requests (rules R25 to R27, R30 and R220). -/

namespace Sys2Proof.Machine

open Sys2Proof

/-! ### Completions -/

/-- Settles O12: both forms of a completion in `exec_cases` change the result ports and the elements of the buffers
only. -/
theorem requestsLeaveTheInputsAlone : Obligations.RequestsLeaveTheInputsAlone := by
  intro i st t h
  rcases exec_cases h with ⟨e, -, rfl⟩ | ⟨buf, smp, r, f, n, rfl, -, -, -, -, -, hbuf, hsmp, -, -⟩
  · simp
  · simp [hbuf, hsmp]

/-- Settles O14: an operation that completes with `OK` is `Completed`, which names its ports; an error leaves a value
on `STATUS` alone. -/
theorem resultPortsCarryExactlyTheListedOutputs : Obligations.ResultPortsCarryExactlyTheListedOutputs := by
  intro i st t h
  rcases exec_cases h with ⟨e, he, rfl⟩ | ⟨buf, smp, r, f, n, rfl, hr, hf, hn, -⟩
  · exact ⟨fun hok => absurd (Option.some.inj hok) he, fun _ => ⟨rfl, rfl, rfl, rfl⟩⟩
  · exact ⟨fun _ => ⟨hr, hf, hn⟩, fun hne => absurd rfl hne⟩

/-! ### Reset, reads, copies and drives -/

/-- Settles O6: the action `reset` is `State.resetBlock`, which names the four result ports. -/
theorem resetClearsTheResultPortsOnly : Obligations.ResetClearsTheResultPortsOnly := by
  intro st rest hp
  rw [step_of_pending hp, runAction, State.resetBlock]

theorem step_drive {st : State} {port : InputPort} {v : Word64} {rest : List HostAction}
    (h : st.pending = .drive port v :: rest) : step st = .next ({ st with pending := rest }.drivePort port v) := by
  rw [step_of_pending h, runAction]

/-- Settles O7: a read and a copy by whether the port carries a value, a drive by the port. -/
theorem readingAPortWithoutValueFaults : Obligations.ReadingAPortWithoutValueFaults := by
  intro st rest
  refine ⟨fun port hp => ⟨fun hv => ?_, fun hv => ?_⟩, fun source target hp => ⟨fun hv => ?_, fun v hv => ?_⟩,
    ⟨rfl, rfl, rfl, rfl⟩, fun v => ⟨step_drive, step_drive, step_drive, step_drive, step_drive, step_drive, step_drive⟩,
    fun c => ⟨step_of_pending, step_of_pending⟩⟩
  · rw [step_of_pending hp]
    exact readPort_none hv _
  · obtain ⟨v, hv⟩ := Option.ne_none_iff_exists'.1 hv
    rw [step_of_pending hp]
    exact readPort_some hv _
  · rw [step_of_pending hp]
    exact readPort_none hv _
  · rw [step_of_pending hp, step_drive rfl]
    exact readPort_some hv _

end Sys2Proof.Machine
end

section
/-! PROOFS. Inputs that an operation does not read have no effect (rules R62, R63, R66 and R189). Two runs are compared
by the relation `SameEffect`: one rule for each check and each completion says when it gives the same answer in both,
and each operation is put together from these rules. -/

namespace Sys2Proof.Machine

open Sys2Proof

/-! ### Buffers after two runs -/

/-- Each element of a buffer either is the same after both runs or is left alone in both: `b` became `c` and `b'`
became `c'`. -/
def SameOrKept {w : Nat} (b b' c c' : Buffer w) : Prop :=
  ∀ k, c.get k = c'.get k ∨ (c.get k = b.get k ∧ c'.get k = b'.get k)

theorem SameOrKept.kept {w : Nat} (b b' : Buffer w) : SameOrKept b b' b b' := fun _ => .inr ⟨rfl, rfl⟩

/-- Two writes of one region that agree on the values written. -/
theorem SameOrKept.of_writes {w : Nat} {b b' c c' : Buffer w} {P : Nat → Prop} [DecidablePred P]
    {v v' : Nat → BitVec w} (h : ∀ k, c.get k = if P k then v k else b.get k)
    (h' : ∀ k, c'.get k = if P k then v' k else b'.get k) (hv : ∀ k, P k → v k = v' k) : SameOrKept b b' c c' := by
  intro k
  by_cases hk : P k
  · exact .inl (by rw [h, h', if_pos hk, if_pos hk, hv k hk])
  · exact .inr ⟨by rw [h, if_neg hk], by rw [h', if_neg hk]⟩

theorem writeWord_sameOrKept {b b' : Buffer 8} (hb : b.wf) (hb' : b'.wf) {off W : Nat} (v : Word64) (be : Bool)
    (hin : off + W ≤ b.size) (hin' : off + W ≤ b'.size) :
    SameOrKept b b' (writeWord b off v W be) (writeWord b' off v W be) := by
  obtain ⟨-, -, h⟩ := writeWord_spec hb off v W be hin
  obtain ⟨-, -, h'⟩ := writeWord_spec hb' off v W be hin'
  exact .of_writes h h' fun _ _ => rfl

/-- The blocks of UNPACK depend on the bytes of the `n` blocks alone. -/
theorem unpackBlocks_sameOrKept (kind : Kind) (be : Bool) (bits : Nat) {bytes bytes' : Buffer 8}
    {samples samples' : Buffer 32} (hs : samples.wf) (hs' : samples'.wf) {n : Nat} (hin : n ≤ samples.size)
    (hin' : n ≤ samples'.size) (hget : ∀ k, k < n * bytesPerSample bits → bytes.get k = bytes'.get k) :
    SameOrKept samples samples' (unpackBlocks kind be bits bytes samples n)
      (unpackBlocks kind be bits bytes' samples' n) := by
  obtain ⟨-, -, h⟩ := unpackBlocks_spec kind be bits bytes hs hin
  obtain ⟨-, -, h'⟩ := unpackBlocks_spec kind be bits bytes' hs' hin'
  refine .of_writes h h' fun k hk => ?_
  have hblock : (k + 1) * bytesPerSample bits ≤ n * bytesPerSample bits := Nat.mul_le_mul_right _ hk
  rw [Nat.succ_mul] at hblock
  rw [readWord_congr fun i hi => hget _ (by omega)]

/-- The bytes PACK writes depend on the first `n` samples alone. -/
theorem packBlocks_sameOrKept (kind : Kind) (be : Bool) {bits : Nat} (hbits : 1 ≤ bits) {samples samples' : Buffer 32}
    {bytes bytes' : Buffer 8} (hb : bytes.wf) (hb' : bytes'.wf) {n : Nat} (hin : n * bytesPerSample bits ≤ bytes.size)
    (hin' : n * bytesPerSample bits ≤ bytes'.size) (hget : ∀ k, k < n → samples.get k = samples'.get k) :
    SameOrKept bytes bytes' (packBlocks kind be bits samples bytes n) (packBlocks kind be bits samples' bytes' n) := by
  have hpos := bytesPerSample_pos hbits
  obtain ⟨-, -, h⟩ := packBlocks_spec kind be bits samples hb hpos hin
  obtain ⟨-, -, h'⟩ := packBlocks_spec kind be bits samples' hb' hpos hin'
  refine .of_writes h h' fun k hk => ?_
  rw [hget _ ((Nat.div_lt_iff_lt_mul hpos).2 hk)]

/-! ### Two answers of the same effect -/

/-- Two answers `x` from `s` and `x'` from `s'` that, where both are next states, carry the same result ports and have
done the same to the buffers. -/
def SameEffect (s s' : State) (x x' : Result) : Prop :=
  ∀ t t', x = .next t → x' = .next t' →
    t.status = t'.status ∧ t.r = t'.r ∧ t.f = t'.f ∧ t.n = t'.n ∧
    SameOrKept s.bytes s'.bytes t.bytes t'.bytes ∧ SameOrKept s.samples s'.samples t.samples t'.samples

section

variable {s s' : State}

/-- Two completions with the same values on the result ports. -/
theorem SameEffect.finish {bytes bytes' : Buffer 8} {samples samples' : Buffer 32}
    (hb : SameOrKept s.bytes s'.bytes bytes bytes') (hs : SameOrKept s.samples s'.samples samples samples')
    (e : Status) (r : Option Word64) (f : Option F32) (n : Option Word64) :
    SameEffect s s' (.next ({ s with bytes := bytes, samples := samples }.finish e r f n))
      (.next ({ s' with bytes := bytes', samples := samples' }.finish e r f n)) := by
  rintro _ _ ⟨⟩ ⟨⟩
  exact ⟨rfl, rfl, rfl, rfl, hb, hs⟩

theorem SameEffect.raise (e : Status) : SameEffect s s' (raise e s) (raise e s') :=
  finish (.kept _ _) (.kept _ _) e none none none

theorem SameEffect.completeR {v v' : Word64} (h : v = v') : SameEffect s s' (completeR v s) (completeR v' s') :=
  h ▸ finish (.kept _ _) (.kept _ _) .ok (some v) none none

theorem SameEffect.completeF {v v' : F32} (h : v = v') : SameEffect s s' (completeF v s) (completeF v' s') :=
  h ▸ finish (.kept _ _) (.kept _ _) .ok none (some v) none

theorem SameEffect.completeBytes {b b' : Buffer 8} (h : SameOrKept s.bytes s'.bytes b b') :
    SameEffect s s' (completeBytes b s) (completeBytes b' s') :=
  finish h (.kept _ _) .ok none none none

theorem SameEffect.completeSamplesN {b b' : Buffer 32} (n : Nat) (h : SameOrKept s.samples s'.samples b b') :
    SameEffect s s' (completeSamplesN b n s) (completeSamplesN b' n s') :=
  finish (.kept _ _) h .ok none none _

theorem SameEffect.completeBytesN {b b' : Buffer 8} (n : Nat) (h : SameOrKept s.bytes s'.bytes b b') :
    SameEffect s s' (completeBytesN b n s) (completeBytesN b' n s') :=
  finish h (.kept _ _) .ok none none _

theorem SameEffect.withBits {use use' : Nat → Result} (h : s.bits = s'.bits)
    (hu : s.bitsOk → SameEffect s s' (use s.bits.toNat) (use' s.bits.toNat)) :
    SameEffect s s' (withBits s use) (withBits s' use') := by
  by_cases hb : s.bitsOk
  · have hb' : s'.bitsOk := by rwa [State.bitsOk, ← h]
    rw [withBits_ok hb, withBits_ok hb', ← h]
    exact hu hb
  · have hb' : ¬ s'.bitsOk := by rwa [State.bitsOk, ← h]
    rw [withBits_bad hb, withBits_bad hb']
    exact raise _

theorem SameEffect.withFormat {use use' : Nat → Result} (kind : Kind) (dir : Direction) (h : s.bits = s'.bits)
    (hl : s.legacyFloatZero = s'.legacyFloatZero)
    (hu : s.bitsOk → SameEffect s s' (use s.bits.toNat) (use' s.bits.toNat)) :
    SameEffect s s' (withFormat kind dir s use) (withFormat kind dir s' use') := by
  refine withBits h fun hb => ?_
  rw [← hl]
  cases kindError kind s.bits.toNat dir s.legacyFloatZero with
  | none => exact hu hb
  | some e => exact raise e

theorem SameEffect.withKind {use use' : Kind → Result} (enc : Enc) (hu : ∀ k, SameEffect s s' (use k) (use' k)) :
    SameEffect s s' (withKind enc s use) (withKind enc s' use') := by
  cases enc with
  | of k => exact hu k
  | _ => exact raise .illegalCommand

theorem SameEffect.withBytes {use use' : Nat → Result} (hc : s.bcap = s'.bcap)
    (hu : s.bcap.val ≤ s.bytes.size → s.bcap.val ≤ s'.bytes.size →
      SameEffect s s' (use s.bcap.val) (use' s.bcap.val)) :
    SameEffect s s' (withBytes s use) (withBytes s' use') := by
  intro t t' h h'
  obtain ⟨hle, h⟩ := withBytes_next h
  obtain ⟨hle', h'⟩ := withBytes_next h'
  rw [← hc] at hle' h'
  exact hu hle hle' t t' h h'

theorem SameEffect.withSamples {use use' : Nat → Result} (hc : s.scap = s'.scap)
    (hu : s.scap.val ≤ s.samples.size → s.scap.val ≤ s'.samples.size →
      SameEffect s s' (use s.scap.val) (use' s.scap.val)) :
    SameEffect s s' (withSamples s use) (withSamples s' use') := by
  intro t t' h h'
  obtain ⟨hle, h⟩ := withSamples_next h
  obtain ⟨hle', h'⟩ := withSamples_next h'
  rw [← hc] at hle' h'
  exact hu hle hle' t t' h h'

/-- A check that both runs make alike. -/
theorem SameEffect.ite {p : Prop} [Decidable p] {x x' y y' : Result} (hx : p → SameEffect s s' x x')
    (hy : ¬ p → SameEffect s s' y y') : SameEffect s s' (if p then x else y) (if p then x' else y') := by
  by_cases h : p
  · rw [if_pos h, if_pos h]
    exact hx h
  · rw [if_neg h, if_neg h]
    exact hy h

theorem SameEffect.withWord {use use' : Nat → Nat → Result} (hc : s.bcap = s'.bcap) (hw : s.width = s'.width)
    (ho : s.offset = s'.offset)
    (hu : s.offset.toNat + s.width.toNat ≤ s.bcap.val → s.bcap.val ≤ s.bytes.size → s.bcap.val ≤ s'.bytes.size →
      SameEffect s s' (use s.offset.toNat s.width.toNat) (use' s.offset.toNat s.width.toNat)) :
    SameEffect s s' (withWord s use) (withWord s' use') := by
  refine withBytes hc fun hle hle' => ?_
  rw [← hw, ← ho]
  exact ite (fun _ => ite (fun _ => raise _) fun hin => hu (Nat.not_lt.1 hin) hle hle') fun _ => raise _

end

/-! ### The operations -/

/-- Instructions of one `OP` code differ in their fields alone. -/
theorem ofOp_of_same_op {i j : Instr} (h : i.fields.1 = j.fields.1) :
    ∃ enc be, Instr.ofOp i.fields.1.toNat enc be = some j := by
  rw [h]
  exact ⟨j.fields.2.1, j.fields.2.2, by cases j <;> rfl⟩

theorem execUnpack_sameEffect {enc enc' : Enc} {be be' : Bool} {s s' : State} (hs : s.samples.wf)
    (hs' : s'.samples.wf) (h : AgreeOnInputs (.unpack enc be) (.unpack enc' be') s s') :
    SameEffect s s' (execUnpack enc be s) (execUnpack enc' be' s') := by
  obtain ⟨-, henc, hbe, hbits, -, hlen, -, -, hbcap, hscap, hbytes, -, hlegacy⟩ := h
  cases henc
  cases hbe rfl
  refine .withKind enc fun kind => .withBytes (hbcap rfl).1 fun _ _ => .withSamples (hscap rfl).1 fun hle hle' =>
    .withFormat kind .dec (hbits rfl) hlegacy fun _ => ?_
  rw [← hlen rfl]
  refine .ite (fun _ => .raise _) fun hblocks => .ite (fun _ => .raise _) fun hn => .completeSamplesN _ ?_
  exact unpackBlocks_sameOrKept kind be _ hs hs' (by omega) (by omega) fun k hk => hbytes rfl k (by omega)

theorem execPack_sameEffect {enc enc' : Enc} {be be' : Bool} {s s' : State} (hb : s.bytes.wf) (hb' : s'.bytes.wf)
    (h : AgreeOnInputs (.pack enc be) (.pack enc' be') s s') :
    SameEffect s s' (execPack enc be s) (execPack enc' be' s') := by
  obtain ⟨-, henc, hbe, hbits, -, hlen, -, -, hbcap, hscap, -, hsamples, hlegacy⟩ := h
  cases henc
  cases hbe rfl
  refine .withKind enc fun kind => .withBytes (hbcap rfl).1 fun hle hle' => .withSamples (hscap rfl).1 fun _ _ =>
    .withFormat kind .enc (hbits rfl) hlegacy fun hok => ?_
  rw [← hlen rfl]
  refine .ite (fun _ => .raise _) fun hn => .ite (fun _ => .raise _) fun hblocks => .completeBytesN _ ?_
  exact packBlocks_sameOrKept kind be (bitsOk_toNat hok).1 hb hb' (by omega) (by omega)
    fun k hk => hsamples rfl k (by omega)

/-- Requests that agree on the inputs of their operation have the same effect. -/
theorem exec_sameEffect {i j : Instr} {s s' : State} (hi : s.Inv) (hi' : s'.Inv) (h : AgreeOnInputs i j s s') :
    SameEffect s s' (exec i s) (exec j s') := by
  have ⟨hop, henc, hbe, hbits, hword, _, ha, hs, hbcap, _, hbytes, _, hlegacy⟩ := h
  obtain ⟨hwf, hwfS, -⟩ := hi
  obtain ⟨hwf', hwfS', -⟩ := hi'
  obtain ⟨enc, be, hj⟩ := ofOp_of_same_op hop
  cases i <;> cases hj <;> simp only [exec, execBps, execFscale, execRdword, execWrword, execSext, execToob, execFromob,
    execPcmsDec, execPcmuDec, execPcmsEnc, execPcmuEnc, execFltDec, execFltEnc, execUlawDec, execUlawEnc, execAlawDec,
    execAlawEnc, execDecode, execEncode]
  case bps | fscale =>
    exact .withBits (hbits rfl) fun _ => .completeR rfl
  case sext | toob | fromob =>
    exact .withBits (hbits rfl) fun _ => .completeR (by rw [ha rfl])
  case pcmsDec | pcmuDec =>
    exact .withBits (hbits rfl) fun _ => .completeF (by rw [ha rfl])
  case pcmsEnc | pcmuEnc =>
    exact .withBits (hbits rfl) fun _ => .completeR (by rw [hs rfl])
  case ulawDec | alawDec => exact .completeF (by rw [ha rfl])
  case ulawEnc | alawEnc => exact .completeR (by rw [hs rfl])
  case fltDec =>
    exact .withFormat .pcmFloat .dec (hbits rfl) hlegacy fun _ => .completeF (by rw [ha rfl])
  case fltEnc =>
    exact .withFormat .pcmFloat .enc (hbits rfl) hlegacy fun _ => .completeR (by rw [hs rfl])
  case decode =>
    cases henc
    exact .withKind enc fun k => .withFormat k .dec (hbits rfl) hlegacy fun _ => .completeF (by rw [ha rfl])
  case encode =>
    cases henc
    exact .withKind enc fun k => .withFormat k .enc (hbits rfl) hlegacy fun _ => .completeR (by rw [hs rfl])
  case rdword =>
    cases hbe rfl
    obtain ⟨hwidth, hoffset⟩ := hword rfl
    exact .withWord (hbcap rfl).1 hwidth hoffset fun hin _ _ =>
      .completeR (readWord_congr fun k hk => hbytes rfl _ (by omega))
  case wrword =>
    cases hbe rfl
    obtain ⟨hwidth, hoffset⟩ := hword rfl
    refine .withWord (hbcap rfl).1 hwidth hoffset fun hin hle hle' => .completeBytes ?_
    rw [← ha rfl]
    exact writeWord_sameOrKept hwf hwf' s.a be (by omega) (by omega)
  case unpack => exact execUnpack_sameEffect hwfS hwfS' h
  case pack => exact execPack_sameEffect hwf hwf' h

/-- Settles O15: `SameEffect` of the two requests, with `SameOrKept` written out. -/
theorem unreadInputsHaveNoEffect : Obligations.UnreadInputsHaveNoEffect :=
  fun _ _ _ _ t t' hi hi' hagree h h' => exec_sameEffect hi hi' hagree t t' h h'

end Sys2Proof.Machine
end

section
/-! PROOFS. The two buffers (20_memory.md): what the host supplies and which operations write (rules R40 to R42), words
in either byte order (rules R44, R90 and R92), and streams cut at a block boundary (rule R58). -/

namespace Sys2Proof.Machine

open Sys2Proof

/-! ### Who changes a buffer -/

/-- Settles O8: the step stores `Buffer.ofList` of the contents. -/
theorem suppliedBuffersHoldTheirContents : Obligations.SuppliedBuffersHoldTheirContents := by
  intro st rest
  refine ⟨fun contents hp => ⟨Buffer.ofList contents, ?_, Buffer.ofList_spec contents⟩,
    fun contents hp => ⟨Buffer.ofList contents, ?_, Buffer.ofList_spec contents⟩⟩
  · rw [step_of_pending hp, runAction]
  · rw [step_of_pending hp, runAction]

theorem not_reads_and_writes_bytes (i : Instr) : ¬ (readsBytes i = true ∧ writesBytes i = true) := by
  cases i <;> simp [readsBytes, writesBytes]

theorem not_reads_and_writes_samples (i : Instr) : ¬ (readsSamples i = true ∧ writesSamples i = true) := by
  cases i <;> simp [readsSamples, writesSamples]

/-- Settles O13: an error writes no buffer, and `Completed` names the buffers that an operation leaves alone. -/
theorem onlyListedOperationsWriteABuffer : Obligations.OnlyListedOperationsWriteABuffer := by
  intro i st t h
  rcases exec_cases h with ⟨e, -, rfl⟩ | ⟨buf, smp, r, f, n, rfl, -, -, -, hbuf, hsmp, -⟩
  · exact ⟨fun _ => rfl, fun _ => rfl, not_reads_and_writes_bytes i, not_reads_and_writes_samples i⟩
  · exact ⟨hbuf, hsmp, not_reads_and_writes_bytes i, not_reads_and_writes_samples i⟩

/-! ### Words -/

theorem byteShift_eq (W : Nat) (be : Bool) (b : Nat) : byteShift W be b = 8 * bytePosition W be b := by
  unfold byteShift bytePosition
  split <;> rfl

theorem bytePosition_lt {W b : Nat} (be : Bool) (hb : b < W) : bytePosition W be b < W := by
  unfold bytePosition
  split <;> omega

/-- Reversing the bytes of a word twice gives the order back. -/
theorem bytePosition_bytePosition {W b : Nat} (be : Bool) (hb : b < W) :
    bytePosition W be (bytePosition W be b) = b := by
  unfold bytePosition
  split <;> omega

theorem wordByte_toNat (value : Word64) (W : Nat) (be : Bool) (b : Nat) :
    (wordByte value W be b).toNat = value.toNat / 2 ^ byteShift W be b % 2 ^ 8 := by
  rw [wordByte, BitVec.toNat_setWidth, BitVec.toNat_ushiftRight, Nat.shiftRight_eq_div_pow]

/-- Byte `b` of a word read is the byte at `off + b` (rule R44). -/
theorem wordByte_readWord (buf : Buffer 8) (off : Nat) {W b : Nat} (be : Bool) (hW : W ≤ 8) (hb : b < W) :
    wordByte (readWord buf off W be) W be b = buf.get (off + b) := by
  refine BitVec.eq_of_getLsbD_eq fun q hq => ?_
  have hp := bytePosition_lt be hb
  have hdiv : (8 * bytePosition W be b + q) / 8 = bytePosition W be b := by omega
  have hmod : (8 * bytePosition W be b + q) % 8 = q := by omega
  have hin : 8 * bytePosition W be b + q < 8 * W := by omega
  rw [wordByte, BitVec.getLsbD_setWidth, BitVec.getLsbD_ushiftRight, byteShift_eq, readWord_getLsbD _ _ _ _ hW, hdiv,
    hmod, bytePosition_bytePosition be hb]
  simp [hq, hin]

theorem readWord_toNat_lt (buf : Buffer 8) (off : Nat) {W : Nat} (be : Bool) (hW : W ≤ 8) :
    (readWord buf off W be).toNat < 2 ^ (8 * W) := by
  refine Nat.lt_pow_two_of_testBit _ fun n hn => ?_
  rw [BitVec.testBit_toNat, readWord_getLsbD _ _ _ _ hW, decide_eq_false (Nat.not_lt.2 hn), Bool.false_and]

/-- Settles O26: the value is `readWord`, bounded by its width and read byte by byte. -/
theorem rdwordReadsTheWord : Obligations.RdwordReadsTheWord := by
  intro enc be st hc h1 h8 hin
  refine ⟨_, exec_rdword_ok enc be hc.1 h1 h8 hin, readWord_toNat_lt _ _ be h8, fun b hb => ?_⟩
  rw [← wordByte_readWord st.bytes st.offset.toNat be h8 hb, wordByte_toNat, byteShift]

/-- Settles O27: the new buffer is `writeWord`, whose elements `writeWord_spec` gives inside the word and outside. -/
theorem wrwordStoresTheWordAndNothingElse : Obligations.WrwordStoresTheWordAndNothingElse := by
  intro enc be st ⟨hwf, _⟩ hc h1 h8 hin
  obtain ⟨-, hsize, hget⟩ :=
    writeWord_spec hwf st.offset.toNat st.a st.width.toNat be (hin.trans hc.1)
  refine ⟨_, exec_wrword_ok enc be hc.1 h1 h8 hin, hsize, fun b hb => ?_, fun k hk => ?_⟩
  · rw [hget, if_pos (by omega), Nat.add_sub_cancel_left, wordByte_toNat, byteShift]
  · rw [hget, if_neg (by omega)]

/-! ### Streams -/

theorem lt_ceilDiv_iff {a w i : Nat} (hw : 0 < w) : i < ceilDiv a w ↔ i * w < a := by
  rw [ceilDiv, Nat.lt_div_iff_mul_lt hw]
  omega

/-- What an UNPACK that completed with `OK` found and did: `w` is not zero, each block that starts below `LEN` lies
inside `BCAP`, and its sample is the decoded word. -/
theorem unpack_ok_samples {k : Kind} {be : Bool} {st t : State} {w : Nat} (hwf : st.samples.wf)
    (hw : w = bytesPerSample st.bits.toNat) (h : exec (.unpack (.of k) be) st = .next t) (hok : t.status = some .ok) :
    0 < w ∧ ∀ i, i * w < st.len.toNat → i * w + w ≤ st.bcap.val ∧
      t.samples.get i = decodeSample k (readWord st.bytes (i * w) w be) st.bits.toNat := by
  subst hw
  rcases execUnpack_next h with ⟨e, he, rfl⟩ | ⟨_, ⟨⟩, hc, hbits, -, hb, hs, h⟩
  · exact absurd (Option.some.inj hok) he
  cases h
  have hpos := bytesPerSample_pos (bitsOk_toNat hbits).1
  obtain ⟨-, -, hget⟩ := unpackBlocks_spec k be st.bits.toNat st.bytes hwf (hs.trans hc.2)
  refine ⟨hpos, fun i hi => ?_⟩
  have hn := (lt_ceilDiv_iff hpos).2 hi
  refine ⟨?_, (hget i).trans (if_pos hn)⟩
  rw [← Nat.succ_mul]
  exact (Nat.mul_le_mul_right _ hn).trans hb

/-- What a PACK that completed with `OK` did: `w` is not zero, and each byte of its blocks is that byte of the
encoded sample. -/
theorem pack_ok_bytes {k : Kind} {be : Bool} {st t : State} {w : Nat} (hwf : st.bytes.wf)
    (hw : w = bytesPerSample st.bits.toNat) (h : exec (.pack (.of k) be) st = .next t) (hok : t.status = some .ok) :
    0 < w ∧ ∀ i, i < st.len.toNat * w →
      t.bytes.get i = wordByte (encodeSample k (st.samples.get (i / w)) st.bits.toNat) w be (i % w) := by
  subst hw
  rcases execPack_next h with ⟨e, he, rfl⟩ | ⟨_, ⟨⟩, hc, hbits, -, hb, -, h⟩
  · exact absurd (Option.some.inj hok) he
  cases h
  have hpos := bytesPerSample_pos (bitsOk_toNat hbits).1
  obtain ⟨-, -, hget⟩ := packBlocks_spec k be st.bits.toNat st.samples hwf hpos (hb.trans hc.1)
  exact ⟨hpos, fun i hi => (hget i).trans (if_pos hi)⟩

/-- Settles O60: a block of either part lies in the whole at the same place past the boundary, so both are decoded, or
encoded, from the same bytes or the same sample. -/
theorem streamsSplitAtBlockBoundaries : Obligations.StreamsSplitAtBlockBoundaries := by
  intro k be s x y s' x' y' w ⟨hsb, hss, _⟩ ⟨hxb, hxs, _⟩ ⟨hyb, hys, _⟩ hbx hby hw hoks hokx hoky
  have hwx : w = bytesPerSample x.bits.toNat := hbx ▸ hw
  have hwy : w = bytesPerSample y.bits.toNat := hby ▸ hw
  refine ⟨fun hs' hx' hy' j hlenx hlens hbytesx hbytesy => ?_, fun hs' hx' hy' hlens hsamplesx hsamplesy => ?_⟩
  · obtain ⟨hpos, hgets⟩ := unpack_ok_samples hss hw hs' hoks
    obtain ⟨-, hgetx⟩ := unpack_ok_samples hxs hwx hx' hokx
    obtain ⟨-, hgety⟩ := unpack_ok_samples hys hwy hy' hoky
    refine ⟨fun i hi => ?_, fun i hi => ?_⟩
    · have hblock : (i + 1) * w ≤ j * w := Nat.mul_le_mul_right w hi
      rw [Nat.succ_mul] at hblock
      have hword : readWord s.bytes (i * w) w be = readWord x.bytes (i * w) w be :=
        readWord_congr fun b hb => hbytesx _ (by omega)
      rw [(hgets i (by omega)).2, (hgetx i (by omega)).2, hbx, hword]
    · have hblock := (hgety i hi).1
      have hword : readWord s.bytes ((j + i) * w) w be = readWord y.bytes (i * w) w be := by
        rw [Nat.add_mul]
        exact readWord_congr fun b hb => by rw [Nat.add_assoc, hbytesy _ (by omega)]
      rw [(hgets (j + i) (by rw [Nat.add_mul]; omega)).2, (hgety i hi).2, hby, hword]
  · obtain ⟨hpos, hgets⟩ := pack_ok_bytes hsb hw hs' hoks
    obtain ⟨-, hgetx⟩ := pack_ok_bytes hxb hwx hx' hokx
    obtain ⟨-, hgety⟩ := pack_ok_bytes hyb hwy hy' hoky
    rw [hlens, Nat.add_mul] at hgets
    refine ⟨fun i hi => ?_, fun i hi => ?_⟩
    · rw [hgets i (by omega), hgetx i hi, hbx, hsamplesx _ ((Nat.div_lt_iff_lt_mul hpos).2 hi)]
    · rw [hgets _ (by omega), hgety i hi, hby, Nat.mul_comm x.len.toNat w, Nat.mul_add_div hpos, Nat.mul_add_mod,
        hsamplesy _ ((Nat.div_lt_iff_lt_mul hpos).2 hi)]

end Sys2Proof.Machine
end

section
/-! PROOFS. The command word (30_encoding.md): decoding and encoding undo each other (rules R60 to R65 and R73), the
reserved words (rules R65 and R69), and the check of `BITS` (rule R67). -/

namespace Sys2Proof

/-! ### The fields of an instruction -/

@[simp] theorem Enc.ofBits_toBits : (enc : Enc) → Enc.ofBits enc.toBits = enc
  | .of k => by cases k <;> rfl
  | .reserved5 => rfl
  | .reserved6 => rfl
  | .reserved7 => rfl

@[simp] theorem Enc.toBits_ofBits : ∀ b : BitVec 3, (Enc.ofBits b).toBits = b := by decide

/-- A field holds an encoding kind iff its code is 0 to 4 (rule R62). -/
theorem Enc.kind?_isSome_iff (enc : Enc) : enc.kind?.isSome = true ↔ enc.toBits.toNat < 5 := by
  cases enc with
  | of k => cases k <;> decide
  | _ => decide

/-- An operation is well-formed iff its `ENC` is 0 to 4 where its `OP` is one of the four that read it (rule R69). -/
theorem Instr.wellFormed_iff (i : Instr) :
    i.wellFormed = true ↔ (0x11 ≤ i.fields.1.toNat → i.fields.2.1.toBits.toNat < 5) := by
  cases i with
  | decode enc _ | encode enc _ | unpack enc _ | pack enc _ =>
    exact enc.kind?_isSome_iff.trans (by simp [Instr.fields])
  | _ => simp [Instr.wellFormed, Instr.readEnc, Instr.fields]

/-- The codes of the operations are 0x00 to 0x14 (rule R61). -/
theorem Instr.fields_op_lt (i : Instr) : i.fields.1.toNat < 0x15 := by
  cases i <;> simp [Instr.fields]

@[simp] theorem Instr.ofOp_fields (i : Instr) : Instr.ofOp i.fields.1.toNat i.fields.2.1 i.fields.2.2 = some i := by
  cases i <;> rfl

theorem Instr.fields_of_ofOp {op : Nat} {enc : Enc} {be : Bool} {i : Instr} (h : Instr.ofOp op enc be = some i) :
    i.fields.1.toNat = op ∧ i.fields.2 = (enc, be) := by
  unfold Instr.ofOp at h
  split at h <;> cases h <;> exact ⟨rfl, rfl⟩

theorem Instr.exists_ofOp {op : Nat} (h : op < 0x15) (enc : Enc) (be : Bool) : ∃ i, Instr.ofOp op enc be = some i := by
  interval_cases op <;> exact ⟨_, rfl⟩

theorem encode_fields (i : Instr) : Laws.EncodeFields.Statement i :=
  Laws.EncodeFields.fields_of_word i.fields.1 i.fields.2.1.toBits i.fields.2.2

/-! ### The fields of a command word, as numbers (rule R60) -/

section
variable (cmd : Word32)

theorem opField_toNat : (cmd.extractLsb' 0 5).toNat = cmd.toNat % 2 ^ 5 := by simp

theorem encField_toNat : (cmd.extractLsb' 5 3).toNat = cmd.toNat / 2 ^ 5 % 2 ^ 3 := by
  simp [Nat.shiftRight_eq_div_pow]

theorem beField_iff : cmd.getLsbD 8 = true ↔ cmd.toNat / 2 ^ 8 % 2 = 1 := by
  simp [BitVec.getLsbD, Nat.testBit_eq_decide_div_mod_eq]

theorem reservedField_eq_zero_iff : cmd.extractLsb' 9 23 = 0 ↔ cmd.toNat / 2 ^ 9 = 0 := by
  rw [← BitVec.toNat_inj, BitVec.extractLsb'_toNat, Nat.shiftRight_eq_div_pow, Nat.mod_eq_of_lt (by omega)]
  rfl

end

/-! ### Decoding and encoding -/

/-- What rule R65 asks of a word, in the order of its checks, for it to decode to `i`. -/
theorem decode_eq_legal_iff {cmd : Word32} {i : Instr} :
    decode cmd = .legal i ↔ cmd.extractLsb' 9 23 = 0 ∧
      Instr.ofOp (cmd.extractLsb' 0 5).toNat (Enc.ofBits (cmd.extractLsb' 5 3)) (cmd.getLsbD 8) = some i ∧
      i.wellFormed = true := by
  unfold decode
  split
  next hres => exact iff_of_false nofun fun ⟨h, _⟩ => hres h
  next hres =>
  rw [not_not] at hres
  split
  next hop =>
    rw [hop]
    exact iff_of_false nofun fun ⟨_, h, _⟩ => nomatch h
  next j hop =>
  rw [hop]
  split
  next hwf =>
    refine ⟨fun h => ?_, fun ⟨_, h, _⟩ => ?_⟩ <;> cases h
    · exact ⟨hres, rfl, hwf⟩
    · rfl
  next hwf => exact iff_of_false nofun fun ⟨_, hj, hi⟩ => hwf (Option.some.inj hj ▸ hi)

/-- The fields of a legal word are those of its instruction. -/
theorem fields_of_decode {cmd : Word32} {i : Instr} (h : decode cmd = .legal i) :
    cmd.toNat / 2 ^ 9 = 0 ∧ i.fields.1.toNat = cmd.toNat % 2 ^ 5 ∧
      i.fields.2.1.toBits.toNat = cmd.toNat / 2 ^ 5 % 2 ^ 3 ∧ (i.fields.2.2 = true ↔ cmd.toNat / 2 ^ 8 % 2 = 1) := by
  obtain ⟨hres, hi, -⟩ := decode_eq_legal_iff.1 h
  obtain ⟨hop, hfields⟩ := Instr.fields_of_ofOp hi
  rw [hop, hfields, Enc.toBits_ofBits]
  exact ⟨(reservedField_eq_zero_iff cmd).1 hres, opField_toNat cmd, encField_toNat cmd, beField_iff cmd⟩

/-- Two words that decode to one instruction are one word: each bit lies in a field or is zero. -/
theorem decode_legal_injective {cmd cmd' : Word32} {i : Instr} (h : decode cmd = .legal i)
    (h' : decode cmd' = .legal i) : cmd = cmd' := by
  obtain ⟨hres, hop, henc, hbe⟩ := fields_of_decode h
  obtain ⟨hres', hop', henc', hbe'⟩ := fields_of_decode h'
  have hbit := hbe.symm.trans hbe'
  apply BitVec.eq_of_toNat_eq
  omega

/-- Settles O1: the encoded word holds the fields of `i`, and these name `i`. -/
theorem decodeOfEncodeIsTheInstruction : Obligations.DecodeOfEncodeIsTheInstruction := by
  intro i hwf
  obtain ⟨hop, henc, hbe, hres⟩ := encode_fields i
  rw [decode_eq_legal_iff, hop, henc, hbe, Enc.ofBits_toBits]
  exact ⟨hres, i.ofOp_fields, hwf⟩

/-- Settles O2: the word and the encoding of `i` both decode to `i`. -/
theorem encodeOfDecodedWordIsTheWord : Obligations.EncodeOfDecodedWordIsTheWord := by
  intro cmd i h
  have hwf := Machine.decode_legal_wellFormed h
  exact ⟨decode_legal_injective (decodeOfEncodeIsTheInstruction i hwf) h, hwf⟩

/-! ### The reserved words -/

/-- The words that rule R65 rejects: bits 31 to 9 not zero, a reserved `OP`, or a reserved `ENC` that is read. -/
def ReservedWord (cmd : Word32) : Prop :=
  cmd.toNat / 2 ^ 9 ≠ 0 ∨ 0x15 ≤ cmd.toNat % 2 ^ 5 ∨ (0x11 ≤ cmd.toNat % 2 ^ 5 ∧ 5 ≤ cmd.toNat / 2 ^ 5 % 2 ^ 3)

/-- The fields of an instruction are no reserved ones. -/
theorem not_reservedWord_of_legal {cmd : Word32} {i : Instr} (h : decode cmd = .legal i) : ¬ ReservedWord cmd := by
  obtain ⟨hres, hop, henc, -⟩ := fields_of_decode h
  have hlt := i.fields_op_lt
  have hwf := i.wellFormed_iff.1 (Machine.decode_legal_wellFormed h)
  unfold ReservedWord
  omega

theorem exists_illegal_of_reservedWord {cmd : Word32} (h : ReservedWord cmd) : ∃ why, decode cmd = .illegal why := by
  cases hd : decode cmd with
  | legal i => exact absurd h (not_reservedWord_of_legal hd)
  | illegal why => exact ⟨why, rfl⟩

theorem exists_legal_of_not_reservedWord {cmd : Word32} (h : ¬ ReservedWord cmd) : ∃ i, decode cmd = .legal i := by
  unfold ReservedWord at h
  obtain ⟨i, hi⟩ := Instr.exists_ofOp (op := (cmd.extractLsb' 0 5).toNat) (by rw [opField_toNat]; omega)
    (Enc.ofBits (cmd.extractLsb' 5 3)) (cmd.getLsbD 8)
  refine ⟨i, decode_eq_legal_iff.2 ⟨(reservedField_eq_zero_iff cmd).2 (by omega), hi, i.wellFormed_iff.2 fun hop => ?_⟩⟩
  obtain ⟨hopi, hfields⟩ := Instr.fields_of_ofOp hi
  rw [hopi, opField_toNat] at hop
  rw [hfields, Enc.toBits_ofBits, encField_toNat]
  omega

end Sys2Proof

namespace Sys2Proof.Machine

open Sys2Proof

/-- A request with an illegal word raises `IllegalCommand` (rule R69). -/
theorem step_of_illegal {st : State} {rest : List HostAction} {why : IllegalWord}
    (hd : Sys2Proof.decode st.cmd = .illegal why) (hp : st.pending = .request :: rest) :
    step st = raise .illegalCommand { st with pending := rest } := by
  rw [step_of_pending hp, runAction]
  simp only [runRequest, hd]

/-- Settles O3: a word is legal iff it is not reserved, and its fields are those of its instruction. -/
theorem decodeIsTotalAndRejectsExactlyTheReservedWords :
    Obligations.DecodeIsTotalAndRejectsExactlyTheReservedWords := by
  refine fun cmd => ⟨fun h => ?_, fun h => ?_⟩
  · obtain ⟨why, hd⟩ := exists_illegal_of_reservedWord h
    exact ⟨⟨why, hd⟩, fun st rest hcmd hp => step_of_illegal (hcmd ▸ hd) hp⟩
  · obtain ⟨i, hd⟩ := exists_legal_of_not_reservedWord h
    exact ⟨i, hd, (fields_of_decode hd).2⟩

/-! ### The check of `BITS` -/

/-- A well-formed `ENC` leads to the format check, which looks at `BITS` before the width of the kind. -/
theorem withKind_withFormat_bad {enc : Enc} {dir : Direction} {st : State} (hk : enc.kind?.isSome = true)
    (h : ¬ st.bitsOk) (use : Kind → Nat → Result) :
    withKind enc st (fun k => withFormat k dir st (use k)) = raise .invalidFormat st := by
  cases enc with
  | of k => exact withFormat_bad h _
  | _ => cases hk

/-- Settles O19: true capacities let UNPACK and PACK reach the check, a well-formed `ENC` the four dispatching
operations, and every other operation begins with it. -/
theorem bitsOutOfRangeGivesInvalidFormat : Obligations.BitsOutOfRangeGivesInvalidFormat := by
  intro i st hwf hreads hcap hbits
  cases i with
  | rdword | wrword | ulawDec | ulawEnc | alawDec | alawEnc => cases hreads
  | fltDec enc be => exact exec_fltDec_bad enc be hbits
  | fltEnc enc be => exact exec_fltEnc_bad enc be hbits
  | decode enc be => exact withKind_withFormat_bad hwf hbits _
  | encode enc be => exact withKind_withFormat_bad hwf hbits _
  | unpack enc be =>
    simp only [exec, execUnpack, withBytes_ok hcap.1, withSamples_ok hcap.2]
    exact withKind_withFormat_bad hwf hbits _
  | pack enc be =>
    simp only [exec, execPack, withBytes_ok hcap.1, withSamples_ok hcap.2]
    exact withKind_withFormat_bad hwf hbits _
  | _ =>
    simp only [exec, execBps, execFscale, execSext, execToob, execFromob, execPcmsDec, execPcmuDec, execPcmsEnc,
      execPcmuEnc, withBits_bad hbits, raise]

/-! ### The words the spec writes out -/

/-- Settles O4: each word and each line is closed, and the decoder and the assembler run on it. -/
theorem commandWordsOfTheSpecDecode : Obligations.CommandWordsOfTheSpecDecode := by
  unfold Obligations.CommandWordsOfTheSpecDecode
  decide

end Sys2Proof.Machine
end

section
/-! The format descriptor (40_format_descriptor.md, rules R80 to R82): bytes per sample as the least number of bytes,
and the pattern of full scale. -/

namespace Sys2Proof.Machine

open Sys2Proof

/-! ### Bytes per sample -/

/-- The bound that makes `ceilDiv` the least of the `q` with `q * w >= a` (rule R8). -/
theorem ceilDiv_le_iff {a w p : Nat} (hw : 0 < w) : ceilDiv a w ≤ p ↔ a ≤ p * w := by
  rw [← Nat.not_lt, lt_ceilDiv_iff hw, Nat.not_lt]

theorem bytesPerSample_le_iff {bits p : Nat} : bytesPerSample bits ≤ p ↔ bits ≤ p * 8 :=
  ceilDiv_le_iff (by decide)

/-- Settles O24: `bytesPerSample_le_iff` at the quotient itself says that it is enough, at `8` that it is at most 8,
and at any `p` that it is the least. -/
theorem bpsGivesTheLeastNumberOfBytes : Obligations.BpsGivesTheLeastNumberOfBytes := by
  intro enc be st hok
  obtain ⟨hlow, hhigh⟩ := bitsOk_toNat hok
  exact ⟨bytesPerSample st.bits.toNat, exec_bps_ok enc be hok, bytesPerSample_pos hlow,
    bytesPerSample_le_iff.2 hhigh, bytesPerSample_le_iff.1 le_rfl, fun _ => bytesPerSample_le_iff.2⟩

/-! ### Full scale -/

/-- The shift of rule R80 loses no bit of the exponent field. -/
theorem fullScale_toNat {bits : Nat} (h : bits ≤ 64) : (fullScale bits).toNat = (1022 + bits) * 2 ^ 52 := by
  rw [fullScale_eq h, pack64_toNat (by omega)]
  simp

/-- Settles O25: the sign is clear and the exponent field is `1022 + BITS`, below that of an infinity. -/
theorem fscaleGivesTheExactPower : Obligations.FscaleGivesTheExactPower := by
  intro enc be st hok
  obtain ⟨hlow, hhigh⟩ := bitsOk_toNat hok
  exact ⟨fullScale st.bits.toNat, exec_fscale_ok enc be hok, finite64_fullScale hhigh,
    units64_fullScale hlow hhigh, fullScale_toNat hhigh⟩

end Sys2Proof.Machine
end

section
/-! PROOFS. The word codec (41_word_codec.md rule R93): reading and writing a word undo each other, and the two byte
orders mirror each other. -/

namespace Sys2Proof.Machine

open Sys2Proof

/-! ### Bits of a word -/

/-- Bit `q` of a byte of a word is the bit of the word that its byte order puts there (rules R44 and R92). -/
theorem wordByte_getLsbD (value : Word64) (W : Nat) (be : Bool) (b : Nat) {q : Nat} (hq : q < 8) :
    (wordByte value W be b).getLsbD q = value.getLsbD (8 * bytePosition W be b + q) := by
  rw [wordByte, BitVec.getLsbD_setWidth, BitVec.getLsbD_ushiftRight, byteShift_eq, decide_eq_true hq, Bool.true_and]

/-- The mask of rule R93 keeps the bits below `8 * W` and no others. -/
theorem and_lowMask_getLsbD (value : Word64) (W n : Nat) :
    (value &&& BitVec.ofNat 64 (2 ^ (8 * W) - 1)).getLsbD n = (decide (n < 8 * W) && value.getLsbD n) := by
  rw [BitVec.getLsbD_and, BitVec.getLsbD_ofNat, Nat.testBit_two_pow_sub_one]
  by_cases hn : n < 64
  · rw [decide_eq_true hn, Bool.true_and, Bool.and_comm]
  · rw [BitVec.getLsbD_of_ge _ _ (Nat.le_of_not_lt hn), Bool.false_and, Bool.and_false]

/-! ### Reading and writing a word -/

/-- A word whose bytes are those of a value is the low `8 * W` bits of that value. -/
theorem readWord_eq_of_wordByte {buf : Buffer 8} {off W : Nat} {be : Bool} {value : Word64} (hW : W ≤ 8)
    (h : ∀ b, b < W → buf.get (off + b) = wordByte value W be b) :
    readWord buf off W be = value &&& BitVec.ofNat 64 (2 ^ (8 * W) - 1) := by
  refine BitVec.eq_of_getLsbD_eq fun n _ => ?_
  rw [readWord_getLsbD _ _ _ _ hW, and_lowMask_getLsbD]
  by_cases hn : n < 8 * W
  · have hbyte : n / 8 < W := by omega
    rw [h _ (bytePosition_lt be hbyte), wordByte_getLsbD _ _ _ _ (Nat.mod_lt _ (by decide)),
      bytePosition_bytePosition be hbyte, Nat.div_add_mod]
  · rw [decide_eq_false hn, Bool.false_and, Bool.false_and]

/-- Rule R93: a word read after it is written is its low `8 * W` bits. -/
theorem readWord_writeWord {buf : Buffer 8} (hwf : buf.wf) {off W : Nat} (be : Bool) (value : Word64) (hW : W ≤ 8)
    (hin : off + W ≤ buf.size) :
    readWord (writeWord buf off value W be) off W be = value &&& BitVec.ofNat 64 (2 ^ (8 * W) - 1) := by
  obtain ⟨-, -, hget⟩ := writeWord_spec hwf off value W be hin
  refine readWord_eq_of_wordByte hW fun b hb => ?_
  rw [hget, if_pos (by omega), Nat.add_sub_cancel_left]

/-- Rule R93: writing back the word just read changes nothing. -/
theorem writeWord_readWord {buf : Buffer 8} (hwf : buf.wf) {off W : Nat} (be : Bool) (hW : W ≤ 8)
    (hin : off + W ≤ buf.size) : writeWord buf off (readWord buf off W be) W be = buf := by
  obtain ⟨hwf', hsize, hget⟩ := writeWord_spec hwf off (readWord buf off W be) W be hin
  refine Buffer.ext_get hwf' hwf hsize fun i => ?_
  rw [hget]
  split
  next hi => rw [wordByte_readWord _ _ be hW (by omega), Nat.add_sub_cancel' hi.1]
  next => rfl

/-- Rule R93: the big-endian word of some bytes is the little-endian word of those bytes reversed. -/
theorem readWord_bigEndian_eq_reversed {buf rev : Buffer 8} {off W : Nat} (hW : W ≤ 8)
    (hrev : ∀ b, b < W → rev.get (off + b) = buf.get (off + (W - 1 - b))) :
    readWord buf off W true = readWord rev off W false := by
  refine BitVec.eq_of_getLsbD_eq fun n _ => ?_
  rw [readWord_getLsbD _ _ _ _ hW, readWord_getLsbD _ _ _ _ hW]
  by_cases hn : n < 8 * W
  · have hbyte : rev.get (off + bytePosition W false (n / 8)) = buf.get (off + bytePosition W true (n / 8)) :=
      hrev (n / 8) (by omega)
    rw [hbyte]
  · rw [decide_eq_false hn, Bool.false_and, Bool.false_and]

/-- Settles O28: its three clauses are the three laws of rule R93 above. -/
theorem wordReadAndWriteAreInverse : Obligations.WordReadAndWriteAreInverse := by
  intro buf off W be v hwf _ h8 hin
  exact ⟨readWord_writeWord hwf be v h8 hin, writeWord_readWord hwf be h8 hin,
    fun _ => readWord_bigEndian_eq_reversed h8⟩

end Sys2Proof.Machine
end

section
/-! PROOFS. The sign extender (42_sign_extender.md, rules R101 to R105): SEXT, TOOB and FROMOB. -/

namespace Sys2Proof.Machine

open Sys2Proof

/-! ### Sign extension -/

/-- Settles O29: the request answers `signExtendWord`, and that word is the bit test. -/
theorem sextIsTheBitTest : Obligations.SextIsTheBitTest := by
  intro enc be st hok
  obtain ⟨hlow, hhigh⟩ := bitsOk_toNat hok
  exact ⟨signExtendWord st.a st.bits.toNat, exec_sext_ok enc be hok, signExtendWord_toInt st.a hlow hhigh⟩

/-! ### To offset binary -/

/-- Rule R102: the sum is modulo `2 ^ 64`. -/
theorem toOffsetBinary_toNat (signed : Word64) (bits : Nat) :
    (toOffsetBinary signed bits).toNat = (signed.toNat + 2 ^ (bits - 1)) % 2 ^ 64 := by
  rw [toOffsetBinary, one_shiftLeft, BitVec.toNat_add, BitVec.toNat_ofNat, Nat.add_mod_mod]

/-- Rule R103: an in-range value has its sum in `0 .. 2 ^ bits - 1`, so nothing is reduced. -/
theorem toOffsetBinary_toNat_of_inRange {signed : Word64} {bits : Nat} (h1 : 1 ≤ bits) (h2 : bits ≤ 64)
    (hlow : -(2 ^ (bits - 1)) ≤ signed.toInt) (hhigh : signed.toInt < 2 ^ (bits - 1)) :
    ((toOffsetBinary signed bits).toNat : Int) = signed.toInt + 2 ^ (bits - 1) ∧
      (toOffsetBinary signed bits).toNat < 2 ^ bits := by
  have hdouble : (2 : Int) ^ bits = 2 * 2 ^ (bits - 1) := by exact_mod_cast two_pow_pred h1
  have hword : (2 : Int) ^ bits ≤ 2 ^ 64 := pow_le_pow_right₀ (by decide) h2
  have hsum : ((toOffsetBinary signed bits).toNat : Int) = signed.toInt + 2 ^ (bits - 1) := by
    conv_lhs => rw [← BitVec.ofInt_toInt (x := signed), toOffsetBinary_ofInt, BitVec.toNat_ofInt]
    rw [Int.toNat_of_nonneg (Int.emod_nonneg _ (by decide)), Int.emod_eq_of_lt (by omega) (by push_cast; omega)]
  refine ⟨hsum, ?_⟩
  zify
  omega

/-- Settles O30: the sum modulo `2 ^ 64`, and the exact sum where the value is in range. -/
theorem toobAddsFullScale : Obligations.ToobAddsFullScale := by
  intro enc be st hok
  obtain ⟨hlow, hhigh⟩ := bitsOk_toNat hok
  exact ⟨toOffsetBinary st.a st.bits.toNat, exec_toob_ok enc be hok, toOffsetBinary_toNat st.a st.bits.toNat,
    toOffsetBinary_toNat_of_inRange hlow hhigh⟩

/-! ### From offset binary -/

/-- Settles O31: the request answers `fromOffsetBinary`, whose signed value is the reduced difference. -/
theorem fromobSubtractsFullScale : Obligations.FromobSubtractsFullScale := by
  intro enc be st hok
  obtain ⟨hlow, hhigh⟩ := bitsOk_toNat hok
  exact ⟨fromOffsetBinary st.a st.bits.toNat, exec_fromob_ok enc be hok, fromOffsetBinary_toInt st.a hlow hhigh⟩

/-! ### The two conversions undo each other -/

@[simp] theorem fromOffsetBinary_toOffsetBinary (v : Word64) (bits : Nat) :
    fromOffsetBinary (toOffsetBinary v bits) bits = v :=
  BitVec.add_sub_cancel v _

@[simp] theorem toOffsetBinary_fromOffsetBinary (v : Word64) (bits : Nat) :
    toOffsetBinary (fromOffsetBinary v bits) bits = v :=
  BitVec.sub_add_cancel v _

/-- Settles O32: the two laws above; writing the first result to `A` leaves `BITS` in range for the second request. -/
theorem offsetBinaryConversionsAreInverse : Obligations.OffsetBinaryConversionsAreInverse := by
  refine ⟨fun v bits _ _ => ⟨fromOffsetBinary_toOffsetBinary v bits, toOffsetBinary_fromOffsetBinary v bits⟩,
    fun enc be st hok => ?_⟩
  have hok' (v : Word64) : ({ st with a := v } : State).bitsOk := hok
  constructor
  · refine ⟨toOffsetBinary st.a st.bits.toNat, exec_toob_ok enc be hok, ?_⟩
    rw [exec_fromob_ok enc be (hok' _), fromOffsetBinary_toOffsetBinary]
  · refine ⟨fromOffsetBinary st.a st.bits.toNat, exec_fromob_ok enc be hok, ?_⟩
    rw [exec_toob_ok enc be (hok' _), toOffsetBinary_fromOffsetBinary]

end Sys2Proof.Machine
end

section
/-! PROOFS. The linear decoders and the laws between decoding and encoding (43_linear_pcm_float_mapper.md, rules R110 to
R112, R115, R117 and R118). Both kinds meet in `pcmSample` and `pcmSignedEncode`, so each law is proved once about these
two; sign extension and offset binary carry it to the kinds. -/

namespace Sys2Proof.Machine

open Sys2Proof

/-! ### Decoding -/

/-- Settles O33: the integer of either kind is the one its decoder hands to `pcmSample`. -/
theorem pcmDecodeDividesByFullScale : Obligations.PcmDecodeDividesByFullScale := by
  intro i enc be k st hok hkind
  obtain ⟨hlow, hhigh⟩ := bitsOk_toNat hok
  obtain ⟨w, hexec, rfl⟩ : ∃ w : Word64,
      exec i st = .next (st.finish .ok none (some (pcmSample w st.bits.toNat)) none) ∧ w.toInt = k := by
    rcases hkind with ⟨rfl, rfl⟩ | ⟨rfl, rfl⟩
    · exact ⟨_, exec_pcmsDec_ok enc be hok, signExtendWord_toInt st.a hlow hhigh⟩
    · exact ⟨_, exec_pcmuDec_ok enc be hok, fromOffsetBinary_toInt st.a hlow hhigh⟩
  obtain ⟨hqfin, hq, hfin, -, hzero, hexact⟩ := pcmSample_spec (k := w) hlow hhigh
  exact ⟨_, _, hexec, hqfin, hq, rfl, hfin, hzero, hexact⟩

/-- Settles O34: rounded to binary64 the integer loses its last bit, so the narrowing meets a tie that one rounding of
the integer itself does not. -/
theorem wideDecodeRoundsTwice : Obligations.WideDecodeRoundsTwice := by
  intro enc be st hbits ha
  have hn : st.bits.toNat = 64 := by rw [hbits]; rfl
  have hdec : pcmSignedDecode 0x4000004000000001#64 64 = 0x3F000000#32 := by decide
  rw [exec_pcmsDec_ok enc be (bitsOk_of_toNat (by omega) (by omega)), hn, ha, hdec]
  exact ⟨rfl, by decide⟩

/-- Settles O36: `+1.0` gives the integer `2 ^ 15`, whose 16 bits are those of `-(2 ^ 15)`. -/
theorem plusOneReturnsAsMinusOne : Obligations.PlusOneReturnsAsMinusOne := by
  intro enc be st hbits
  have hn : st.bits.toNat = 16 := by rw [hbits]; rfl
  have hok : st.bitsOk := bitsOk_of_toNat (by omega) (by omega)
  have henc : pcmSignedEncode 0x3F800000#32 16 = 0x8000 := by decide
  have hdec : pcmSignedDecode 0x8000 16 = 0xBF800000#32 := by decide
  exact ⟨fun hs => by rw [exec_pcmsEnc_ok enc be hok, hn, hs, henc],
    fun ha => by rw [exec_pcmsDec_ok enc be hok, hn, ha, hdec]⟩

/-! ### Encoding -/

/-- The integer of an encode reads back from its word (rules R113 and R114). -/
theorem pcmSignedEncode_toInt (s : F32) {bits : Nat} (h1 : 1 ≤ bits) (h2 : bits ≤ 64) :
    (pcmSignedEncode s bits).toInt = encodedInteger s bits := by
  rw [pcmSignedEncode, truncI64_toInt, truncI64_mul_fullScale s h1 h2]

/-- The two encoders write one integer, the unsigned one in offset binary (rule R116). -/
theorem pcmUnsignedEncode_eq (s : F32) (bits : Nat) :
    pcmUnsignedEncode s bits = toOffsetBinary (pcmSignedEncode s bits) bits := rfl

/-- A product in the range of the word does not saturate. -/
theorem encodedInteger_of_finite {s : F32} {bits : Nat} {k : Int} (hs : Finite32 s)
    (hk : (units32 s * 2 ^ (bits - 1)).tdiv (2 ^ 149) = k) (hlow : -(2 ^ 63) ≤ k) (hhigh : k < 2 ^ 63) :
    encodedInteger s bits = k := by
  obtain ⟨hN, hI⟩ := hs
  rw [encodedInteger, if_neg (by simp [hN]), if_neg (by simp [hI]), hk]
  omega

/-! ### A word restored (rule R117) -/

/-- The encode of a decoded sample is the decoder's integer again, where binary32 can hold it. -/
theorem pcmSignedEncode_pcmSample {k : Word64} {bits : Nat} (h1 : 1 ≤ bits) (h2 : bits ≤ 64)
    (hk : Representable32 k.toInt) : pcmSignedEncode (pcmSample k bits) bits = k := by
  obtain ⟨-, -, hfin, -, -, hexact⟩ := pcmSample_spec (k := k) h1 h2
  apply BitVec.eq_of_toInt_eq
  rw [pcmSignedEncode_toInt _ h1 h2]
  refine encodedInteger_of_finite hfin ?_ (BitVec.le_toInt k) BitVec.toInt_lt
  rw [hexact hk, Int.mul_tdiv_cancel _ (by positivity)]

/-- The bits of a sign-extended word: its own below `bits`, the sign bit from there on (rule R101). -/
theorem signExtendWord_getLsbD (raw : Word64) {bits n : Nat} (h1 : 1 ≤ bits) (h2 : bits ≤ 64) (hn : n < 64) :
    (signExtendWord raw bits).getLsbD n = raw.getLsbD (if n < bits then n else bits - 1) := by
  rw [signExtendWord, BitVec.getLsbD_sshiftRight, BitVec.msb_eq_getLsbD_last, BitVec.getLsbD_shiftLeft,
    BitVec.getLsbD_shiftLeft]
  split
  next h =>
    have e : 64 - bits + n - (64 - bits) = n := by omega
    rw [if_pos (by omega), e]
    simp [hn, show 64 - bits + n < 64 by omega]
  next h =>
    have e : 64 - 1 - (64 - bits) = bits - 1 := by omega
    rw [if_neg (by omega), e]
    simp [hn, show ¬ 64 - 1 < 64 - bits by omega]

/-- A sign-extended word has the low `m` bits of its raw word exactly where the pad bits repeat the sign bit. -/
theorem signExtendWord_lowBits_iff (raw : Word64) {bits m : Nat} (h1 : 1 ≤ bits) (h2 : bits ≤ 64) (hm : m ≤ 64) :
    (∀ n, n < m → (signExtendWord raw bits).getLsbD n = raw.getLsbD n) ↔
      ∀ n, bits ≤ n → n < m → raw.getLsbD n = raw.getLsbD (bits - 1) := by
  constructor
  · intro h n hpad hn
    rw [← h n hn, signExtendWord_getLsbD raw h1 h2 (by omega), if_neg (by omega)]
  · intro h n hn
    rw [signExtendWord_getLsbD raw h1 h2 (by omega)]
    split
    next => rfl
    next hpad => rw [h n (by omega) hn]

/-- Settles O37: both kinds return the decoder's integer by `pcmSignedEncode_pcmSample`; offset binary undoes itself,
and sign extension is the identity on the block exactly where the pad bits repeat the sign. -/
theorem pcmRoundTripRestoresRepresentableWords : Obligations.PcmRoundTripRestoresRepresentableWords := by
  intro enc be st hok
  obtain ⟨hlow, hhigh⟩ := bitsOk_toNat hok
  have hok' (v : F32) : ({ st with s := v } : State).bitsOk := hok
  constructor
  · intro hrep
    rw [← signExtendWord_toInt st.a hlow hhigh] at hrep ⊢
    refine ⟨_, signExtendWord st.a st.bits.toNat, exec_pcmsDec_ok enc be hok, ?_, rfl,
      signExtendWord_lowBits_iff st.a hlow hhigh (by omega)⟩
    rw [exec_pcmsEnc_ok enc be (hok' _), pcmSignedDecode, pcmSignedEncode_pcmSample hlow hhigh hrep]
  · intro hrep
    rw [← fromOffsetBinary_toInt st.a hlow hhigh] at hrep
    refine ⟨_, exec_pcmuDec_ok enc be hok, ?_⟩
    rw [exec_pcmuEnc_ok enc be (hok' _), pcmUnsignedEncode_eq, pcmUnsignedDecode,
      pcmSignedEncode_pcmSample hlow hhigh hrep, toOffsetBinary_fromOffsetBinary]

/-! ### The quantization error (rule R118) -/

/-- Sign extension keeps an integer of `bits` bits: its left shift does not overflow. -/
theorem signExtendWord_of_inRange {v : Word64} {bits : Nat} (h1 : 1 ≤ bits) (h2 : bits ≤ 64)
    (hlow : -(2 ^ (bits - 1)) ≤ v.toInt) (hhigh : v.toInt < 2 ^ (bits - 1)) : signExtendWord v bits = v := by
  have hpos : (0 : Int) < 2 ^ (64 - bits) := by positivity
  have hsplit : (2 : Int) ^ (bits - 1) * 2 ^ (64 - bits) = 2 ^ 63 := by
    rw [← pow_add]
    congr 1
    omega
  have hshift : (v <<< (64 - bits)).toInt = v.toInt * 2 ^ (64 - bits) := by
    rw [BitVec.toInt_shiftLeft, Nat.shiftLeft_eq, Nat.cast_mul, ← Int.bmod_mul_bmod, ← BitVec.toInt_eq_toNat_bmod,
      Nat.cast_pow]
    exact Int.bmod_eq_of_le (by push_cast; nlinarith) (by push_cast; nlinarith)
  apply BitVec.eq_of_toInt_eq
  rw [signExtendWord, BitVec.toInt_sshiftRight, hshift, Int.shiftRight_eq_div_pow, Nat.cast_pow]
  exact Int.mul_ediv_cancel _ hpos.ne'

/-- Truncation rounds the magnitude down. -/
theorem abs_tdiv_of_pos (a : Int) {q : Int} (hq : 0 < q) : |a.tdiv q| = |a| / q := by
  rcases le_total 0 a with h | h
  · rw [abs_of_nonneg h, abs_of_nonneg (Int.tdiv_nonneg h hq.le), Int.tdiv_eq_ediv_of_nonneg h]
  · have hneg : a.tdiv q = -((-a) / q) := by
      rw [← Int.tdiv_eq_ediv_of_nonneg (by omega), Int.neg_tdiv, neg_neg]
    rw [abs_of_nonpos h, hneg, abs_neg, abs_of_nonneg (Int.ediv_nonneg (by omega) hq.le)]

/-- Truncation moves no value across zero. -/
theorem tdiv_neg_iff {a q : Int} (hq : 0 < q) (h0 : a.tdiv q ≠ 0) : a.tdiv q < 0 ↔ a < 0 := by
  rcases le_or_gt 0 a with h | h
  · have := Int.tdiv_nonneg h hq.le
    omega
  · have := Int.tdiv_le_tdiv hq h.le
    rw [Int.zero_tdiv] at this
    omega

section Quantization

/- A value `u` in units of `1 / q`, scaled by `p` and truncated: `p` is full scale, `q` the units in `1.0`. -/
variable {u p q : Int} (hp : 0 < p) (hq : 0 < q)
include hp hq

/-- A value in `[-1.0, 1.0)` gives an integer from `-p` to `p - 1`. -/
theorem scaled_tdiv_inRange (hlow : -q ≤ u) (hhigh : u < q) : -p ≤ (u * p).tdiv q ∧ (u * p).tdiv q < p := by
  constructor
  · exact Int.le_tdiv_of_mul_le hq (by nlinarith)
  · rcases le_total 0 u with h | h
    · rw [Int.tdiv_eq_ediv_of_nonneg (by positivity)]
      exact Int.ediv_lt_of_lt_mul hq (by nlinarith)
    · have := Int.tdiv_le_tdiv hq (show u * p ≤ 0 by nlinarith)
      rw [Int.zero_tdiv] at this
      omega

/-- The value `w` of that integer is nearer to zero by less than one step `1 / p`. -/
theorem abs_sub_abs_of_scaled_tdiv {w : Int} (hw : w * p = (u * p).tdiv q * q) :
    0 ≤ |u| - |w| ∧ (|u| - |w|) * p < q := by
  have habs : |w| * p = |u| * p / q * q := by
    rw [← abs_of_pos hp, ← abs_mul, hw, abs_mul, abs_tdiv_of_pos _ hq, abs_mul, abs_of_pos hq, abs_of_pos hp]
  have hle := Int.ediv_mul_le (|u| * p) hq.ne'
  have hlt := Int.lt_ediv_add_one_mul_self (|u| * p) hq
  rw [← habs] at hle
  rw [add_mul, ← habs] at hlt
  exact ⟨sub_nonneg.2 (le_of_mul_le_mul_right hle hp), by rw [sub_mul]; omega⟩

end Quantization

theorem sign32_eq_of_ne_zero {s : F32} (h : units32 s ≠ 0) : sign32 s = decide (units32 s < 0) := by
  have hs := units32_sign s
  cases hsign : sign32 s with
  | true =>
    rw [hsign, if_pos rfl] at hs
    exact (decide_eq_true (by omega)).symm
  | false =>
    rw [hsign, if_neg (by decide)] at hs
    exact (decide_eq_false (by omega)).symm

section Sample

variable {s : F32} {bits : Nat} (h1 : 1 ≤ bits) (hs : Finite32 s) (hlow : -(2 ^ 149) ≤ units32 s)
  (hhigh : units32 s < 2 ^ 149)
include h1 hs hlow hhigh

/-- A sample in `[-1.0, 1.0)` encodes to an integer of `bits` bits, unsaturated. -/
theorem pcmSignedEncode_inRange (h2 : bits ≤ 64) :
    (pcmSignedEncode s bits).toInt = (units32 s * 2 ^ (bits - 1)).tdiv (2 ^ 149) ∧
      -(2 ^ (bits - 1)) ≤ (pcmSignedEncode s bits).toInt ∧ (pcmSignedEncode s bits).toInt < 2 ^ (bits - 1) := by
  obtain ⟨hklow, hkhigh⟩ := scaled_tdiv_inRange (p := 2 ^ (bits - 1)) (by positivity) (by positivity) hlow hhigh
  have hword : (2 : Int) ^ (bits - 1) ≤ 2 ^ 63 := pow_le_pow_right₀ (by decide) (by omega)
  have hk : (pcmSignedEncode s bits).toInt = (units32 s * 2 ^ (bits - 1)).tdiv (2 ^ 149) := by
    rw [pcmSignedEncode_toInt s h1 h2]
    exact encodedInteger_of_finite hs rfl (by omega) (by omega)
  exact ⟨hk, hk ▸ hklow, hk ▸ hkhigh⟩

/-- Rule R118: an integer of at most 25 bits has a magnitude of at most `2 ^ 24`, which binary32 holds, so the sample of
the encoded integer is exact and the truncation makes the whole error. -/
theorem pcmSample_pcmSignedEncode (h25 : bits ≤ 25) :
    Finite32 (pcmSample (pcmSignedEncode s bits) bits) ∧
      0 ≤ |units32 s| - |units32 (pcmSample (pcmSignedEncode s bits) bits)| ∧
      (|units32 s| - |units32 (pcmSample (pcmSignedEncode s bits) bits)|) * 2 ^ (bits - 1) < 2 ^ 149 ∧
      (sign32 (pcmSample (pcmSignedEncode s bits) bits) = sign32 s ∨ pcmSample (pcmSignedEncode s bits) bits = 0) := by
  obtain ⟨hk, hklow, hkhigh⟩ := pcmSignedEncode_inRange h1 hs hlow hhigh (by omega)
  obtain ⟨-, -, hfin, hsign, hzero, hexact⟩ := pcmSample_spec (k := pcmSignedEncode s bits) h1 (by omega)
  generalize pcmSample (pcmSignedEncode s bits) bits = v at *
  generalize (pcmSignedEncode s bits).toInt = k at *
  have hsmall : (2 : Int) ^ (bits - 1) ≤ 2 ^ 24 := pow_le_pow_right₀ (by decide) (by omega)
  have hvalue := hexact ⟨k.natAbs, 0, by omega, by simp⟩
  rw [hk] at hvalue
  obtain ⟨hnonneg, hlsb⟩ := abs_sub_abs_of_scaled_tdiv (by positivity) (by positivity) hvalue
  refine ⟨hfin, hnonneg, hlsb, ?_⟩
  by_cases h0 : k = 0
  · exact .inr (hzero h0)
  · left
    rw [hk] at h0 hsign
    have hu : units32 s ≠ 0 := fun h => h0 (by rw [h, zero_mul, Int.zero_tdiv])
    have hneg : units32 s * 2 ^ (bits - 1) < 0 * 2 ^ (bits - 1) ↔ units32 s < 0 :=
      mul_lt_mul_iff_left₀ (by positivity)
    rw [zero_mul] at hneg
    rw [hsign, sign32_eq_of_ne_zero hu, decide_eq_decide, tdiv_neg_iff (by positivity) h0, hneg]

end Sample

/-- Settles O38: each kind decodes its own encode to the sample of `pcmSignedEncode`: sign extension keeps an integer in
range, and offset binary undoes itself. -/
theorem pcmQuantizationErrorIsBelowOneLsb : Obligations.PcmQuantizationErrorIsBelowOneLsb := by
  intro e d enc be st hok h25 hkind hs hlow hhigh
  obtain ⟨h1, h2⟩ := bitsOk_toNat hok
  obtain ⟨-, hklow, hkhigh⟩ := pcmSignedEncode_inRange h1 hs hlow hhigh h2
  have hok' (r : Word64) : ({ st with a := r } : State).bitsOk := hok
  obtain ⟨r, henc, hdec⟩ : ∃ r : Word64, exec e st = .next (st.finish .ok (some r) none none) ∧
      exec d { st with a := r } = .next ({ st with a := r }.finish .ok none
        (some (pcmSample (pcmSignedEncode st.s st.bits.toNat) st.bits.toNat)) none) := by
    rcases hkind with ⟨rfl, rfl⟩ | ⟨rfl, rfl⟩
    · refine ⟨_, exec_pcmsEnc_ok enc be hok, ?_⟩
      rw [exec_pcmsDec_ok enc be (hok' _), pcmSignedDecode, signExtendWord_of_inRange h1 h2 hklow hkhigh]
    · refine ⟨_, exec_pcmuEnc_ok enc be hok, ?_⟩
      rw [exec_pcmuDec_ok enc be (hok' _), pcmUnsignedDecode, pcmUnsignedEncode_eq, fromOffsetBinary_toOffsetBinary]
  exact ⟨r, _, henc, hdec, pcmSample_pcmSignedEncode h1 hs hlow hhigh h25⟩

end Sys2Proof.Machine
end

section
/-! PROOFS. The width errors of the dispatching operations (47_companding_codec_combined.md rules R180 and R183), and the
round trips of the float formats (44_ieee_float_reinterpreter.md rule R133). -/

namespace Sys2Proof.Machine

open Sys2Proof

/-! ### Width errors -/

/-- At a width that is not 8 a companded kind has its width error in both directions (rule R180). -/
theorem kindError_companded_other {k : Kind} (hk : k = .muLaw ∨ k = .aLaw) {bits : Nat} (h : bits ≠ 8)
    (dir : Direction) (legacy : Bool) : kindError k bits dir legacy = some .unsupportedCompandedWidth := by
  rcases hk with rfl | rfl <;> exact if_neg h

section Dispatch

variable (be : Bool) {k : Kind} {st : State} {e : Status}

/-- A width error ends a DECODE before `A` is read. -/
theorem exec_decode_error (hb : st.bitsOk) (he : kindError k st.bits.toNat .dec st.legacyFloatZero = some e) :
    exec (.decode (.of k) be) st = .next (st.finish e none none none) := by
  simp only [exec, execDecode, withKind_of, withFormat_error hb he, raise]

/-- A width error ends an ENCODE before `S` is read. -/
theorem exec_encode_error (hb : st.bitsOk) (he : kindError k st.bits.toNat .enc st.legacyFloatZero = some e) :
    exec (.encode (.of k) be) st = .next (st.finish e none none none) := by
  simp only [exec, execEncode, withKind_of, withFormat_error hb he, raise]

/-- A width error ends an UNPACK before `LEN` is compared with the capacities. -/
theorem exec_unpack_error (hc : st.capacitiesTrue) (hb : st.bitsOk)
    (he : kindError k st.bits.toNat .dec st.legacyFloatZero = some e) :
    exec (.unpack (.of k) be) st = .next (st.finish e none none none) := by
  simp only [exec, execUnpack, withKind_of, withBytes_ok hc.1, withSamples_ok hc.2, withFormat_error hb he, raise]

/-- A width error ends a PACK before `LEN` is compared with the capacities. -/
theorem exec_pack_error (hc : st.capacitiesTrue) (hb : st.bitsOk)
    (he : kindError k st.bits.toNat .enc st.legacyFloatZero = some e) :
    exec (.pack (.of k) be) st = .next (st.finish e none none none) := by
  simp only [exec, execPack, withKind_of, withBytes_ok hc.1, withSamples_ok hc.2, withFormat_error hb he, raise]

end Dispatch

/-- Settles O20: each kind has its width error at such a `BITS`, and a width error ends all four operations. -/
theorem formatErrorsComeBeforeDataAndBuffers : Obligations.FormatErrorsComeBeforeDataAndBuffers := by
  intro be st hc hb
  refine ⟨fun h8 k hk => ?_, fun h32 h64 => ?_⟩
  · have he := kindError_companded_other hk (bits_toNat_ne h8)
    exact ⟨exec_decode_error be hb (he _ _), exec_encode_error be hb (he _ _), exec_unpack_error be hc hb (he _ _),
      exec_pack_error be hc hb (he _ _)⟩
  · have he := kindError_pcmFloat_other (bits_toNat_ne h32) (bits_toNat_ne h64)
    have henc := he .enc st.legacyFloatZero
    rw [if_neg (by simp)] at henc
    refine ⟨exec_encode_error be hb henc, exec_pack_error be hc hb henc, fun hlegacy => ?_⟩
    have hdec := he .dec st.legacyFloatZero
    rw [if_neg (by simp [hlegacy])] at hdec
    exact ⟨exec_decode_error be hb hdec, exec_unpack_error be hc hb hdec⟩

/-! ### Round trips -/

/-- Widening keeps the value, so narrowing meets a value that binary32 holds and rounds nothing (rule R11). -/
theorem f32OfF64_f64OfF32_of_finite {s : F32} (hs : Finite32 s) : f32OfF64 (f64OfF32 s) = s := by
  obtain ⟨hsign, hfin, hunits⟩ := f64OfF32_spec hs
  obtain ⟨hsign', -, hround⟩ := f32OfF64_spec hfin
  refine eq_of_sign_mag32 (hsign'.trans hsign) ?_
  refine hround.eq_of_magUnits frac32 (by positivity) ?_ ?_
  · rw [hunits, Int.natAbs_mul, natAbs_units32, ← magUnits_mag32, Int.natAbs_pow]
    rfl
  · rw [infMag32]
    exact ((finite32_iff s).1 hs).le

/-- Narrowing undoes widening on every sample that is no NaN. -/
theorem f32OfF64_f64OfF32 {s : F32} (hN : isNaN32 s = false) : f32OfF64 (f64OfF32 s) = s := by
  cases hI : isInf32 s with
  | true => rw [eq_pack32_of_isInf32 hI, f64OfF32_inf, f32OfF64_inf]
  | false => exact f32OfF64_f64OfF32_of_finite ⟨hN, hI⟩

/-- Widening undoes narrowing exactly on the words that are a widening. -/
theorem f64OfF32_f32OfF64_iff {x : F64} (hN : isNaN64 x = false) :
    f64OfF32 (f32OfF64 x) = x ↔ ∃ s : F32, isNaN32 s = false ∧ x = f64OfF32 s := by
  constructor
  · obtain ⟨-, hnan, -⟩ := f32OfF64_class hN
    exact fun h => ⟨f32OfF64 x, hnan, h.symm⟩
  · rintro ⟨s, hs, rfl⟩
    rw [f32OfF64_f64OfF32 hs]

/-- At 32 bits both directions copy bits, so a sample returns, NaNs included. -/
theorem floatDecode_floatEncode_32 (s : F32) : floatDecode (floatEncode s 32) 32 = s := by
  rw [floatEncode_32, floatDecode_32]
  apply BitVec.eq_of_toNat_eq
  have := s.isLt
  simp only [BitVec.toNat_ofNat]
  omega

/-- At 32 bits a word returns with its high half cleared. -/
theorem floatEncode_floatDecode_32 (raw : Word64) :
    floatEncode (floatDecode raw 32) 32 = BitVec.ofNat 64 (raw.toNat % 2 ^ 32) := by
  rw [floatDecode_32, floatEncode_32, BitVec.toNat_ofNat, Nat.mod_mod]

/-- Settles O41: the two widths separately; at 64 bits the operations are the two conversions. -/
theorem floatRoundTrips : Obligations.FloatRoundTrips :=
  ⟨floatEncode_floatDecode_32, floatDecode_floatEncode_32, fun _ => f32OfF64_f64OfF32,
    fun _ => f64OfF32_f32OfF64_iff⟩

end Sys2Proof.Machine
end

section
/-! PROOFS. The sign-magnitude bytes (45_g711_mulaw_expander.md rules R141 and R142). -/

namespace Sys2Proof.Machine

open Sys2Proof

/-! ### smDecode -/

/-- Flipping bit 7 of a byte adds 128 modulo 256. -/
theorem xor_signBit_toNat (r : Byte) : (r ^^^ 0x80#8).toNat = (r.toNat + 128) % 256 := by
  revert r
  decide

theorem and_signBit_ne_zero_iff (r : Byte) : r &&& 0x80#8 ≠ 0 ↔ 128 ≤ r.toNat := by
  revert r
  decide

theorem xor_signBit_xor (b m : Byte) : b ^^^ 0x80#8 ^^^ m = b ^^^ m ^^^ 0x80#8 := by
  rw [BitVec.xor_assoc, BitVec.xor_comm 0x80#8 m, ← BitVec.xor_assoc]

/-- Rule R141 as a number: the low seven bits of `b XOR m`, with a minus sign from 128 on. -/
theorem smDecode_eq (b m : Byte) :
    smDecode b m = if 128 ≤ (b ^^^ m).toNat then 128 - ((b ^^^ m).toNat : Int) else (b ^^^ m).toNat := by
  have hlt := (b ^^^ m).isLt
  simp only [smDecode, and_signBit_ne_zero_iff, xor_signBit_toNat]
  split <;> omega

/-- Flipping bit 7 of the byte negates its value. -/
theorem smDecode_xor_signBit (b m : Byte) : smDecode (b ^^^ 0x80) m = -smDecode b m := by
  have hlt := (b ^^^ m).isLt
  rw [smDecode_eq, smDecode_eq, BitVec.ofNat_eq_ofNat, xor_signBit_xor, xor_signBit_toNat]
  split <;> split <;> omega

/-- Exactly two bytes have the value 0. -/
theorem smDecode_eq_zero_iff (b m : Byte) : smDecode b m = 0 ↔ b = m ∨ b = m ^^^ 0x80 := by
  have h0 : b = m ↔ (b ^^^ m).toNat = 0 := by
    rw [← BitVec.xor_eq_zero_iff, ← BitVec.toNat_inj]
    rfl
  have h1 : b = m ^^^ 0x80 ↔ (b ^^^ m).toNat = 128 := by
    rw [← BitVec.xor_left_inj m, BitVec.ofNat_eq_ofNat, xor_signBit_xor, BitVec.xor_self, BitVec.zero_xor,
      ← BitVec.toNat_inj]
    rfl
  rw [h0, h1, smDecode_eq]
  split <;> omega

/-- Settles O48: the value is that of `smDecode_eq`, and `b XOR m` is below 256. -/
theorem signMagnitudeDecode : Obligations.SignMagnitudeDecode := by
  intro b m
  have heq := smDecode_eq b m
  have hlt := (b ^^^ m).isLt
  refine ⟨?_, ?_, smDecode_eq_zero_iff b m, smDecode_xor_signBit b m, ?_, ?_⟩ <;> split at heq <;> omega

/-! ### smEncode -/

/-- The byte of rule R142 before the mask: the value's low byte, or its magnitude's with bit 7 flipped. -/
def signMagnitudeByte (raw : Word64) : Byte :=
  if raw.slt 0 then (-raw).setWidth 8 ^^^ 0x80#8 else raw.setWidth 8

theorem smEncode_eq (raw : Word64) (m : Byte) : smEncode raw m = signMagnitudeByte raw ^^^ m := by
  unfold smEncode signMagnitudeByte
  split <;> simp [BitVec.setWidth_xor]

theorem signMagnitudeByte_toNat_of_nonneg {raw : Word64} (h : 0 ≤ raw.toInt) :
    (signMagnitudeByte raw).toNat = raw.toNat % 256 := by
  have hs : raw.slt 0 = false := by simpa [BitVec.slt] using h
  rw [signMagnitudeByte, hs, if_neg Bool.false_ne_true, BitVec.toNat_setWidth]

/-- The magnitude is taken modulo `2 ^ 64`, which its low byte does not notice. -/
theorem signMagnitudeByte_eq_of_neg {raw : Word64} (h : raw.toInt < 0) :
    signMagnitudeByte raw = BitVec.ofNat 8 raw.toInt.natAbs ^^^ 0x80#8 := by
  have hs : raw.slt 0 = true := by simpa [BitVec.slt] using h
  have hm : (-raw).setWidth 8 = BitVec.ofNat 8 raw.toInt.natAbs := by
    have hlt := raw.isLt
    apply BitVec.eq_of_toNat_eq
    rw [BitVec.toInt_eq_toNat_cond] at h ⊢
    rw [BitVec.toNat_setWidth, BitVec.toNat_neg, BitVec.toNat_ofNat]
    split at h <;> omega
  rw [signMagnitudeByte, if_pos hs, hm]

/-- A value of magnitude below 128 returns. -/
theorem smDecode_smEncode {raw : Word64} (m : Byte) (hlow : -127 ≤ raw.toInt) (hhigh : raw.toInt ≤ 127) :
    smDecode (smEncode raw m) m = raw.toInt := by
  rw [smDecode_eq, smEncode_eq, BitVec.xor_assoc, BitVec.xor_self, BitVec.xor_zero]
  rcases le_or_gt 0 raw.toInt with h | h
  · have hn : raw.toInt = raw.toNat := BitVec.toInt_eq_toNat_of_msb (by simpa [BitVec.msb_eq_toInt] using h)
    rw [signMagnitudeByte_toNat_of_nonneg h]
    split <;> omega
  · rw [signMagnitudeByte_eq_of_neg h, xor_signBit_toNat, BitVec.toNat_ofNat]
    split <;> omega

/-- Settles O49: the byte before the mask, by the sign of the value. -/
theorem signMagnitudeEncode : Obligations.SignMagnitudeEncode := by
  intro raw m
  refine ⟨smDecode_smEncode m, ?_, ?_, fun h => ?_, fun h => ?_⟩
  · rw [smEncode_eq]
    rfl
  · rw [smEncode_eq]
    rfl
  · rw [smEncode_eq, BitVec.toNat_xor, signMagnitudeByte_toNat_of_nonneg h]
  · rw [smEncode_eq, BitVec.toNat_xor, signMagnitudeByte_eq_of_neg h, BitVec.toNat_xor, BitVec.toNat_ofNat]
    rfl

end Sys2Proof.Machine
end

section
/-! PROOFS. Expansion is odd (45_g711_mulaw_expander.md rule R143, 46_g711_alaw_expander.md rule R163, 90_conflicts.md
C3): the sign of an operand passes through every operation of the expanders but into a NaN. -/

namespace Sys2Proof.Machine

open Sys2Proof

/-! ### binary64: the sign of an operand passes to the result -/

@[simp] theorem isNaN64_neg64 (x : F64) : isNaN64 (neg64 x) = isNaN64 x := by
  rw [isNaN64_iff, isNaN64_iff, mag64_neg64]

@[simp] theorem isZero64_neg64 (x : F64) : isZero64 (neg64 x) = isZero64 x := by
  rw [isZero64_iff, isZero64_iff, mag64_neg64]

@[simp] theorem sig64_neg64 (x : F64) : sig64 (neg64 x) = sig64 x := by
  rw [sig64, sig64, mag64_neg64]

@[simp] theorem exp64_neg64 (x : F64) : exp64 (neg64 x) = exp64 x := by
  rw [exp64, exp64, mag64_neg64]

@[simp] theorem abs64_neg64 (x : F64) : abs64 (neg64 x) = abs64 x := by
  apply eq_of_sign_mag64 <;> simp

theorem neg64_pack64 (s : Bool) {m : Nat} (h : m < 2 ^ 63) : neg64 (pack64 s m) = pack64 (!s) m := by
  apply eq_of_sign_mag64
  · rw [sign64_neg64, sign64_pack64 h, sign64_pack64 h]
  · rw [mag64_neg64, mag64_pack64 h, mag64_pack64 h]

theorem neg64_round64 (s : Bool) (m : Nat) (e : Int) : neg64 (round64 s m e) = round64 (!s) m e :=
  neg64_pack64 s (roundMag64_lt m e)

theorem signum64_neg64 (x : F64) : signum64 (neg64 x) = neg64 (signum64 x) := by
  by_cases h : isNaN64 x = true ∨ isZero64 x = true
  · rw [signum64_self h, signum64_self (by simpa using h)]
  · rw [not_or, Bool.not_eq_true, Bool.not_eq_true] at h
    obtain ⟨hN, hz⟩ := h
    rw [signum64_of_nonzero hN hz, signum64_of_nonzero (by simp [hN]) (by simp [hz]), sign64_neg64]
    cases sign64 x <;> decide

theorem f64OfInt_neg {k : Int} (h : k ≠ 0) : f64OfInt (-k) = neg64 (f64OfInt k) := by
  have hs : decide (-k < 0) = !decide (k < 0) := by
    rw [← decide_not, decide_eq_decide]
    omega
  rw [f64OfInt, f64OfInt, neg64_round64, Int.natAbs_neg, hs]

/-- The NaN branches are those whose result is a NaN; in every other one the sign is the operands' signs compared. -/
theorem mul64_neg64_left {x y : F64} (h : isNaN64 (mul64 x y) = false) : mul64 (neg64 x) y = neg64 (mul64 x y) := by
  simp only [mul64, isNaN64_neg64, isInf64_neg64, isZero64_neg64, sign64_neg64, sig64_neg64, exp64_neg64,
    Bool.not_bne] at h ⊢
  split_ifs at h ⊢
  · simp at h
  · simp at h
  · rw [neg64_inf64]
  · rw [neg64_round64]

theorem div64_neg64_left {x y : F64} (h : isNaN64 (div64 x y) = false) : div64 (neg64 x) y = neg64 (div64 x y) := by
  simp only [div64, isNaN64_neg64, isInf64_neg64, isZero64_neg64, sign64_neg64, sig64_neg64, exp64_neg64,
    Bool.not_bne] at h ⊢
  split_ifs at h ⊢
  · simp at h
  · simp at h
  · rw [neg64_inf64]
  · rw [neg64_pack64 _ (by norm_num)]
  · simp at h
  · rw [neg64_inf64]
  all_goals rw [neg64_round64]

/-! ### Narrowing -/

theorem mag32_xor_signBit (s : F32) : mag32 (s ^^^ 0x80000000#32) = mag32 s := by
  have h : (s ^^^ 0x80000000#32).toNat % 2 ^ 31 = s.toNat % 2 ^ 31 := by
    rw [BitVec.toNat_xor, Nat.xor_mod_two_pow]
    exact Nat.xor_zero _
  exact h

theorem sign32_xor_signBit (s : F32) : sign32 (s ^^^ 0x80000000#32) = !sign32 s := by
  rw [sign32_eq_msb, sign32_eq_msb, BitVec.msb_xor, show (0x80000000#32).msb = true by decide, Bool.xor_true]

/-- A sign bit flipped in the encoding is the other sign packed. -/
theorem pack32_not (s : Bool) {m : Nat} (h : m < 2 ^ 31) : pack32 (!s) m = pack32 s m ^^^ 0x80000000#32 := by
  apply eq_of_sign_mag32
  · rw [sign32_xor_signBit, sign32_pack32 h, sign32_pack32 h]
  · rw [mag32_xor_signBit, mag32_pack32 h, mag32_pack32 h]

theorem f32OfF64_neg64 {x : F64} (h : isNaN64 x = false) : f32OfF64 (neg64 x) = f32OfF64 x ^^^ 0x80000000#32 := by
  simp only [f32OfF64, isNaN64_neg64, isInf64_neg64, sign64_neg64, sig64_neg64, exp64_neg64, h, Bool.false_eq_true,
    if_false]
  split
  · exact pack32_not _ (by rw [infMag32]; norm_num)
  · exact pack32_not _ (roundMag32_lt _ _)

/-! ### Expansion is odd -/

/-- Flipping bit 7 of a byte that is no zero byte negates the value the decoders start from. -/
theorem byteValue_xor_signBit {b m : Byte} (h : b ≠ m) (h' : b ≠ m ^^^ 0x80) :
    byteValue (b ^^^ 0x80) m = neg64 (byteValue b m) := by
  have h0 : smDecode b m ≠ 0 := by
    rw [ne_eq, smDecode_eq_zero_iff, not_or]
    exact ⟨h, h'⟩
  obtain ⟨hfin, -⟩ := byteValue_exact b m
  rw [byteValue, smDecode_xor_signBit, f64OfInt_neg h0]
  exact div64_neg64_left hfin.1

theorem isNaN64_of_isNaN32_f32OfF64 {x : F64} (h : isNaN32 (f32OfF64 x) = false) : isNaN64 x = false := by
  by_contra hx
  rw [Bool.not_eq_false] at hx
  rw [f32OfF64_nan hx] at h
  contradiction

theorem isNaN64_left_of_mul64 {x y : F64} (h : isNaN64 (mul64 x y) = false) : isNaN64 x = false := by
  by_contra hx
  rw [Bool.not_eq_false] at hx
  rw [mul64_nan (.inl hx)] at h
  contradiction

/-- A factor's sign passes through the last product and the narrowing. -/
theorem f32OfF64_mul64_neg64 {x y : F64} (h : isNaN64 (mul64 x y) = false) :
    f32OfF64 (mul64 (neg64 x) y) = f32OfF64 (mul64 x y) ^^^ 0x80000000#32 := by
  rw [mul64_neg64_left h, f32OfF64_neg64 h]

theorem ulawDecodeBy_xor_signBit (pow : F64 → F64 → F64) {b : Byte} (h : b ≠ 0xFF) (h' : b ≠ 0x7F)
    (hN : isNaN32 (ulawDecodeBy pow b) = false) :
    ulawDecodeBy pow (b ^^^ 0x80) = ulawDecodeBy pow b ^^^ 0x80000000#32 := by
  rw [ulawDecodeBy_eq] at hN
  have hN64 := isNaN64_of_isNaN32_f32OfF64 hN
  rw [ulawDecodeBy_eq, ulawDecodeBy_eq, byteValue_xor_signBit h h', abs64_neg64, signum64_neg64,
    mul64_neg64_left (isNaN64_left_of_mul64 hN64), f32OfF64_mul64_neg64 hN64]

theorem alawDecodeBy_xor_signBit (ln exp : F64 → F64) {b : Byte} (h : b ≠ 0x55) (h' : b ≠ 0xD5)
    (hN : isNaN32 (alawDecodeBy ln exp b) = false) :
    alawDecodeBy ln exp (b ^^^ 0x80) = alawDecodeBy ln exp b ^^^ 0x80000000#32 := by
  have hx : div64 (f64OfInt (smDecode (b ^^^ 0x80) 0x55#8)) FS8 = _ := byteValue_xor_signBit h h'
  have hN64 := isNaN64_of_isNaN32_f32OfF64 hN
  simp only [alawDecodeBy, hx, abs64_neg64, signum64_neg64]
  exact f32OfF64_mul64_neg64 hN64

/-- Settles O54: in both laws the sign of the byte's value reaches the sample through the sign function alone, for the
curve sees its magnitude. -/
theorem expansionIsOdd : Obligations.ExpansionIsOdd :=
  ⟨fun pow _ => ulawDecodeBy_xor_signBit pow, fun ln exp _ => alawDecodeBy_xor_signBit ln exp⟩

end Sys2Proof.Machine
end

section
/-! PROOFS. The combined codec (47_companding_codec_combined.md): DECODE and ENCODE as the single-unit operation of their
kind (rules R180 to R182), and UNPACK and PACK as one word access and one DECODE or ENCODE for each block (rules R184 to
R187). -/

namespace Sys2Proof.Machine

open Sys2Proof

/-! ### The single units -/

section Units

variable (enc : Enc) (be : Bool) {k : Kind} {st : State}

theorem format_passes_of_companded (hk : k = .muLaw ∨ k = .aLaw) (h8 : st.bits = 8) (dir : Direction) :
    st.bitsOk ∧ kindError k st.bits.toNat dir st.legacyFloatZero = none := by
  have hbits : st.bits.toNat = 8 := congrArg BitVec.toNat h8
  have hfloat : k ≠ .pcmFloat := by rcases hk with rfl | rfl <;> decide
  exact ⟨bitsOk_of_toNat (by omega) (by omega), kindError_eq_none.2 ⟨fun h => absurd h hfloat, fun _ => hbits⟩⟩

/-- The linear and float units make the same checks as DECODE; the companding units read no `BITS`, so DECODE equals
them only where its own check passes. -/
theorem exec_decode_eq_unit (h : k = .muLaw ∨ k = .aLaw → st.bits = 8) :
    exec (.decode (.of k) be) st = exec (unitDecode k enc be) st := by
  have companded (hk : k = .muLaw ∨ k = .aLaw) :=
    have hpass := format_passes_of_companded hk (h hk) .dec
    exec_decode_ok k be hpass.1 hpass.2
  cases k with
  | pcmSigned => rfl
  | pcmUnsigned => rfl
  | pcmFloat => rfl
  | muLaw => exact companded (.inl rfl)
  | aLaw => exact companded (.inr rfl)

/-- The same for ENCODE. -/
theorem exec_encode_eq_unit (h : k = .muLaw ∨ k = .aLaw → st.bits = 8) :
    exec (.encode (.of k) be) st = exec (unitEncode k enc be) st := by
  have companded (hk : k = .muLaw ∨ k = .aLaw) :=
    have hpass := format_passes_of_companded hk (h hk) .enc
    exec_encode_ok k be hpass.1 hpass.2
  cases k with
  | pcmSigned => rfl
  | pcmUnsigned => rfl
  | pcmFloat => rfl
  | muLaw => exact companded (.inl rfl)
  | aLaw => exact companded (.inr rfl)

end Units

/-- Settles O56: the table of the single units, row by row; a linear or float kind asks nothing of `BITS` here. -/
theorem dispatchEqualsTheSingleUnits : Obligations.DispatchEqualsTheSingleUnits := by
  intro enc be st
  exact ⟨exec_decode_eq_unit enc be (by simp), exec_encode_eq_unit enc be (by simp),
    exec_decode_eq_unit enc be (by simp), exec_encode_eq_unit enc be (by simp),
    exec_decode_eq_unit enc be (by simp), exec_encode_eq_unit enc be (by simp), fun h8 =>
    ⟨exec_decode_eq_unit enc be fun _ => h8, exec_encode_eq_unit enc be fun _ => h8,
      exec_decode_eq_unit enc be fun _ => h8, exec_encode_eq_unit enc be fun _ => h8⟩⟩

/-! ### The check of the format passes -/

section Format

variable {k : Kind} {st : State}

theorem kindError_dec_eq_none (hf : k = .pcmFloat → st.bits = 32 ∨ st.bits = 64 ∨ st.legacyFloatZero = true)
    (hc : k = .muLaw ∨ k = .aLaw → st.bits = 8) : kindError k st.bits.toNat .dec st.legacyFloatZero = none :=
  kindError_eq_none.2 ⟨fun hk => (hf hk).imp (congrArg BitVec.toNat) (.imp (congrArg BitVec.toNat) (⟨rfl, ·⟩)),
    fun hk => congrArg BitVec.toNat (hc hk)⟩

theorem kindError_enc_eq_none (hf : k = .pcmFloat → st.bits = 32 ∨ st.bits = 64)
    (hc : k = .muLaw ∨ k = .aLaw → st.bits = 8) : kindError k st.bits.toNat .enc st.legacyFloatZero = none :=
  kindError_eq_none.2 ⟨fun hk => (hf hk).imp (congrArg BitVec.toNat) (.inl ∘ congrArg BitVec.toNat),
    fun hk => congrArg BitVec.toNat (hc hk)⟩

end Format

/-- A companded word is a byte. -/
theorem encodeSample_toNat_lt {k : Kind} (hk : k = .muLaw ∨ k = .aLaw) (s : F32) (bits : Nat) :
    (encodeSample k s bits).toNat < 256 := by
  have byte_lt (b : Byte) : (b.setWidth 64).toNat < 256 := by
    rw [BitVec.toNat_setWidth_of_le (by decide)]
    exact b.isLt
  rcases hk with rfl | rfl <;> exact byte_lt _

/-- Settles O57: the check passes, so both complete with the value of their kind, which is what its unit answers. -/
theorem decodeAndEncodeComplete : Obligations.DecodeAndEncodeComplete := by
  intro k enc be st hb hc
  refine ⟨fun hf => ?_, fun hf => ?_⟩
  · have hdec := exec_decode_ok k be hb (kindError_dec_eq_none hf hc)
    exact ⟨_, hdec, (exec_decode_eq_unit enc be hc).symm.trans hdec⟩
  · have henc := exec_encode_ok k be hb (kindError_enc_eq_none hf hc)
    exact ⟨_, henc, (exec_encode_eq_unit enc be hc).symm.trans henc, fun hk => encodeSample_toNat_lt hk _ _⟩

/-! ### One block -/

/-- The state in which a word access reaches block `i` of `w` bytes. -/
def State.atBlock (st : State) (w i : Nat) : State :=
  { st with width := BitVec.ofNat 32 w, offset := BitVec.ofNat 32 (i * w) }

section Block

variable (enc : Enc) (be : Bool) {st : State} {w i n : Nat}

theorem block_le (hi : i < n) : i * w + w ≤ n * w := by
  rw [← Nat.succ_mul]
  exact Nat.mul_le_mul_right w hi

/-- A block below the capacity has an offset that fits its port, for no capacity is above `2 ^ 32`. -/
theorem State.atBlock_toNat (h1 : 1 ≤ w) (h8 : w ≤ 8) (hi : i < n) (hn : n * w ≤ st.bcap.val) :
    (st.atBlock w i).width.toNat = w ∧ (st.atBlock w i).offset.toNat = i * w := by
  have hblock := block_le (w := w) hi
  have hcap := st.bcap.isLt
  exact ⟨Nat.mod_eq_of_lt (by omega), Nat.mod_eq_of_lt (by omega)⟩

theorem exec_rdword_atBlock (hc : st.capacitiesTrue) (h1 : 1 ≤ w) (h8 : w ≤ 8) (hi : i < n)
    (hn : n * w ≤ st.bcap.val) :
    exec (.rdword enc be) (st.atBlock w i) =
      .next ((st.atBlock w i).finish .ok (some (readWord st.bytes (i * w) w be)) none none) := by
  obtain ⟨hwidth, hoffset⟩ := State.atBlock_toNat h1 h8 hi hn
  have hin := (block_le hi).trans hn
  have h := exec_rdword_ok enc be (st := st.atBlock w i) hc.1 (by omega) (by omega) (by rwa [hwidth, hoffset])
  rwa [hwidth, hoffset] at h

theorem exec_wrword_atBlock (hc : st.capacitiesTrue) (h1 : 1 ≤ w) (h8 : w ≤ 8) (hi : i < n)
    (hn : n * w ≤ st.bcap.val) :
    exec (.wrword enc be) (st.atBlock w i) =
      .next ({ st.atBlock w i with bytes := writeWord st.bytes (i * w) st.a w be }.finish .ok none none none) := by
  obtain ⟨hwidth, hoffset⟩ := State.atBlock_toNat h1 h8 hi hn
  have hin := (block_le hi).trans hn
  have h := exec_wrword_ok enc be (st := st.atBlock w i) hc.1 (by omega) (by omega) (by rwa [hwidth, hoffset])
  rwa [hwidth, hoffset] at h

/-- PACK leaves in block `i` the bytes that a write of the encoded sample to that block leaves there. -/
theorem packBlocks_get_block (kind : Kind) {bits : Nat} (samples : Buffer 32) {bytes : Buffer 8} (h : bytes.wf)
    (hw : w = bytesPerSample bits) (hs : n * w ≤ bytes.size) (hi : i < n) {b : Nat} (hb : b < w) :
    (packBlocks kind be bits samples bytes n).get (i * w + b) =
      (writeWord bytes (i * w) (encodeSample kind (samples.get i) bits) w be).get (i * w + b) := by
  subst hw
  have hpos : 0 < bytesPerSample bits := by omega
  have hblock := block_le (w := bytesPerSample bits) hi
  obtain ⟨-, -, hpack⟩ := packBlocks_spec kind be bits samples h hpos hs
  obtain ⟨-, -, hword⟩ := writeWord_spec h (i * bytesPerSample bits) (encodeSample kind (samples.get i) bits)
    (bytesPerSample bits) be (hblock.trans hs)
  have hdiv : (i * bytesPerSample bits + b) / bytesPerSample bits = i := by
    rw [Nat.mul_comm, Nat.mul_add_div hpos, Nat.div_eq_of_lt hb, Nat.add_zero]
  have hmod : (i * bytesPerSample bits + b) % bytesPerSample bits = b := by
    rw [Nat.mul_comm, Nat.mul_add_mod, Nat.mod_eq_of_lt hb]
  rw [hpack, if_pos (by omega), hword, if_pos (by omega), hdiv, hmod, Nat.add_sub_cancel_left]

end Block

/-! ### Every block -/

/-- Settles O58: element `j` of the new SAMPLES is the decoded word of block `j`, the word a RDWORD of that block gives. -/
theorem unpackDecodesEveryBlock : Obligations.UnpackDecodesEveryBlock := by
  intro k be st w n ⟨_, hsamples, _⟩ hc hb hf hk hw hn hbytes hfits
  have hformat := kindError_dec_eq_none hf hk
  obtain ⟨hlow, hhigh⟩ := bitsOk_toNat hb
  obtain ⟨-, hsize, hget⟩ := unpackBlocks_spec k be st.bits.toNat st.bytes hsamples (hfits.trans hc.2)
  have hbps : bytesPerSample st.bits.toNat = w := hw.symm
  have hunpack := exec_unpack_ok k be hc hb hformat (n := n) (by rw [hbps]; exact hn) (by rwa [hbps]) hfits
  refine ⟨_, hunpack, hsize, fun j hj => (hget j).trans (if_neg (Nat.not_lt.2 hj)), fun j hj => ?_⟩
  refine ⟨readWord st.bytes (j * w) w be, exec_rdword_atBlock _ be hc (by omega) (by omega) hj hbytes, ?_⟩
  have hdec := exec_decode_ok k be (st := { st with a := readWord st.bytes (j * w) w be }) hb hformat
  rw [hdec, hget, if_pos hj, hbps]

/-- Settles O59: block `i` of the new BYTES holds the word of sample `i`, as a WRWORD of that word at the block stores
it. -/
theorem packEncodesEverySample : Obligations.PackEncodesEverySample := by
  intro k be st w ⟨hbytes, _, _⟩ hc hb hf hk hw hfits hcap
  have hformat := kindError_enc_eq_none hf hk
  obtain ⟨hlow, hhigh⟩ := bitsOk_toNat hb
  have hbps : bytesPerSample st.bits.toNat = w := hw.symm
  obtain ⟨-, hsize, hget⟩ := packBlocks_spec k be st.bits.toNat st.samples hbytes (bytesPerSample_pos hlow)
    (n := st.len.toNat) (by rw [hbps]; exact hcap.trans hc.1)
  have hpack := exec_pack_ok k be hc hb hformat (by rwa [hbps]) hfits
  rw [hbps] at hpack hget
  refine ⟨_, hpack, hsize, fun j hj => (hget j).trans (if_neg (Nat.not_lt.2 hj)), fun i hi => ?_⟩
  have hword := exec_wrword_atBlock (.of k) be hc (by omega) (by omega) hi hcap
    (st := { st with a := encodeSample k (st.samples.get i) st.bits.toNat })
  exact ⟨_, _, exec_encode_ok k be (st := { st with s := st.samples.get i }) hb hformat, hword,
    fun b => packBlocks_get_block be k st.samples hbytes hbps.symm (hcap.trans hc.1) hi⟩

end Sys2Proof.Machine
end

section
/-! PROOFS. The check order (60_exceptions.md rules R200 and R202): one rule for each check says that it stops a request
at the first status whose cause holds, and each operation is put together from these rules. -/

namespace Sys2Proof.Machine

open Sys2Proof

/-! ### The first status of the check order -/

section Checks

variable {i : Instr} {st : State}

theorem FirstStatus.of_no_earlier {e : Status} (he : causeHolds i st e)
    (hb : ∀ d ∈ checkOrder.takeWhile (· != e), ¬ causeHolds i st d) : FirstStatus i st e :=
  ⟨_, (checkOrder.dropWhile (· != e)).tail, by cases e <;> rfl, he, hb⟩

/-- One status at most is the first: of two, the earlier one would stand before the other. -/
theorem FirstStatus.unique {e e' : Status} (h : FirstStatus i st e) (h' : FirstStatus i st e') : e = e' := by
  obtain ⟨before, after, horder, he, hb⟩ := h
  obtain ⟨before', after', horder', he', hb'⟩ := h'
  rcases List.append_eq_append_iff.1 (horder.symm.trans horder') with ⟨between, rfl, hl⟩ | ⟨between, rfl, hl⟩
  · cases between with
    | nil => exact (List.cons.inj hl).1
    | cons d l =>
      obtain ⟨rfl, -⟩ := List.cons.inj hl
      exact absurd he (hb' e (by simp))
  · cases between with
    | nil => exact (List.cons.inj hl).1.symm
    | cons d l =>
      obtain ⟨rfl, -⟩ := List.cons.inj hl
      exact absurd he' (hb e' (by simp))

/-- No check before that of the capacities stops the request. -/
def ReachesCapacityCheck (i : Instr) (st : State) : Prop :=
  ∀ e, e ≠ .ok → e ≠ .bufferTooShort → ¬ causeHolds i st e

theorem ReachesCapacityCheck.bufferTooShort (h : ReachesCapacityCheck i st) (hs : causeHolds i st .bufferTooShort) :
    FirstStatus i st .bufferTooShort :=
  .of_no_earlier hs fun d hd => by
    have hne : d ≠ .ok ∧ d ≠ .bufferTooShort := by revert d; decide
    exact h d hne.1 hne.2

theorem ReachesCapacityCheck.ok (h : ReachesCapacityCheck i st) (hs : ¬ causeHolds i st .bufferTooShort) :
    FirstStatus i st .ok :=
  .of_no_earlier trivial fun d hd => by
    have hne : d ≠ .ok := by revert d; decide
    by_cases hshort : d = .bufferTooShort
    · exact hshort ▸ hs
    · exact h d hne hshort

/-! ### One rule for each check -/

/-- The request completes with the first status that applies. -/
def AnswersFirstStatus (i : Instr) (st : State) (x : Result) : Prop :=
  ∃ t e, x = .next t ∧ t.status = some e ∧ FirstStatus i st e

theorem AnswersFirstStatus.raise {e : Status} (h : FirstStatus i st e) : AnswersFirstStatus i st (raise e st) :=
  ⟨_, e, rfl, rfl, h⟩

theorem AnswersFirstStatus.completed {x : Result} (hx : ∃ t, x = .next t ∧ t.status = some .ok)
    (h : FirstStatus i st .ok) : AnswersFirstStatus i st x :=
  have ⟨t, ht, hok⟩ := hx
  ⟨t, .ok, ht, hok, h⟩

/-- A check of a capacity. -/
theorem AnswersFirstStatus.capacity {p : Prop} [Decidable p] {x : Result} (h : ReachesCapacityCheck i st)
    (hp : p → causeHolds i st .bufferTooShort) (hx : ¬ p → AnswersFirstStatus i st x) :
    AnswersFirstStatus i st (if p then Machine.raise .bufferTooShort st else x) := by
  by_cases hpos : p
  · rw [if_pos hpos]
    exact raise (h.bufferTooShort (hp hpos))
  · rw [if_neg hpos]
    exact hx hpos

theorem AnswersFirstStatus.withKind {enc : Enc} {use : Kind → Result} (hi : i.readEnc = some enc)
    (hu : ∀ k, enc = .of k → AnswersFirstStatus i st (use k)) : AnswersFirstStatus i st (withKind enc st use) := by
  cases enc with
  | of k => exact hu k rfl
  | _ => exact raise (.of_no_earlier (by simp [causeHolds, Instr.wellFormed, hi, Enc.kind?]) (by simp [checkOrder]))

/-- The operation checks the format of a kind: it reads `BITS`, and its width errors have the causes of that kind. -/
structure ChecksFormat (i : Instr) (st : State) (kind : Kind) (dir : Direction) : Prop where
  wellFormed : i.wellFormed = true
  readsBits : readsBits i = true
  readsWidth : readsWidth i = false
  floatWidth : causeHolds i st .unsupportedFloatWidth ↔
    st.bits ≠ 32 ∧ st.bits ≠ 64 ∧ kind = .pcmFloat ∧ ¬ (dir = .dec ∧ st.legacyFloatZero = true)
  compandedWidth : causeHolds i st .unsupportedCompandedWidth ↔ st.bits ≠ 8 ∧ (kind = .muLaw ∨ kind = .aLaw)

theorem ChecksFormat.invalidFormat {kind : Kind} {dir : Direction} (hf : ChecksFormat i st kind dir)
    (hb : ¬ st.bitsOk) : FirstStatus i st .invalidFormat :=
  .of_no_earlier ⟨hf.readsBits, hb⟩ (by simp [checkOrder, causeHolds, hf.wellFormed])

/-- With `BITS` in range no cause applies that comes before the width errors of a kind. -/
theorem ChecksFormat.not_causeHolds {kind : Kind} {dir : Direction} (hf : ChecksFormat i st kind dir)
    (hb : st.bitsOk) : ∀ d ∈ [Status.illegalCommand, .invalidFormat, .invalidWidth], ¬ causeHolds i st d :=
  List.forall_mem_cons.2 ⟨by simp [causeHolds, hf.wellFormed], List.forall_mem_cons.2 ⟨fun h => h.2 hb,
    List.forall_mem_singleton.2 (by simp [causeHolds, hf.readsWidth])⟩⟩

theorem ChecksFormat.widthError {kind : Kind} {dir : Direction} (hf : ChecksFormat i st kind dir) (hb : st.bitsOk)
    {e : Status} (he : kindError kind st.bits.toNat dir st.legacyFloatZero = some e) : FirstStatus i st e := by
  have hearlier := hf.not_causeHolds hb
  rcases kindError_eq_some he with ⟨rfl, hk, h32, h64, hd⟩ | ⟨rfl, hk, h8⟩
  · exact .of_no_earlier (hf.floatWidth.2 ⟨h32 ∘ congrArg BitVec.toNat, h64 ∘ congrArg BitVec.toNat, hk, hd⟩) hearlier
  · have hfloat : ¬ causeHolds i st .unsupportedFloatWidth := fun h => by
      obtain ⟨-, -, rfl, -⟩ := hf.floatWidth.1 h
      simp at hk
    refine .of_no_earlier (hf.compandedWidth.2 ⟨h8 ∘ congrArg BitVec.toNat, hk⟩) ?_
    exact List.forall_mem_append.2 ⟨hearlier, List.forall_mem_singleton.2 hfloat⟩

theorem ChecksFormat.reachesCapacityCheck {kind : Kind} {dir : Direction} (hf : ChecksFormat i st kind dir)
    (hb : st.bitsOk) (hn : kindError kind st.bits.toNat dir st.legacyFloatZero = none) : ReachesCapacityCheck i st := by
  obtain ⟨hfloat, hcompanded⟩ := kindError_eq_none.1 hn
  intro e hok hshort he
  cases e with
  | ok => exact hok rfl
  | bufferTooShort => exact hshort rfl
  | illegalCommand | invalidFormat | invalidWidth => exact hf.not_causeHolds hb _ (by simp) he
  | unsupportedFloatWidth =>
    obtain ⟨h32, h64, hk, hd⟩ := hf.floatWidth.1 he
    rcases hfloat hk with h | h | h
    · exact bits_toNat_ne h32 h
    · exact bits_toNat_ne h64 h
    · exact hd h
  | unsupportedCompandedWidth =>
    obtain ⟨h8, hk⟩ := hf.compandedWidth.1 he
    exact bits_toNat_ne h8 (hcompanded hk)

theorem AnswersFirstStatus.withFormat {kind : Kind} {dir : Direction} {use : Nat → Result}
    (hf : ChecksFormat i st kind dir)
    (hu : st.bitsOk → ReachesCapacityCheck i st → AnswersFirstStatus i st (use st.bits.toNat)) :
    AnswersFirstStatus i st (withFormat kind dir st use) := by
  by_cases hb : st.bitsOk
  · cases he : kindError kind st.bits.toNat dir st.legacyFloatZero with
    | none =>
      rw [withFormat_ok hb he]
      exact hu hb (hf.reachesCapacityCheck hb he)
    | some e =>
      rw [withFormat_error hb he]
      exact raise (hf.widthError hb he)
  · rw [withFormat_bad hb]
    exact raise (hf.invalidFormat hb)

/-- A check of `BITS` alone is the check of a format without a width error. -/
theorem AnswersFirstStatus.withBits {use : Nat → Result} (hf : ChecksFormat i st .pcmSigned .dec)
    (hs : ¬ causeHolds i st .bufferTooShort) (hu : ∀ bits, ∃ t, use bits = .next t ∧ t.status = some .ok) :
    AnswersFirstStatus i st (withBits st use) :=
  withFormat hf fun _ h => completed (hu _) (h.ok hs)

/-- A word access has no cause of an error but its `WIDTH` and the capacity. -/
theorem not_causeHolds_of_readsWidth (hi : readsWidth i = true) {e : Status} (hok : e ≠ .ok)
    (hwidth : e ≠ .invalidWidth) (hshort : e ≠ .bufferTooShort) : ¬ causeHolds i st e := by
  cases i with
  | rdword enc be | wrword enc be =>
    cases e with
    | ok => exact absurd rfl hok
    | invalidWidth => exact absurd rfl hwidth
    | bufferTooShort => exact absurd rfl hshort
    | _ => simp [causeHolds, Instr.wellFormed, Instr.readEnc, readsBits]
  | _ => cases hi

theorem causeHolds_bufferTooShort_of_readsWidth (hi : readsWidth i = true) :
    causeHolds i st .bufferTooShort ↔ st.bcap.val < st.offset.toNat + st.width.toNat := by
  cases i with
  | rdword enc be | wrword enc be => rfl
  | _ => cases hi

theorem AnswersFirstStatus.withWord {use : Nat → Nat → Result} (hi : readsWidth i = true)
    (hc : st.bcap.val ≤ st.bytes.size) (hu : ∀ off w, ∃ t, use off w = .next t ∧ t.status = some .ok) :
    AnswersFirstStatus i st (withWord st use) := by
  have hshort := causeHolds_bufferTooShort_of_readsWidth (st := st) hi
  rw [Machine.withWord, withBytes_ok hc]
  by_cases hw : widthInRange st.width = true
  · rw [if_pos hw]
    simp only [widthInRange, Bool.and_eq_true, decide_eq_true_eq] at hw
    have hreach : ReachesCapacityCheck i st := fun e hok hne he => by
      by_cases hwidth : e = .invalidWidth
      · subst hwidth
        exact he.2 hw
      · exact not_causeHolds_of_readsWidth hi hok hwidth hne he
    exact capacity hreach hshort.2 fun h => completed (hu _ _) (hreach.ok (mt hshort.1 h))
  · rw [if_neg hw]
    simp only [widthInRange, Bool.and_eq_true, decide_eq_true_eq] at hw
    refine raise (.of_no_earlier ⟨hi, hw⟩ fun d hd => ?_)
    have hne : d ≠ .ok ∧ d ≠ .invalidWidth ∧ d ≠ .bufferTooShort := by revert d; decide
    exact not_causeHolds_of_readsWidth hi hne.1 hne.2.1 hne.2.2

/-! ### Every operation -/

/-- An operation that reads `BITS` and no kind, but for the two of the float format, has no width error. -/
theorem checksFormat_bits (hw : i.readEnc = none) (hr : readsBits i = true)
    (hfloat : ∀ enc be, i ≠ .fltDec enc be ∧ i ≠ .fltEnc enc be) : ChecksFormat i st .pcmSigned .dec := by
  cases i with
  | rdword | wrword | ulawDec | ulawEnc | alawDec | alawEnc => cases hr
  | decode | encode | unpack | pack => cases hw
  | fltDec enc be => exact absurd rfl (hfloat enc be).1
  | fltEnc enc be => exact absurd rfl (hfloat enc be).2
  | _ => exact ⟨rfl, rfl, rfl, by simp [causeHolds], by simp [causeHolds, Instr.readEnc]⟩

theorem checksFormat_fltDec (enc : Enc) (be : Bool) : ChecksFormat (.fltDec enc be) st .pcmFloat .dec :=
  ⟨rfl, rfl, rfl, by simp [causeHolds], by simp [causeHolds, Instr.readEnc]⟩

theorem checksFormat_fltEnc (enc : Enc) (be : Bool) : ChecksFormat (.fltEnc enc be) st .pcmFloat .enc :=
  ⟨rfl, rfl, rfl, by simp [causeHolds], by simp [causeHolds, Instr.readEnc]⟩

/-- DECODE, ENCODE, UNPACK and PACK check the format of the kind in their `ENC`. -/
theorem checksFormat_decode (k : Kind) (be : Bool) : ChecksFormat (.decode (.of k) be) st k .dec :=
  ⟨rfl, rfl, rfl, by simp [causeHolds], by simp [causeHolds, Instr.readEnc]⟩

theorem checksFormat_encode (k : Kind) (be : Bool) : ChecksFormat (.encode (.of k) be) st k .enc :=
  ⟨rfl, rfl, rfl, by simp [causeHolds], by simp [causeHolds, Instr.readEnc]⟩

theorem checksFormat_unpack (k : Kind) (be : Bool) : ChecksFormat (.unpack (.of k) be) st k .dec :=
  ⟨rfl, rfl, rfl, by simp [causeHolds], by simp [causeHolds, Instr.readEnc]⟩

theorem checksFormat_pack (k : Kind) (be : Bool) : ChecksFormat (.pack (.of k) be) st k .enc :=
  ⟨rfl, rfl, rfl, by simp [causeHolds], by simp [causeHolds, Instr.readEnc]⟩

/-- No cause of an error applies to the four companding units. -/
theorem firstStatus_ok_of_reads_nothing (hbits : readsBits i = false) (hwidth : readsWidth i = false) :
    FirstStatus i st .ok := by
  cases i with
  | ulawDec | ulawEnc | alawDec | alawEnc =>
    exact .of_no_earlier (e := .ok) trivial
      (by simp [checkOrder, causeHolds, Instr.wellFormed, Instr.readEnc, readsBits, readsWidth])
  | rdword | wrword => cases hwidth
  | _ => cases hbits

theorem unpack_answersFirstStatus (enc : Enc) (be : Bool) (hc : st.capacitiesTrue) :
    AnswersFirstStatus (.unpack enc be) st (exec (.unpack enc be) st) := by
  simp only [exec, execUnpack, withBytes_ok hc.1, withSamples_ok hc.2]
  refine .withKind rfl fun k hk => ?_
  subst hk
  exact .withFormat (checksFormat_unpack k be) fun _ h =>
    .capacity h .inl fun hbytes => .capacity h .inr fun hsamples =>
    .completed ⟨_, rfl, rfl⟩ (h.ok (not_or.2 ⟨hbytes, hsamples⟩))

theorem pack_answersFirstStatus (enc : Enc) (be : Bool) (hc : st.capacitiesTrue) :
    AnswersFirstStatus (.pack enc be) st (exec (.pack enc be) st) := by
  simp only [exec, execPack, withBytes_ok hc.1, withSamples_ok hc.2]
  refine .withKind rfl fun k hk => ?_
  subst hk
  exact .withFormat (checksFormat_pack k be) fun _ h =>
    .capacity h .inl fun hsamples => .capacity h .inr fun hbytes =>
    .completed ⟨_, rfl, rfl⟩ (h.ok (not_or.2 ⟨hsamples, hbytes⟩))

theorem exec_answersFirstStatus (i : Instr) (hc : st.capacitiesTrue) : AnswersFirstStatus i st (exec i st) := by
  cases i with
  | unpack enc be => exact unpack_answersFirstStatus enc be hc
  | pack enc be => exact pack_answersFirstStatus enc be hc
  | decode enc be =>
    simp only [exec, execDecode]
    exact .withKind rfl fun k hk => hk ▸ .withFormat (checksFormat_decode k be) fun _ h =>
      .completed ⟨_, rfl, rfl⟩ (h.ok id)
  | encode enc be =>
    simp only [exec, execEncode]
    exact .withKind rfl fun k hk => hk ▸ .withFormat (checksFormat_encode k be) fun _ h =>
      .completed ⟨_, rfl, rfl⟩ (h.ok id)
  | rdword enc be => exact .withWord rfl hc.1 fun _ _ => ⟨_, rfl, rfl⟩
  | wrword enc be => exact .withWord rfl hc.1 fun _ _ => ⟨_, rfl, rfl⟩
  | fltDec enc be =>
    simp only [exec, execFltDec]
    exact .withFormat (checksFormat_fltDec enc be) fun _ h => .completed ⟨_, rfl, rfl⟩ (h.ok id)
  | fltEnc enc be =>
    simp only [exec, execFltEnc]
    exact .withFormat (checksFormat_fltEnc enc be) fun _ h => .completed ⟨_, rfl, rfl⟩ (h.ok id)
  | ulawDec | ulawEnc | alawDec | alawEnc =>
    exact .completed ⟨_, rfl, rfl⟩ (firstStatus_ok_of_reads_nothing rfl rfl)
  | _ =>
    simp only [exec, execBps, execFscale, execSext, execToob, execFromob, execPcmsDec, execPcmuDec, execPcmsEnc,
      execPcmuEnc]
    exact .withBits (checksFormat_bits rfl rfl (by simp)) id fun _ => ⟨_, rfl, rfl⟩

end Checks

/-- Settles O16: each check of an operation, in the order of its meaning, stops it at the first cause that holds. -/
theorem requestsCompleteWithTheFirstStatusThatApplies : Obligations.RequestsCompleteWithTheFirstStatusThatApplies :=
  fun i _ hc => exec_answersFirstStatus i hc

end Sys2Proof.Machine
end

section
/-! PROOFS. What an error leaves (60_exceptions.md rules R204 and R205), the status codes and the worked cases (rules
R200 and R203), and capacities stated too large (70_reset_and_hazards.md rule R223). -/

namespace Sys2Proof.Machine

open Sys2Proof

/-! ### What an error leaves, and the request issued again -/

theorem exec_error {i : Instr} {st t : State} (h : exec i st = .next t) (hne : t.status ≠ some .ok) :
    ∃ e, e ≠ .ok ∧ t = st.finish e none none none := by
  rcases exec_cases h with he | ⟨_, _, _, _, _, rfl, -⟩
  · exact he
  · exact absurd rfl hne

/-- Settles O17: of the two forms of a completion in `exec_cases` only the error has another status than `OK`. -/
theorem errorCompletionChangesTheStatusOnly : Obligations.ErrorCompletionChangesTheStatusOnly :=
  fun _ _ _ => exec_error

/-- Settles O18: the state after an error differs in the result ports alone, which a request does not see. -/
theorem reissuedErrorIsTheSameError : Obligations.ReissuedErrorIsTheSameError := by
  intro i st t h hne
  obtain ⟨e, -, rfl⟩ := exec_error h hne
  rwa [exec_finish]

/-! ### Status codes and the worked cases -/

/-- Settles O23: one code for each status. -/
theorem statusCodesAreThoseOfTheTable : Obligations.StatusCodesAreThoseOfTheTable :=
  ⟨rfl, rfl, rfl, rfl, rfl, rfl, rfl, fun e => by cases e <;> decide⟩

/-- The first status that applies, where it is an error, is all that a request leaves. -/
theorem exec_of_firstStatus {i : Instr} {st : State} (hc : st.capacitiesTrue) {e : Status} (he : e ≠ .ok)
    (h : FirstStatus i st e) : exec i st = .next (st.finish e none none none) := by
  obtain ⟨t, e', ht, hstatus, hfirst⟩ := exec_answersFirstStatus i hc
  obtain rfl := hfirst.unique h
  obtain ⟨d, -, rfl⟩ := exec_error ht (by simpa [hstatus] using he)
  rw [ht, Option.some.inj hstatus]

/-- Settles O22: the causes of each case, by number, up to the first that holds. -/
theorem workedPriorityCases : Obligations.WorkedPriorityCases := by
  intro st
  refine ⟨fun hc hbcap => ⟨fun hbits _ => ?_, fun hbits hlen => ?_, fun hwidth _ => ?_⟩, fun hc hbits _ => ?_,
    fun rest hcmd hp => ?_⟩
  · have hb : ¬ st.bitsOk := by simp [State.bitsOk, hbits]
    exact exec_of_firstStatus hc (by decide) ((checksFormat_unpack .muLaw false).invalidFormat hb)
  · have hb : st.bitsOk := by simp [State.bitsOk, hbits]
    have hf := checksFormat_unpack (st := st) .pcmFloat false
    cases hl : st.legacyFloatZero with
    | true =>
      have hreach := hf.reachesCapacityCheck hb (by rw [hbits, hl]; rfl)
      exact exec_of_firstStatus hc (by decide) (hreach.bufferTooShort (by simp [causeHolds, hbcap, hbits, hlen]))
    | false =>
      exact exec_of_firstStatus hc (by decide) (hf.widthError hb (by rw [hbits, hl]; rfl))
  · refine exec_of_firstStatus hc (by decide) (.of_no_earlier ?_ ?_)
    · simp [causeHolds, hwidth, readsWidth]
    · simp [checkOrder, causeHolds, Instr.wellFormed, Instr.readEnc, readsBits]
  · have hb : st.bitsOk := by simp [State.bitsOk, hbits]
    exact exec_of_firstStatus hc (by decide) ((checksFormat_pack .aLaw false).widthError hb (by rw [hbits]; rfl))
  · exact step_of_illegal (why := .reservedBits) (by rw [hcmd]; decide) hp

/-! ### Capacities stated too large -/

theorem withBytes_false {st : State} {use : Nat → Result} (h : st.bytes.size < st.bcap.val) :
    withBytes st use = .fault (.falseCapacity .bytes) :=
  if_pos h

theorem withSamples_false {st : State} {use : Nat → Result} (h : st.samples.size < st.scap.val) :
    withSamples st use = .fault (.falseCapacity .samples) :=
  if_pos h

theorem withKind_const {enc : Enc} {st : State} (h : enc.kind?.isSome = true) (x : Result) :
    withKind enc st (fun _ => x) = x := by
  cases enc with
  | of k => rfl
  | _ => cases h

/-- Settles O21: past a well-formed `ENC` the check of BYTES is the first and that of SAMPLES the second. -/
theorem falseCapacityHasNoStep : Obligations.FalseCapacityHasNoStep := by
  intro i st hw
  refine ⟨fun hi hb => ?_, fun hi hb hs => ?_⟩
  · cases i with
    | rdword enc be => simp only [exec, execRdword, withWord, withBytes_false hb]
    | wrword enc be => simp only [exec, execWrword, withWord, withBytes_false hb]
    | unpack enc be =>
      simp only [exec, execUnpack, withBytes_false hb]
      exact withKind_const hw _
    | pack enc be =>
      simp only [exec, execPack, withBytes_false hb]
      exact withKind_const hw _
    | _ => cases hi
  · cases i with
    | unpack enc be =>
      simp only [exec, execUnpack, withBytes_ok hb, withSamples_false hs]
      exact withKind_const hw _
    | pack enc be =>
      simp only [exec, execPack, withBytes_ok hb, withSamples_false hs]
      exact withKind_const hw _
    | _ => cases hi

end Sys2Proof.Machine
end

section
/-! PROOFS. A request cut by reset (70_reset_and_hazards.md rule R221). -/

namespace Sys2Proof.Machine

open Sys2Proof

theorem runCutRequest_illegal {st : State} {why : IllegalWord} (hd : Sys2Proof.decode st.cmd = .illegal why) :
    runCutRequest st = .next st.resetBlock := by
  simp only [runCutRequest, hd]

/-- With true capacities a request that is cut would have completed, so the cut is a step. -/
theorem runCutRequest_legal {i : Instr} {st : State} (hd : Sys2Proof.decode st.cmd = .legal i)
    (hc : ReachedCapacitiesTrue i st) :
    runCutRequest st = .next { (scramble i st).resetBlock with draws := st.draws + 1 } := by
  obtain ⟨t, ht⟩ := exec_completes hc
  simp only [runCutRequest, hd, ht]

/-- Settles O9: the cut request is `scramble` and a reset, and `scramble` fills the output region of rule R221. -/
theorem cutRequestChangesItsOutputRegionOnly : Obligations.CutRequestChangesItsOutputRegionOnly := by
  intro st rest hbytes hsamples hp
  have hstep : step st = runCutRequest { st with pending := rest } := step_of_pending hp
  refine ⟨fun why hd => hstep.trans (runCutRequest_illegal hd), fun i hd hc => ?_⟩
  have hcut := runCutRequest_legal (st := { st with pending := rest }) hd hc
  obtain ⟨⟨-, hbsize, hbget⟩, -, hssize, hsget⟩ := scramble_spec (i := i) (st := st) hbytes hsamples hc
  refine ⟨(scramble i st).bytes, (scramble i st).samples, hstep.trans hcut, hbsize, hssize, fun k => ?_, fun k => ?_⟩
  · rw [hbget, ← bytesRegion_iff]
    exact ⟨fun h => if_pos h, fun h => if_neg h⟩
  · rw [hsget, ← samplesRegion_iff]
    exact ⟨fun h => if_pos h, fun h => if_neg h⟩

end Sys2Proof.Machine
end
